-- ==== Sys2Proof/Word.lean ====
section
/-! DEFINITION. The words of the block: bytes, pixels, Logical Frames and port words.
Spec: 00_scope.md R11, R12; 10_state.md R20; 20_memory.md R51. -/

namespace Sys2Proof

/-- An 8-bit unsigned quantity: a colour channel, an intensity, a pin number, a field of `CMD56`. -/
abbrev Byte := BitVec 8

/-- A Logical Frame, 26 bits, bit 25 transmitted first (30_encoding.md R71). -/
abbrev LogicalFrame := BitVec 26

/-- The 56-bit command word (30_encoding.md R75). -/
abbrev CommandWord := BitVec 56

/-- A word of `W` bits, one bit a pin (10_state.md R27). `W` is a parameter of the installation
(00_scope.md R9), so the word is held as its value, a natural below `2 ^ W`, and every operation on
it is computed in `BitVec W` (Machine/Operands.lean). DESIGN CHOICE, safe: entry 11. -/
abbrev PortWord := Nat

/-- The level of a pin: `true` is high (1), `false` is low (0) (00_scope.md R12). -/
abbrev Level := Bool

/-- A pixel of the image buffer: three 8-bit channels, named and not ordered
(20_memory.md R51, R54 (e)). -/
structure Pixel where
  r : Byte
  g : Byte
  b : Byte
  deriving DecidableEq, Repr

end Sys2Proof
end

