-- ==== Sys2Proof/Syntax.lean ====
section
/-! DEFINITION. The operations of the block, one constructor for each row of spec/opcode_table.json:
five host commands and nine internal operations. Spec: 30_encoding.md R76 to R78. -/

namespace Sys2Proof

/-- The operations. Host commands carry the 8-bit operands of `CMD56` (R76); an internal operation
carries what its rule names as operands. -/
inductive Instr where
  /-- `RENDER` (42_frame_scheduler.md R111). -/
  | render
  /-- `SETINT(value)` (R114). -/
  | setint (value : Byte)
  /-- `SEND1(address, pin, r, g, b, intensity)` (R116). -/
  | send1 (address pin r g b intensity : Byte)
  /-- `WRPIX(x, y, r, g, b)` (R118). -/
  | wrpix (x y r g b : Byte)
  /-- `WREN(s, v)` with `v = I[0]` (R119). -/
  | wren (s : Byte) (v : Bool)
  /-- `ENC(index, r, g, b, intensity)`; `index` is a natural of any size (40_protocol_encoder.md R90). -/
  | enc (index : Nat) (r g b intensity : Byte)
  /-- `EXP(k, pin, LF)` (41_bit_expander.md R100). -/
  | exp (k : Nat) (pin : Byte) (lf : LogicalFrame)
  /-- `COMPOSE(row)` (42_frame_scheduler.md R112). -/
  | compose (row : Nat)
  /-- `WMB(p, mask, bits)` (43_transport_driver.md R130). -/
  | wmb (p : Nat) (mask bits : PortWord)
  /-- `SLICEOUT(k, t)` (R131). -/
  | sliceout (k t : Nat)
  /-- `TXSYNC` (R132). -/
  | txsync
  /-- `HANDOFF` (R134). -/
  | handoff
  /-- `TICK` (R135). -/
  | tick
  /-- `SUBMIT` (42_frame_scheduler.md R117). -/
  | submit
  deriving DecidableEq, Repr

/-- Whether the operation is one of the five host commands (30_encoding.md R77). -/
def Instr.isHost : Instr → Bool
  | .render => true
  | .setint _ => true
  | .send1 _ _ _ _ _ _ => true
  | .wrpix _ _ _ _ _ => true
  | .wren _ _ => true
  | .enc _ _ _ _ _ => false
  | .exp _ _ _ => false
  | .compose _ => false
  | .wmb _ _ _ => false
  | .sliceout _ _ => false
  | .txsync => false
  | .handoff => false
  | .tick => false
  | .submit => false

end Sys2Proof
end

