-- ==== Sys2Proof/Decode.lean ====
section
/-! DEFINITION. The command word `CMD56`: its fields, the decoder (total, refusing a reserved code by
name) and the encoder. Spec: 30_encoding.md R75 to R79, R82, R83; 20_memory.md R56. -/

namespace Sys2Proof

/-- What the decoder answers: a host command, or the reserved code it refuses (R79). -/
inductive Decoded where
  | command (i : Instr)
  | unknownCommand (op : Byte)
  deriving DecidableEq, Repr

/-- Field `op`, bits [55:48] (R75). -/
def fieldOp (w : CommandWord) : Byte := w.extractLsb' 48 8
/-- Field `A`, bits [47:40]. -/
def fieldA (w : CommandWord) : Byte := w.extractLsb' 40 8
/-- Field `P`, bits [39:32]. -/
def fieldP (w : CommandWord) : Byte := w.extractLsb' 32 8
/-- Field `R`, bits [31:24]. -/
def fieldR (w : CommandWord) : Byte := w.extractLsb' 24 8
/-- Field `G`, bits [23:16]. -/
def fieldG (w : CommandWord) : Byte := w.extractLsb' 16 8
/-- Field `B`, bits [15:8]. -/
def fieldB (w : CommandWord) : Byte := w.extractLsb' 8 8
/-- Field `I`, bits [7:0]. -/
def fieldI (w : CommandWord) : Byte := w.extractLsb' 0 8

/-- The operation map of R77; the match is on `op` alone, every other code is reserved (R79), the
internal tags 0x10 to 0x18 among them (R78). Fields an operation does not use are ignored (R75). -/
def decode (w : CommandWord) : Decoded :=
  if fieldOp w = 0x01 then .command .render
  else if fieldOp w = 0x02 then .command (.setint (fieldI w))
  else if fieldOp w = 0x03 then
    .command (.send1 (fieldA w) (fieldP w) (fieldR w) (fieldG w) (fieldB w) (fieldI w))
  else if fieldOp w = 0x04 then
    .command (.wrpix (fieldA w) (fieldP w) (fieldR w) (fieldG w) (fieldB w))
  else if fieldOp w = 0x05 then .command (.wren (fieldA w) ((fieldI w).getLsbD 0))
  else .unknownCommand (fieldOp w)

/-- The word with the seven fields, `op` most significant (R75). -/
def packWord (op a p r g b i : Byte) : CommandWord :=
  op ++ a ++ p ++ r ++ g ++ b ++ i

/-- The byte whose bit 0 is `v`: field `I` of `WREN` (R76 (e), R83). -/
def boolByte (v : Bool) : Byte := if v then 1 else 0

/-- The command word of a host command, 0 in the unused fields (R75, R83); an internal operation has
none (R79). -/
def encode : Instr → Option CommandWord
  | .render => some (packWord 0x01 0 0 0 0 0 0)
  | .setint value => some (packWord 0x02 0 0 0 0 0 value)
  | .send1 address pin r g b intensity => some (packWord 0x03 address pin r g b intensity)
  | .wrpix x y r g b => some (packWord 0x04 x y r g b 0)
  | .wren s v => some (packWord 0x05 s 0 0 0 0 (boolByte v))
  | .enc _ _ _ _ _ => none
  | .exp _ _ _ => none
  | .compose _ => none
  | .wmb _ _ _ => none
  | .sliceout _ _ => none
  | .txsync => none
  | .handoff => none
  | .tick => none
  | .submit => none

/-- The operation code of a host command (R77) or the trace tag of an internal operation (R78). -/
def Instr.tag : Instr → Byte
  | .render => 0x01
  | .setint _ => 0x02
  | .send1 _ _ _ _ _ _ => 0x03
  | .wrpix _ _ _ _ _ => 0x04
  | .wren _ _ => 0x05
  | .enc _ _ _ _ _ => 0x10
  | .exp _ _ _ => 0x11
  | .compose _ => 0x12
  | .wmb _ _ _ => 0x13
  | .sliceout _ _ => 0x14
  | .txsync => 0x15
  | .handoff => 0x16
  | .tick => 0x17
  | .submit => 0x18

/-- The seven bytes of a word on a byte-serial carrier, the operation code first (20_memory.md R56). -/
def wordBytes (w : CommandWord) : List Byte :=
  [fieldOp w, fieldA w, fieldP w, fieldR w, fieldG w, fieldB w, fieldI w]

/-- What reading one command from a byte-serial carrier gives. -/
inductive ByteDecoded where
  /-- Seven bytes were read; the rest of the stream follows. -/
  | read (d : Decoded) (rest : List Byte)
  /-- Fewer than seven bytes have arrived; a command is exactly 56 bits (R82). -/
  | incomplete
  deriving DecidableEq, Repr

/-- Reads one command, exactly seven bytes, the operation code first (R82, 20_memory.md R56). -/
def decodeBytes : List Byte → ByteDecoded
  | op :: a :: p :: r :: g :: b :: i :: rest => .read (decode (packWord op a p r g b i)) rest
  | _ => .incomplete

/-- The host's question for a row of the opcode table: a word numbered as the table numbers it is
the 56-bit command word itself. -/
def decodeTableWord (nbits w : Nat) : Option Instr :=
  if nbits ≤ 56 then
    match decode (BitVec.ofNat 56 (w % 2 ^ nbits)) with
    | .command i => some i
    | .unknownCommand _ => none
  else none

end Sys2Proof
end

