-- ==== Sys2Proof/Config.lean ====
section
/-! DEFINITION. The configuration of one instance of the block: the fixed constants of the protocol,
the per-installation parameters and the parameters the source leaves open. It is immutable after
reset; the model carries it in the state (entry 1). Also the one free value of the model (entry 8).
Spec: 00_scope.md R7 to R9. -/

namespace Sys2Proof

/-- Bits in a Logical Frame (R7). -/
def lbits : Nat := 26

/-- Slices in a Physical Frame: one start slice, three for each logical bit, one idle slice (R7). -/
def frameSize : Nat := 2 + lbits * 3

/-- The address argument the broadcast path passes to the encoder (R7). -/
def bcastArg : Nat := 0xFF

/-- The transport variant, fixed for the life of the instance (R3, R9). -/
inductive Mode where
  /-- `SYNC`: one buffer, transmitted inline by the main path. -/
  | sync
  /-- `ISR`: two buffers, transmitted by the periodic tick. -/
  | isr
  deriving DecidableEq, Repr

/-- One entry of the strand table (R8, 10_state.md R22). `length[s]` is the number of coordinates
listed, so every position below it has its source pixel. -/
structure Strand where
  /-- `pin[s]`, the output pin of the strand. -/
  pin : Byte
  /-- `(sx[s][i], sy[s][i])` for `i = 0 .. length[s] - 1`. -/
  leds : List (Nat × Nat)
  deriving DecidableEq, Repr

/-- `length[s]` (R8). -/
def Strand.length (st : Strand) : Nat := st.leds.length

/-- One row of the pin table behind `PINMAP` (41_bit_expander.md R103). -/
structure PinEntry where
  pin  : Byte
  port : Nat
  bit  : Nat
  deriving DecidableEq, Repr

/-- The parameters of R8 and R9. -/
structure Config where
  /-- `MODE`. -/
  mode         : Mode
  /-- `N_PORTS`, the number of hardware port groups. -/
  nPorts       : Nat
  /-- `PORT_WIDTH` (`W`), the bits in one port word. -/
  portWidth    : Nat
  /-- The table that `PINMAP` looks pins up in (entry 10). -/
  pinTable     : List PinEntry
  /-- `BCAST_RGB`, the neutral colour of the broadcast frame. -/
  bcastRgb     : Pixel
  /-- `GI_RESET`. -/
  giReset      : Byte
  /-- `QUIET_TICKS`. -/
  quietTicks   : Nat
  /-- `IMG_W`. -/
  imgW         : Nat
  /-- `IMG_H`. -/
  imgH         : Nat
  /-- `MAX_STRAND_LEN`. -/
  maxStrandLen : Nat
  /-- The strand table; `STRAND_COUNT` is its length. -/
  strands      : List Strand
  /-- `T_TRIBIT` in microseconds; no rule's result depends on it (70_reset_and_hazards.md R192). -/
  tTribit      : Nat
  /-- `T_QUIET` in microseconds; no rule's result depends on it (70_reset_and_hazards.md R192). -/
  tQuiet       : Nat
  deriving DecidableEq, Repr

/-- `STRAND_COUNT` (R8). -/
def Config.strandCount (c : Config) : Nat := c.strands.length

/-- `NBUF`: 2 in `ISR` mode and 1 in `SYNC` mode (10_state.md R20). -/
def Config.nbuf (c : Config) : Nat :=
  match c.mode with
  | .sync => 1
  | .isr => 2

/-- The table of the default `PINMAP(pin) = (pin div W, pin mod W)` for `pin < N_PORTS * W`
(41_bit_expander.md R103); pins are `0 .. 255` (00_scope.md R8). -/
def Config.defaultPinTable (nPorts width : Nat) : List PinEntry :=
  (List.range (min 256 (nPorts * width))).map
    fun n => { pin := BitVec.ofNat 8 n, port := n / width, bit := n % width }

/-- The configuration of program P1 (95_test_vectors.md): `SYNC`, one strand of two LEDs on pin 3 of
one 8-bit port. It is the configuration of `State.reset`. DESIGN CHOICE, unsafe for claims about
`State.reset` alone: entries 2 and 4. -/
def Config.default : Config where
  mode         := .sync
  nPorts       := 1
  portWidth    := 8
  pinTable     := Config.defaultPinTable 1 8
  bcastRgb     := { r := 0, g := 0, b := 0 }
  giReset      := 0
  quietTicks   := 0
  imgW         := 1
  imgH         := 2
  maxStrandLen := 2
  strands      := [{ pin := 3, leds := [(0, 0), (0, 1)] }]
  tTribit      := 10
  tQuiet       := 30

/-- The value a finished loop leaves in `ROW` or `SIDX`, which are "meaningless between commands"
(10_state.md R26): a free value, one for each draw. DESIGN CHOICE, safe: entry 8. -/
opaque Config.loopLeft : Nat → Nat

end Sys2Proof
end

