-- ==== Sys2Proof/Machine/State.lean ====
section
/-! DEFINITION. The state of the block (10_state.md R20) with the configuration it runs under and the
model's own fields, the reasons a step can stop, and the state after reset (10_state.md R41). -/

namespace Sys2Proof.Machine

/-- Why the model stops on an operation the spec gives no meaning for. None is reached by a host
command or by `step`. -/
inductive Fault where
  /-- Raised by `EXP` and `SLICEOUT` on an instance `k >= NBUF`, which does not exist
  (20_memory.md R50, 10_state.md R35). Safe: the spec has no such access. Entry 16. -/
  | noSuchInstance
  /-- Raised by `SLICEOUT` on a slice `t >= 80` (20_memory.md R50, R57 (d)). Safe. Entry 16. -/
  | noSuchSlice
  /-- Raised by `WMB` on a port `p >= N_PORTS` (20_memory.md R50, R57 (c)). Safe. Entry 16. -/
  | noSuchPort
  deriving DecidableEq, Repr

/-- Why the model gives an operation no meaning. None is reached by a host command or by `step`. -/
inductive Refusal where
  /-- Answered by `exec` alone, for an instruction whose meaning is not written. Safe. -/
  | notModelled (mnemonic : String)
  /-- Answered by `TXSYNC` in `ISR` mode and by `HANDOFF` and `TICK` in `SYNC` mode: the operation
  exists in the other MODE only (43_transport_driver.md R132, R134, R135). Safe. Entry 17. -/
  | wrongMode
  deriving DecidableEq, Repr

/-- The content of the sticky register `FAULT` (10_state.md R34; codes: 60_exceptions.md R151). -/
inductive FaultRecord where
  /-- Code 0: no fault. -/
  | none
  /-- Code 1, `InvalidPin`: `PINMAP` does not recognise the pin. -/
  | invalidPin (pin : Byte)
  /-- Code 2, `BadCoord`: a coordinate of the strand lies outside the image. -/
  | badCoord (strand : Byte)
  deriving DecidableEq, Repr

/-- Why the block refuses a command (60_exceptions.md R155). -/
inductive HostRefusal where
  | unknownCommand
  | faulted
  | badOperand
  deriving DecidableEq, Repr

/-- What the host gets back for one command (00_scope.md R14, 42_frame_scheduler.md R123). -/
inductive Answer where
  | ok
  | fault (f : FaultRecord)
  | refused (r : HostRefusal)
  deriving DecidableEq, Repr

/-- One event of the history (00_scope.md R15): a port write, or a tick that writes nothing, which is
idle (`SEND = 0`) or quiet (`SEND = 1`, `CUR >= 80`; 43_transport_driver.md R135). Entry 12. -/
inductive Event where
  | wmb (p : Nat) (mask bits : PortWord)
  | idleTick
  | quietTick
  deriving DecidableEq, Repr

/-- One listed pixel of the image: its coordinates and its value. -/
abbrev ImageCell := (Nat × Nat) × Pixel

/-- The whole state. The first fourteen fields are `IMG` to `FAULT` of 10_state.md R20 and the
configuration; the rest are the model's own (INVENTORY.md, State). -/
@[ext]
structure State where
  /-- The configuration, never written (10_state.md R20). Entry 1. -/
  cfg       : Config
  /-- `IMG` (R21): the pixels that are not black, keys strictly rising. Entry 3. -/
  img       : List ImageCell
  /-- `EN[s]` (R23). -/
  en        : List Bool
  /-- `GI` (R24). -/
  gi        : Byte
  /-- `LF` (R25). -/
  lf        : LogicalFrame
  /-- `ROW` (R26). -/
  row       : Nat
  /-- `SIDX` (R26). -/
  sidx      : Nat
  /-- `BUF[k][p][t]` (R27). -/
  buf       : List (List (List PortWord))
  /-- `DRV[k][p]` (R28). -/
  drv       : List (List PortWord)
  /-- `ACT` (R29). -/
  act       : BitVec 1
  /-- `SEND` (R30). -/
  send      : Bool
  /-- `CUR` (R31). -/
  cur       : Nat
  /-- `PORT[p]` (R33). -/
  port      : List PortWord
  /-- `FAULT` (R34). -/
  fault     : FaultRecord
  /-- The host commands not yet taken, oldest first. Entry 14. -/
  cmds      : List CommandWord
  /-- What the host got back, oldest first. Entry 13. -/
  answers   : List Answer
  /-- The event history, oldest first. Entry 12. -/
  history   : List Event
  /-- How many ticks fall at each of the next places where ticks may fall. Entry 5. -/
  sched     : List Nat
  /-- Whether the timer goes on firing when `sched` is used up. Entry 6. -/
  tickFires : Bool
  /-- Whether the main path is held for ever in a spin. Entry 7. -/
  hung      : Bool
  /-- How many free values have been drawn. Entry 8. -/
  draws     : Nat
  deriving DecidableEq, Repr

/-- The state after reset of an instance with configuration `c` whose image buffer holds `img`: the
values of 10_state.md R41, the image a launch argument (R21). -/
def State.launch (c : Config) (img : List ImageCell) : State where
  cfg       := c
  img       := img
  en        := List.replicate c.strandCount true
  gi        := c.giReset
  lf        := 0
  row       := 0
  sidx      := 0
  buf       := List.replicate c.nbuf (List.replicate c.nPorts (List.replicate frameSize 0))
  drv       := List.replicate c.nbuf (List.replicate c.nPorts 0)
  act       := 0
  send      := false
  cur       := 0
  port      := List.replicate c.nPorts 0
  fault     := .none
  cmds      := []
  answers   := []
  history   := []
  sched     := []
  tickFires := true
  hung      := false
  draws     := 0

/-- The machine right after reset (70_reset_and_hazards.md R170), with the configuration of entry 2
and the image of entry 3. -/
def State.reset : State := State.launch Config.default []

end Sys2Proof.Machine
end

