-- ==== Sys2Proof/Machine/Flags.lean ====
section
/-! DEFINITION. The condition flags and the read-only views of them: `SEND`, `FAULT != 0`, the
`STATUS` and `FAULT` words, the transport state. No arithmetic flag exists.
Spec: 10_state.md R32, R37, R38; 43_transport_driver.md R141. -/

namespace Sys2Proof.Machine

/-- `isIdle`: `SEND = 0` (R141). -/
def State.isIdle (s : State) : Bool := !s.send

/-- `FAULTED`: `FAULT != 0` (R37). -/
def State.faulted (s : State) : Bool := decide (s.fault ≠ .none)

/-- The code of a fault record (60_exceptions.md R151). -/
def faultCode : FaultRecord → Byte
  | .none => 0
  | .invalidPin _ => 1
  | .badCoord _ => 2

/-- The info of a fault record: the pin number or the strand index (60_exceptions.md R151). -/
def faultInfo : FaultRecord → Byte
  | .none => 0
  | .invalidPin pin => pin
  | .badCoord strand => strand

/-- The `FAULT` register as the host reads it: `code` in [15:8], `info` in [7:0] (R38). -/
def State.faultWord (s : State) : BitVec 16 := faultCode s.fault ++ faultInfo s.fault

/-- The `STATUS` register as the host reads it: `SEND` in bit 0, `ACT` in bit 1, `FAULTED` in bit 2
(R38). -/
def State.status (s : State) : BitVec 3 := BitVec.ofBool s.faulted ++ s.act ++ BitVec.ofBool s.send

/-- The transport states that last between steps (R32). -/
inductive TransportState where
  | idle
  | armed
  | transmitting
  deriving DecidableEq, Repr

/-- The transport state is a function of `SEND` and `CUR` (R32). -/
def State.transport (s : State) : TransportState :=
  if s.send then (if s.cur = 0 then .armed else .transmitting) else .idle

end Sys2Proof.Machine
end

