-- ==== Sys2Proof/Machine/Operands.lean ====
section
/-! DEFINITION. How every operand is formed: port words and their lanes at width `W`, the pin lookup,
the strand table, the activity rule, the composing instance, and the well-formed configuration.
Spec: 30_encoding.md R76, R84; 41_bit_expander.md R103, R104; 42_frame_scheduler.md R110, R113;
00_scope.md R10. -/

namespace Sys2Proof.Machine

/-! ### Port words (R84 (e), (g)) -/

/-- A value read as a word of `width` bits. -/
def wordOf (width n : Nat) : PortWord := (BitVec.ofNat width n).toNat

/-- The pin mask `1 << bit`, a word with one bit set (R84 (e)). -/
def pinMask (width bit : Nat) : BitVec width := 1#width <<< bit

/-- The word `old` with lane `bit` set to `level`: `old | m` or `old & ~m` (R100). -/
def setLane (width bit : Nat) (level : Level) (old : PortWord) : PortWord :=
  if level then (BitVec.ofNat width old ||| pinMask width bit).toNat
  else (BitVec.ofNat width old &&& ~~~ pinMask width bit).toNat

/-- The masked merge `(old & ~mask) | (bits & mask)` (R84 (g), R130). -/
def mergeMasked (width : Nat) (old mask bits : PortWord) : PortWord :=
  ((BitVec.ofNat width old &&& ~~~ BitVec.ofNat width mask)
    ||| (BitVec.ofNat width bits &&& BitVec.ofNat width mask)).toNat

/-- Lane `b` of a port word: the level of pin `(p, b)` (10_state.md R27, R33). -/
def lane (word : PortWord) (b : Nat) : Level := word.testBit b

/-! ### Pins and strands -/

/-- `PINMAP` (R103): the port group and bit of a pin, none for a pin it does not recognise. A table
row that names no existing port or bit recognises nothing (entry 10). -/
def pinMap (c : Config) (pin : Byte) : Option (Nat × Nat) :=
  match c.pinTable.find? (fun e => e.pin == pin) with
  | some e => if e.port < c.nPorts ∧ e.bit < c.portWidth then some (e.port, e.bit) else none
  | none => none

/-- The length of the longest strand of a table. -/
def longest : List Strand → Nat
  | [] => 0
  | st :: rest => max st.length (longest rest)

/-- `maxlen`, the number of render passes: the longest strand, enabled or not (R110). -/
def maxlen (c : Config) : Nat := longest c.strands

/-- `EN[s]` (10_state.md R23). -/
def State.enabled (s : State) (i : Nat) : Bool := s.en.getD i false

/-- The activity rule: strand `i` takes part in row `row` (R113). -/
def State.active (s : State) (row i : Nat) (st : Strand) : Bool :=
  s.enabled i && decide (row < st.length)

/-- `(sx[s][row], sy[s][row])` (00_scope.md R8), for `row < length[s]`. -/
def coordOf (st : Strand) (row : Nat) : Nat × Nat := st.leds.getD row (0, 0)

/-- The 8-bit `info` of a `BadCoord` fault: the strand index (60_exceptions.md R151). Entry 18. -/
def strandInfo (i : Nat) : Byte := BitVec.ofNat 8 i

/-- `kc`, the composing instance: `1 - ACT` in `ISR` mode, 0 in `SYNC` mode
(42_frame_scheduler.md, head; 30_encoding.md R84 (f)). -/
def State.composing (s : State) : Nat :=
  match s.cfg.mode with
  | .sync => 0
  | .isr => (1 - s.act).toNat

/-! ### The well-formed configuration (00_scope.md R9, R10) -/

/-- What R9 and R103 ask of the ports and of `PINMAP`: at least one port of at least one bit, results
in range, no two pins on one bit, and the pins of a port contiguous. -/
def portsWellFormed (c : Config) : Bool :=
  decide (1 ≤ c.nPorts) && decide (1 ≤ c.portWidth)
  && c.pinTable.all (fun e => decide (e.port < c.nPorts) && decide (e.bit < c.portWidth))
  && decide ((c.pinTable.map fun e => e.pin).Nodup)
  && decide ((c.pinTable.map fun e => (e.port, e.bit)).Nodup)
  && c.pinTable.all (fun e => c.pinTable.all fun e' =>
      !(decide (e.port = e'.port) && decide (e.pin < e'.pin))
      || c.pinTable.any fun n => decide (n.port = e.port) && decide (n.pin.toNat = e.pin.toNat + 1))

/-- Every strand is no longer than the maximum, its pin is recognised and its coordinates lie in the
image (R10). -/
def strandWellFormed (c : Config) (st : Strand) : Bool :=
  decide (st.length ≤ c.maxStrandLen) && (pinMap c st.pin).isSome
  && st.leds.all fun xy => decide (xy.1 < c.imgW) && decide (xy.2 < c.imgH)

/-- A well-formed configuration (R10). -/
def configWellFormed (c : Config) : Bool :=
  decide (1 ≤ c.strandCount) && decide (c.strandCount ≤ 32) && decide (c.maxStrandLen ≤ 62)
  && c.strands.all (strandWellFormed c)
  && decide ((c.strands.map fun st => st.pin).Nodup)

end Sys2Proof.Machine
end

