-- ==== Sys2Proof/Machine/Ops.lean ====
section
/-! DEFINITION. The named operations over the spaces and registers: the image buffer, the port output
buffers and their masks, the latches and the event history, and the ways an operation ends: going on,
taking a configuration fault, being held. Spec: 20_memory.md R50 to R58; 60_exceptions.md R150, R155. -/

namespace Sys2Proof.Machine

/-! ### The image buffer (10_state.md R21) -/

/-- What an unlisted pixel of the image reads as. DESIGN CHOICE, unsafe for claims about
`State.reset` alone: entry 3. -/
def blankPixel : Pixel := { r := 0, g := 0, b := 0 }

/-- The order of the listed pixels: by `x`, then by `y`. -/
abbrev keyLt (a b : Nat × Nat) : Prop := a.1 < b.1 ∨ (a.1 = b.1 ∧ a.2 < b.2)

/-- `IMG[x][y]`, a whole pixel (20_memory.md R51). -/
def imageRead (img : List ImageCell) (x y : Nat) : Pixel :=
  match img with
  | [] => blankPixel
  | cell :: rest => if cell.1 = (x, y) then cell.2 else imageRead rest x y

/-- The list with one more cell in front, unless its pixel is what an unlisted one reads as. -/
def imageCons (x y : Nat) (px : Pixel) (rest : List ImageCell) : List ImageCell :=
  if px = blankPixel then rest else ((x, y), px) :: rest

/-- `IMG[x][y] <- px`, keeping the canonical form (42_frame_scheduler.md R118). -/
def imageWrite (img : List ImageCell) (x y : Nat) (px : Pixel) : List ImageCell :=
  match img with
  | [] => imageCons x y px []
  | cell :: rest =>
    if cell.1 = (x, y) then imageCons x y px rest
    else if keyLt (x, y) cell.1 then imageCons x y px (cell :: rest)
    else cell :: imageWrite rest x y px

/-- The canonical form: keys strictly rising, no listed pixel equal to what an unlisted one reads as. -/
abbrev imageWf (img : List ImageCell) : Prop :=
  img.Pairwise (fun a b => keyLt a.1 b.1) ∧ ∀ cell ∈ img, cell.2 ≠ blankPixel

/-- `IMG[x][y]` of a state. -/
def State.pixel (s : State) (x y : Nat) : Pixel := imageRead s.img x y

/-! ### Reading `BUF`, `DRV` and `PORT` (20_memory.md R50) -/

/-- `BUF[k][p][t]`. -/
def State.bufWord (s : State) (k p t : Nat) : PortWord := ((s.buf.getD k []).getD p []).getD t 0

/-- `DRV[k][p]`. -/
def State.drvWord (s : State) (k p : Nat) : PortWord := (s.drv.getD k []).getD p 0

/-- `PORT[p]`. -/
def State.portWord (s : State) (p : Nat) : PortWord := s.port.getD p 0

/-! ### Writing one register -/

/-- `GI <- v`. -/
def setGi (v : Byte) (s : State) : State := { s with gi := v }
/-- `EN` as a whole; one flag is written by `s.en.set`. -/
def setEn (v : List Bool) (s : State) : State := { s with en := v }
/-- `IMG` as a whole; one pixel is written by `imageWrite`. -/
def setImg (v : List ImageCell) (s : State) : State := { s with img := v }
/-- `LF <- v`. -/
def setLf (v : LogicalFrame) (s : State) : State := { s with lf := v }
/-- `ROW <- v`. -/
def setRow (v : Nat) (s : State) : State := { s with row := v }
/-- `SIDX <- v`. -/
def setSidx (v : Nat) (s : State) : State := { s with sidx := v }
/-- `ACT <- v`. -/
def setAct (v : BitVec 1) (s : State) : State := { s with act := v }
/-- `SEND <- v`. -/
def setSend (v : Bool) (s : State) : State := { s with send := v }
/-- `CUR <- v`. -/
def setCur (v : Nat) (s : State) : State := { s with cur := v }
/-- `FAULT <- v`. -/
def setFault (v : FaultRecord) (s : State) : State := { s with fault := v }
/-- The model's own `sched` (entry 5). -/
def setSched (v : List Nat) (s : State) : State := { s with sched := v }
/-- The model's own `hung` (entry 7). -/
def setHung (v : Bool) (s : State) : State := { s with hung := v }
/-- The model's own `cmds` (entry 14). -/
def setCmds (v : List CommandWord) (s : State) : State := { s with cmds := v }
/-- One free value has been drawn (entry 8). -/
def drawn (s : State) : State := { s with draws := s.draws + 1 }

/-! ### Writing `BUF`, `DRV`, `PORT` and the history -/

/-- Puts an event at the end of the history (00_scope.md R15). -/
def record (e : Event) (s : State) : State := { s with history := s.history ++ [e] }

/-- `DRV[k][p] <- 0` for every port: "cleared, then rebuilt" (42_frame_scheduler.md R112). -/
def clearDrv (k : Nat) (s : State) : State :=
  { s with drv := s.drv.modify k fun _ => List.replicate s.cfg.nPorts 0 }

/-- Sets lane `bit` of `DRV[k][p]`, and lane `bit` of word `t` of `BUF[k][p]` to the `t`-th level;
no other lane, port or instance (41_bit_expander.md R100, R104, R107). -/
def driveLane (k p bit : Nat) (levels : List Level) (s : State) : State :=
  { s with
    drv := s.drv.modify k fun masks => masks.modify p (setLane s.cfg.portWidth bit true)
    buf := s.buf.modify k fun ports => ports.modify p fun words =>
      List.zipWith (fun old level => setLane s.cfg.portWidth bit level old) words levels }

/-- `writeMaskedBits`: the pins in the mask take the levels in `bits`, and the event is recorded
(43_transport_driver.md R130). -/
def wmb (p : Nat) (mask bits : PortWord) (s : State) : State :=
  record (.wmb p mask bits)
    { s with port := s.port.modify p fun old => mergeMasked s.cfg.portWidth old mask bits }

/-! ### What a finished loop leaves in its counter (10_state.md R26; entry 8) -/

/-- `ROW` after the last pass of a render: a free value in the counter's range. -/
def leaveRow (s : State) : State :=
  drawn (setRow (Config.loopLeft s.draws % (maxlen s.cfg + 1)) s)

/-- `SIDX` after the last strand: a free value in the counter's range. -/
def leaveSidx (s : State) : State :=
  drawn (setSidx (Config.loopLeft s.draws % (s.cfg.strandCount + 1)) s)

/-! ### How an operation ends -/

/-- How an operation of the main path ends (00_scope.md R14). -/
inductive Res where
  /-- It ran to its end. -/
  | ok (s : State)
  /-- It raised a configuration fault and stopped where it was. -/
  | raised (s : State)
  /-- It is held for ever in a spin on `SEND` (43_transport_driver.md R136). -/
  | held (s : State)
  deriving DecidableEq, Repr

/-- The state an operation leaves, however it ends. -/
def Res.state : Res → State
  | .ok s => s
  | .raised s => s
  | .held s => s

/-- What follows runs only if the operation ran to its end (60_exceptions.md R150). -/
def Res.andThen (r : Res) (next : State → Res) : Res :=
  match r with
  | .ok s => next s
  | .raised s => .raised s
  | .held s => .held s

/-- TAKING A CONFIGURATION FAULT, `raise Fault(code, info)`: the first one is recorded and stays, and
the operation stops (60_exceptions.md R150; 10_state.md R34). There is no handler and no return:
only reset clears it (70_reset_and_hazards.md R170). -/
def raise (f : FaultRecord) (s : State) : Res :=
  .raised (setFault (if s.fault = .none then f else s.fault) s)

/-- The host gets an answer (42_frame_scheduler.md R123). -/
def giveAnswer (a : Answer) (s : State) : State := { s with answers := s.answers ++ [a] }

/-- `refuse(reason)`: nothing changes but that the host sees the reason (60_exceptions.md R155). -/
def refuse (why : HostRefusal) (s : State) : State := giveAnswer (.refused why) s

/-- The end of a host command: `ok`, the fault it raised, or no answer when it is held for ever. -/
def finishCommand : Res → State
  | .ok s => giveAnswer .ok s
  | .raised s => giveAnswer (.fault s.fault) s
  | .held s => s

/-- A host command: refused while a fault is recorded, else run to its end
(42_frame_scheduler.md R120). -/
def runCommand (body : State → Res) (s : State) : State :=
  if s.faulted then refuse .faulted s else finishCommand (body s)

/-- The outcome of an internal operation: a next state however it ends. -/
def outcomeOf (r : Res) : Host.Outcome State Fault Refusal := .next r.state

end Sys2Proof.Machine
end

