-- ==== Sys2Proof/Machine/HostWrites.lean ====
section
/-! DEFINITION. The host's writes of the block's inputs, `WRPIX` and `WREN`.
Spec: 42_frame_scheduler.md R118, R119; 60_exceptions.md R155. -/

namespace Sys2Proof.Machine

/-- `WRPIX`: one pixel of the image, or a refusal; no sticky fault (R118). -/
def writePixel (x y : Nat) (px : Pixel) (s : State) : State :=
  if x < s.cfg.imgW ∧ y < s.cfg.imgH then
    giveAnswer .ok (setImg (imageWrite s.img x y px) s)
  else refuse .badOperand s

/-- `WREN`: one enable flag, or a refusal (R119). -/
def writeEnable (i : Nat) (v : Bool) (s : State) : State :=
  if i < s.cfg.strandCount then giveAnswer .ok (setEn (s.en.set i v) s)
  else refuse .badOperand s

/-- `WRPIX(x, y, r, g, b)` (R118), refused while a fault is recorded (R120). -/
def execWrpix (x y r g b : Byte) (s : State) : Host.Outcome State Fault Refusal :=
  .next (if s.faulted then refuse .faulted s
    else writePixel x.toNat y.toNat { r := r, g := g, b := b } s)

/-- `WREN(s, v)` (R119), refused while a fault is recorded (R120). -/
def execWren (i : Byte) (v : Bool) (s : State) : Host.Outcome State Fault Refusal :=
  .next (if s.faulted then refuse .faulted s else writeEnable i.toNat v s)

end Sys2Proof.Machine
end

