-- ==== Sys2Proof/Machine/Encoder.lean ====
section
/-! DEFINITION. The Protocol Encoder, `ENC`, and the fields of a Logical Frame.
Spec: 40_protocol_encoder.md; 30_encoding.md R71. -/

namespace Sys2Proof.Machine

/-- `c[7:4]`, the top nibble of a channel; the low nibble is discarded without rounding (R92). -/
def topNibble (c : Byte) : BitVec 4 := c.extractLsb' 4 4

/-- The Logical Frame of five operands (R90): `index mod 64`, intensity, blue, green, red. -/
def frameOf (index : Nat) (r g b intensity : Byte) : LogicalFrame :=
  BitVec.ofNat 6 (index % 64) ++ intensity ++ topNibble b ++ topNibble g ++ topNibble r

/-- `addr`, `LF[25:20]` (R95). -/
def frameAddr (lf : LogicalFrame) : BitVec 6 := lf.extractLsb' 20 6
/-- `inten`, `LF[19:12]` (R95). -/
def frameInten (lf : LogicalFrame) : BitVec 8 := lf.extractLsb' 12 8
/-- `blue`, `LF[11:8]` (R95). -/
def frameBlue (lf : LogicalFrame) : BitVec 4 := lf.extractLsb' 8 4
/-- `green`, `LF[7:4]` (R95). -/
def frameGreen (lf : LogicalFrame) : BitVec 4 := lf.extractLsb' 4 4
/-- `red`, `LF[3:0]` (R95). -/
def frameRed (lf : LogicalFrame) : BitVec 4 := lf.extractLsb' 0 4

/-- Element `j` of the wire sequence `bitseq(LF, 26)`: `LF[25 - j]` (R71). -/
def wireBit (lf : LogicalFrame) (j : Nat) : Bool := lf.getLsbD (25 - j)

/-- `ENC` as the main path runs it: the frame goes to `LF`, nothing else is written (R90). -/
def encodeFrame (index : Nat) (r g b intensity : Byte) (s : State) : State :=
  setLf (frameOf index r g b intensity) s

/-- `ENC(index, r, g, b, intensity)` (R90). -/
def execEnc (index : Nat) (r g b intensity : Byte) (s : State) :
    Host.Outcome State Fault Refusal :=
  .next (encodeFrame index r g b intensity s)

end Sys2Proof.Machine
end

