-- ==== Sys2Proof/Machine/Expander.lean ====
section
/-! DEFINITION. The Per-Strand Bit Expander, `EXP`, its level function and the inverse of it.
Spec: 41_bit_expander.md; 30_encoding.md R72, R73. -/

namespace Sys2Proof.Machine

/-- The three slices of the cell of a logical bit: low, the complement of the bit, high
(30_encoding.md R73). -/
def cellLevel (bit : Bool) (phase : Nat) : Level :=
  match phase with
  | 0 => false
  | 1 => !bit
  | _ => true

/-- `lev(LF, t)` (R101): the start slice high, slices `1 + 3j .. 3 + 3j` the cell of element `j`, the
idle slice low. -/
def lev (lf : LogicalFrame) (t : Nat) : Level :=
  if t = 0 then true
  else if t < frameSize - 1 then cellLevel (wireBit lf ((t - 1) / 3)) ((t - 1) % 3)
  else false

/-- The Physical Frame of a Logical Frame: its 80 levels, slice 0 first (30_encoding.md R72). -/
def levels (lf : LogicalFrame) : List Level := (List.range frameSize).map (lev lf)

/-- Reads cells of three slices until the one idle slice is left, the last bit read going to the right
of those read before it; none where a cell is not `0 ? 1` or the end is not the idle slice. -/
def decCells : List Level → Nat → Option Nat
  | [false], acc => some acc
  | a :: b :: c :: rest, acc =>
    if a = false ∧ c = true then decCells rest (2 * acc + (if b then 0 else 1)) else none
  | _, _ => none

/-- `DEC` (R106): the Logical Frame of a Physical Frame, none where the 80 levels are not one. It is a
checking function, not part of the hardware. -/
def dec (ls : List Level) : Option LogicalFrame :=
  match ls with
  | true :: rest =>
    if ls.length = frameSize then (decCells rest 0).map (BitVec.ofNat 26) else none
  | _ => none

/-- `EXP(k, pin, LF)` as the main path runs it (R100): an unrecognised pin raises `InvalidPin` before
any write (R103); else the pin's lane takes the 80 levels and its mask bit is set (R105). -/
def expand (k : Nat) (pin : Byte) (lf : LogicalFrame) (s : State) : Res :=
  match pinMap s.cfg pin with
  | none => raise (.invalidPin pin) s
  | some (p, bit) => .ok (driveLane k p bit (levels lf) s)

/-- `EXP(k, pin, LF)` (R100); an instance that does not exist stops the model (entry 16). -/
def execExp (k : Nat) (pin : Byte) (lf : LogicalFrame) (s : State) :
    Host.Outcome State Fault Refusal :=
  if k < s.cfg.nbuf then outcomeOf (expand k pin lf s) else .fault .noSuchInstance

end Sys2Proof.Machine
end

