-- ==== Sys2Proof/Machine/Transport.lean ====
section
/-! DEFINITION. The Transport Driver: `WMB`, `SLICEOUT`, `TXSYNC`, `TICK`, `HANDOFF`, and the state
object the source proposes. Spec: 43_transport_driver.md. -/

namespace Sys2Proof.Machine

/-- `SLICEOUT(k, t)` as the transport runs it: one `WMB` a port, ascending, masked by `DRV[k]` (R131).
The event takes the whole word of `BUF`, as R131 writes it, with the stale lanes outside the mask. These
differ between `SYNC` mode, which has one instance, and `ISR` mode, which has two; so that the events are
the same in both modes (R133) holds of this history under the masks only. DEDUCED, safe: entry 22. -/
def sliceout (k t : Nat) (s : State) : State :=
  (List.range s.cfg.nPorts).foldl (fun u p => wmb p (s.drvWord k p) (s.bufWord k p t) u) s

/-- The first `n` slices of instance `k`, in order. -/
def slicesOut (k : Nat) : Nat → State → State
  | 0, s => s
  | n + 1, s => sliceout k n (slicesOut k n s)

/-- `TXSYNC` as the main path runs it: the 80 slices of the one buffer in order; the holds are timing
only (R132). -/
def txsync (s : State) : State := slicesOut 0 frameSize s

/-- What a non-idle tick puts out: slice `CUR` of the active instance, or nothing in the quiet ticks
after slice 79 (R135). -/
def tickOutput (s : State) : State :=
  if s.cur < frameSize then sliceout s.act.toNat s.cur s else record .quietTick s

/-- The cursor step of a non-idle tick with its Done test (R135, R138). -/
def advanceCursor (s : State) : State :=
  if s.cur + 1 = frameSize + s.cfg.quietTicks then setCur 0 (setSend false s)
  else setCur (s.cur + 1) s

/-- `TICK`: the body of the periodic interrupt, one atomic step (R135). -/
def tickBody (s : State) : State :=
  if s.send then advanceCursor (tickOutput s) else record .idleTick s

/-- `n` firings of the tick in a row. -/
def ticks : Nat → State → State
  | 0, s => s
  | n + 1, s => ticks n (tickBody s)

/-- The non-idle ticks a frame in flight still needs (R135, 60_exceptions.md R165). -/
def ticksLeft (s : State) : Nat := frameSize + s.cfg.quietTicks - s.cur

/-- The main path held for ever: no step of the tick will clear `SEND` (R136; entry 7). -/
def hold (s : State) : Res := .held (setHung true s)

/-- The spin when the listed ticks are used up: it ends at once if `SEND = 0`; while the timer goes on
firing it ends with the tick that reaches Done; else it never ends (R136, 60_exceptions.md R165). -/
def spinFree (s : State) : Res :=
  if s.send then
    if s.tickFires then
      if (ticks (ticksLeft s) s).send then hold s else .ok (ticks (ticksLeft s) s)
    else hold s
  else .ok s

/-- `spin until SEND = 0`: before each read of `SEND` the next listed number of ticks fall; it ends at
the first read that returns 0 (R136, R137; entry 5). -/
def spin : List Nat → State → Res
  | [], s => spinFree (setSched [] s)
  | n :: rest, s =>
    if (ticks n s).send then spin rest (ticks n s) else .ok (setSched rest (ticks n s))

/-- The ticks that fall at the next place (R137), and the place used up. -/
def ticksAtPlace (s : State) : State :=
  ticks (s.sched.headD 0) (setSched s.sched.tail s)

/-- The last two actions of `HANDOFF`: the composed instance becomes active, then the flag is raised;
ticks may fall between them (R134, R137 (c)). -/
def arm (s : State) : State :=
  setSend true (ticksAtPlace (setAct (1 - s.act) s))

/-- `HANDOFF` as the main path runs it (R134). -/
def handoff (s : State) : Res := (spin s.sched s).andThen fun t => .ok (arm t)

/-! ### The source's proposed state object (R141); `isIdle` is in Machine/Flags.lean -/

/-- `tryBeginTransmit(bufferIndex)`: begins and answers true if idle, else answers false. It reads no
mode, as R141 writes it. In `SYNC` mode, where `ACT` and `SEND` read as 0 (10_state.md R35) and no rule
says what a call does, it writes both all the same and answers true. DESIGN CHOICE, unsafe for claims
about the state object in `SYNC` mode: entry 24. -/
def tryBeginTransmit (k : BitVec 1) (s : State) : State × Bool :=
  if s.send then (s, false) else (setSend true (setAct k s), true)

/-- `advanceSlice()`: the non-idle branch of `TICK`; answers Done (true) exactly when it clears `SEND`.
The spec maps it to that branch only and does not say what it does while idle (`SEND = 0`): here it runs
the branch all the same, putting out slice `CUR` and moving the cursor, and does not answer Done. DESIGN
CHOICE, unsafe for claims about `advanceSlice` while idle: entry 21. It reads no mode either: entry 24. -/
def advanceSlice (s : State) : State × Bool :=
  (advanceCursor (tickOutput s), s.send && !(advanceCursor (tickOutput s)).send)

/-! ### The meanings -/

/-- `WMB(p, mask, bits)` (R130); the operands are words of `W` bits, and a port that does not exist
stops the model (entries 11, 16). -/
def execWmb (p : Nat) (mask bits : PortWord) (s : State) : Host.Outcome State Fault Refusal :=
  if p < s.cfg.nPorts then
    .next (wmb p (wordOf s.cfg.portWidth mask) (wordOf s.cfg.portWidth bits) s)
  else .fault .noSuchPort

/-- `SLICEOUT(k, t)` (R131); an instance or slice that does not exist stops the model (entry 16). -/
def execSliceout (k t : Nat) (s : State) : Host.Outcome State Fault Refusal :=
  if k < s.cfg.nbuf then
    if t < frameSize then .next (sliceout k t s) else .fault .noSuchSlice
  else .fault .noSuchInstance

/-- `TXSYNC` (R132), which exists in `SYNC` mode only (entry 17). -/
def execTxsync (s : State) : Host.Outcome State Fault Refusal :=
  match s.cfg.mode with
  | .sync => .next (txsync s)
  | .isr => .refused .wrongMode

/-- `HANDOFF` (R134), which exists in `ISR` mode only (entry 17). -/
def execHandoff (s : State) : Host.Outcome State Fault Refusal :=
  match s.cfg.mode with
  | .isr => outcomeOf (handoff s)
  | .sync => .refused .wrongMode

/-- `TICK` (R135), which exists in `ISR` mode only (entry 17). -/
def execTick (s : State) : Host.Outcome State Fault Refusal :=
  match s.cfg.mode with
  | .isr => .next (tickBody s)
  | .sync => .refused .wrongMode

end Sys2Proof.Machine
end

