-- ==== Sys2Proof/Machine/Scheduler.lean ====
section
/-! DEFINITION. The Frame Scheduler and the three transmitting host commands: `COMPOSE`, `SUBMIT`,
`RENDER`, `SETINT`, `SEND1`. Spec: 42_frame_scheduler.md. -/

namespace Sys2Proof.Machine

/-- `SUBMIT` as the main path runs it: `TXSYNC` in `SYNC` mode, `HANDOFF` in `ISR` mode (R117). -/
def submit (s : State) : Res :=
  match s.cfg.mode with
  | .sync => .ok (txsync s)
  | .isr => handoff s

/-- What a composition does strand by strand: the body for each strand of a table from index `i` on,
ascending, to the first fault (R112, R114). -/
def forStrands (body : Nat → Strand → State → Res) : Nat → List Strand → State → Res
  | _, [], s => .ok s
  | i, st :: rest, s => (body i st s).andThen (forStrands body (i + 1) rest)

/-- One strand of a row: the coordinates are checked, then the pixel is read, encoded with the row
number and the global intensity, and expanded (R112). -/
def composeActive (k row i : Nat) (st : Strand) (s : State) : Res :=
  if (coordOf st row).1 < s.cfg.imgW ∧ (coordOf st row).2 < s.cfg.imgH then
    let px := s.pixel (coordOf st row).1 (coordOf st row).2
    let t := encodeFrame row px.r px.g px.b s.gi s
    expand k st.pin t.lf t
  else raise (.badCoord (strandInfo i)) s

/-- Strand `i` of a row, with `SIDX = i`: a strand that takes no part contributes nothing (R113). -/
def composeStrand (k row i : Nat) (st : Strand) (s : State) : Res :=
  if s.active row i st then composeActive k row i st (setSidx i s)
  else .ok (setSidx i s)

/-- `COMPOSE(row)` as the main path runs it: the composing instance is fixed when it starts, its masks
are cleared, then rebuilt strand by strand (R112). -/
def compose (row : Nat) (s : State) : Res :=
  (forStrands (composeStrand s.composing row) 0 s.cfg.strands
    (clearDrv s.composing s)).andThen fun t => .ok (leaveSidx t)

/-- One pass of a render: `COMPOSE(ROW)`, then `SUBMIT` (R111, R115). -/
def renderRow (row : Nat) (s : State) : Res := (compose row (setRow row s)).andThen submit

/-- `n` passes from row `row` on (R111). -/
def renderRows : Nat → Nat → State → Res
  | 0, _, s => .ok (leaveRow s)
  | n + 1, row, s => (renderRow row s).andThen (renderRows n (row + 1))

/-- The body of `RENDER`: rows `0 .. maxlen - 1` (R111). -/
def render (s : State) : Res := renderRows (maxlen s.cfg) 0 s

/-- Strand `i` of a broadcast: an enabled strand takes the frame in `LF`, whatever its length (R114).
The register `SIDX` is not written: only `RENDER` and `COMPOSE` write it (10_state.md R26). DEDUCED:
entry 9. -/
def broadcastStrand (k i : Nat) (st : Strand) (s : State) : Res :=
  if s.enabled i then expand k st.pin s.lf s else .ok s

/-- The broadcast frame of an intensity: address argument 0xFF, the neutral colour (R114). -/
def broadcastFrame (c : Config) (value : Byte) : LogicalFrame :=
  frameOf bcastArg c.bcastRgb.r c.bcastRgb.g c.bcastRgb.b value

/-- The composition of `SETINT`: `GI` is written first, then one frame goes to every enabled strand of
the composing instance (R114). -/
def composeBroadcast (value : Byte) (s : State) : Res :=
  let t := clearDrv s.composing (setGi value s)
  forStrands (broadcastStrand s.composing) 0 s.cfg.strands
    (encodeFrame bcastArg s.cfg.bcastRgb.r s.cfg.bcastRgb.g s.cfg.bcastRgb.b value t)

/-- The body of `SETINT` (R114). -/
def setIntensity (value : Byte) (s : State) : Res := (composeBroadcast value s).andThen submit

/-- The composition of `SEND1`: one frame to one pin of the composing instance (R116). The pin need not
belong to any strand (R116): a recognised pin of no strand is driven, although 10_state.md R33 says that
bits no strand's pin maps to are never written; R42 (e) keeps low only what no recognised pin maps to.
The model follows R116 and R42 (e), with 95_test_vectors.md C5 ("any" configuration). DEDUCED, unsafe for claims about pins of no strand: entry 23. -/
def composeSingle (address pin r g b intensity : Byte) (s : State) : Res :=
  let t := encodeFrame address.toNat r g b intensity (clearDrv s.composing s)
  expand s.composing pin t.lf t

/-- The body of `SEND1` (R116). -/
def sendSingle (address pin r g b intensity : Byte) (s : State) : Res :=
  (composeSingle address pin r g b intensity s).andThen submit

/-! ### The meanings -/

/-- `COMPOSE(row)` (R112). -/
def execCompose (row : Nat) (s : State) : Host.Outcome State Fault Refusal :=
  outcomeOf (compose row s)

/-- `SUBMIT` (R117). -/
def execSubmit (s : State) : Host.Outcome State Fault Refusal := outcomeOf (submit s)

/-- `RENDER` (R111). -/
def execRender (s : State) : Host.Outcome State Fault Refusal := .next (runCommand render s)

/-- `SETINT(value)` (R114). -/
def execSetint (value : Byte) (s : State) : Host.Outcome State Fault Refusal :=
  .next (runCommand (setIntensity value) s)

/-- `SEND1(address, pin, r, g, b, intensity)` (R116). -/
def execSend1 (address pin r g b intensity : Byte) (s : State) :
    Host.Outcome State Fault Refusal :=
  .next (runCommand (sendSingle address pin r g b intensity) s)

end Sys2Proof.Machine
end

