-- ==== Sys2Proof/Machine/Dispatch.lean ====
section
/-! DEFINITION. One arm for each operation: the meaning it has. -/

namespace Sys2Proof.Machine

def exec (i : Instr) (s : State) : Host.Outcome State Fault Refusal :=
  match i with
  | .render => Sys2Proof.Machine.execRender s
  | .setint value => Sys2Proof.Machine.execSetint value s
  | .send1 address pin r g b intensity => Sys2Proof.Machine.execSend1 address pin r g b intensity s
  | .wrpix x y r g b => Sys2Proof.Machine.execWrpix x y r g b s
  | .wren n v => Sys2Proof.Machine.execWren n v s
  | .enc index r g b intensity => Sys2Proof.Machine.execEnc index r g b intensity s
  | .exp k pin lf => Sys2Proof.Machine.execExp k pin lf s
  | .compose row => Sys2Proof.Machine.execCompose row s
  | .wmb p mask bits => Sys2Proof.Machine.execWmb p mask bits s
  | .sliceout k t => Sys2Proof.Machine.execSliceout k t s
  | .txsync => Sys2Proof.Machine.execTxsync s
  | .handoff => Sys2Proof.Machine.execHandoff s
  | .tick => Sys2Proof.Machine.execTick s
  | .submit => Sys2Proof.Machine.execSubmit s

end Sys2Proof.Machine
end

