-- ==== Sys2Proof/Machine/Interleave.lean ====
section
/-! DEFINITION. Which agent moves next between commands, and the taking of a host command.
Spec: 43_transport_driver.md R137 (a); 42_frame_scheduler.md R120; 10_state.md R41; entries 5 to 7, 14. -/

namespace Sys2Proof.Machine

/-- The main path has nothing to do: no command is left, or it is held for ever. -/
def State.mainWaits (s : State) : Bool := s.hung || s.cmds.isEmpty

/-- The tick moves next: in `ISR` mode, while ticks are listed for this place, and, when the list is
used up, while the timer fires and the main path waits. -/
def State.tickDue (s : State) : Bool :=
  decide (s.cfg.mode = .isr) &&
    match s.sched with
    | [] => s.tickFires && s.mainWaits
    | n :: _ => decide (0 < n)

/-- One of the ticks listed for this place is used. -/
def takeTick (s : State) : State :=
  match s.sched with
  | [] => s
  | n :: rest => setSched ((n - 1) :: rest) s

/-- The main path passes the place before its next command. -/
def passPlace (s : State) : State := setSched s.sched.tail s

/-- The main path takes a command word: the decoded command runs, a reserved code is refused, before
any look at `FAULT` (R120; 30_encoding.md R79). -/
def runWord (w : CommandWord) (s : State) : Host.Outcome State Fault Refusal :=
  match decode w with
  | .command i => exec i s
  | .unknownCommand _ => .next (refuse .unknownCommand s)

/-- The main path's move: it waits, or takes its next command. -/
def mainMove (s : State) : Host.Outcome State Fault Refusal :=
  if s.hung then .next (passPlace s)
  else
    match s.cmds with
    | [] => .next (passPlace s)
    | w :: rest => runWord w (passPlace (setCmds rest s))

end Sys2Proof.Machine
end

