-- ==== Sys2Proof/Machine/Step.lean ====
section
/-! DEFINITION. One step of the block: a tick, or a move of the main path.
Spec: 00_scope.md R17, R18; 43_transport_driver.md R137. -/

namespace Sys2Proof.Machine

/-- One step: the tick where it is due, else the main path. -/
def step (s : State) : Host.Outcome State Fault Refusal :=
  if s.tickDue then exec .tick (takeTick s) else mainMove s

/-- The state whose next step takes the given table word as a host command: the word heads the command
stream, no tick falls before it, and the main path is not held (entry 14). -/
def State.withFetchWord (s : State) (nbits w : Nat) : State :=
  { s with
    cmds := BitVec.ofNat 56 (w % 2 ^ nbits) :: s.cmds
    sched := 0 :: s.sched
    hung := false }

end Sys2Proof.Machine
end

