-- ==== Sys2Proof/Machine/Actions.lean ====
section
/-! DEFINITION. The block at the level of 00_scope.md R18: a step of the main path is one atomic action,
a single read or write of one element (43_transport_driver.md R137; 20_memory.md R58), and the tick may
come before any of them. `exec` and `step` run a whole host command at once, with ticks only where R137
says they are enough; that the two levels have the same results is stated as obligations
(`StepsAreRunsOfActions`, `RunsOfActionsAreSteps`; entry 20).

An action that reads an element carries what it read in the actions it puts first, as the main path
carries it in its working values. -/

namespace Sys2Proof.Machine

/-- What the main path does next: the actions of the commands and of what they are made of. Each reads or
writes one element; the operands are what it has computed so far. -/
inductive Action where
  /-- Reads `FAULT` before a host command (42_frame_scheduler.md R120). -/
  | readFault (i : Instr)
  /-- Gives the host a refusal (60_exceptions.md R155). -/
  | refuse (why : HostRefusal)
  /-- The end of a host command: `ok`, or the fault it raised (42_frame_scheduler.md R123). -/
  | finish
  /-- Takes a configuration fault: `FAULT <- f` if it is the first, and the command ends (R150). -/
  | raise (f : FaultRecord)
  /-- Writes `ROW` for the next of `n` passes, or leaves the loop (42_frame_scheduler.md R111). -/
  | nextRow (n row : Nat)
  /-- Reads `ACT` when the composition of a row starts: `kc` (R112). -/
  | startRow (row : Nat)
  /-- Writes `SIDX` (R112). -/
  | nextStrand (k row i : Nat) (st : Strand)
  /-- Leaves the loop over the strands of a row; `SIDX` holds no meaningful value from here (entry 8). -/
  | leaveStrands
  /-- Reads `EN[s]` for a row, and checks the coordinates of a strand that takes part (R112, R113). -/
  | readEnable (k row i : Nat) (st : Strand)
  /-- Reads the mapped pixel, whole (R112; 20_memory.md R51). -/
  | readPixel (k row : Nat) (st : Strand)
  /-- Reads `GI`, and encodes (R112). -/
  | readGi (k row : Nat) (pin : Byte) (px : Pixel)
  /-- Writes `LF` (40_protocol_encoder.md R90). -/
  | writeLf (lf : LogicalFrame)
  /-- Reads `LF` for the expansion onto a pin (10_state.md R25). -/
  | readLf (k : Nat) (pin : Byte)
  /-- Reads `DRV[k][p]` for the lane to be driven (41_bit_expander.md R100). -/
  | readMask (k p bit : Nat)
  /-- Writes `DRV[k][p]`. -/
  | writeMask (k p : Nat) (word : PortWord)
  /-- Reads `BUF[k][p][t]`, the first half of the read-modify-write (20_memory.md R58). -/
  | readWord (k p bit t : Nat) (level : Level)
  /-- Writes `BUF[k][p][t]`, the second half. -/
  | writeWord (k p t : Nat) (word : PortWord)
  /-- Writes `GI` (42_frame_scheduler.md R114). -/
  | writeGi (v : Byte)
  /-- Reads `ACT` when the composition of a broadcast starts (R114). -/
  | startBroadcast (v : Byte)
  /-- Reads `EN[s]` for a broadcast (R114). -/
  | readEnableAll (k i : Nat) (st : Strand)
  /-- Reads `ACT` when the composition of a single frame starts (R116). -/
  | startSingle (address pin r g b intensity : Byte)
  /-- Writes one pixel (R118). -/
  | writePixel (x y : Nat) (px : Pixel)
  /-- Writes one enable flag (R119). -/
  | writeEnable (i : Nat) (v : Bool)
  /-- Reads `SEND` in the spin of `HANDOFF`; it is read again while it is 1 (43_transport_driver.md R136). -/
  | readSend
  /-- `ACT <- 1 - ACT` (R134). -/
  | flipAct
  /-- `SEND <- 1` (R134). -/
  | raiseSend
  /-- Reads `DRV[k][p]` for slice `t`; `SYNC` mode only, as the three that follow it (R131, R132). -/
  | readSliceMask (k t p : Nat)
  /-- Reads `BUF[k][p][t]` (R131). -/
  | readSliceWord (k t p : Nat) (mask : PortWord)
  /-- Reads the latch `PORT[p]` (R130). -/
  | readPort (p : Nat) (mask bits : PortWord)
  /-- Writes `PORT[p]`, and the event is recorded (R130). -/
  | writePort (p : Nat) (old mask bits : PortWord)
  deriving DecidableEq, Repr

/-- The block between two atomic actions: the state, and what the main path has still to do of the command
it is in; nothing, between commands. -/
structure Moment where
  state : State
  todo  : List Action
  deriving DecidableEq, Repr

/-! ### The actions of each part of a command -/

/-- The `DRV` words of instance `k` cleared, one after another (42_frame_scheduler.md R112). -/
def clearActions (c : Config) (k : Nat) : List Action :=
  (List.range c.nPorts).map fun p => .writeMask k p 0

/-- `EXP(k, pin, LF)`: the fault of an unrecognised pin, or the mask bit and the 80 words of the lane
(41_bit_expander.md R100, R103). -/
def expandActions (c : Config) (k : Nat) (pin : Byte) (lf : LogicalFrame) : List Action :=
  match pinMap c pin with
  | none => [.raise (.invalidPin pin)]
  | some (p, bit) =>
    .readMask k p bit :: (List.range frameSize).map fun t => .readWord k p bit t (lev lf t)

/-- The strands of a row from index `i` on, ascending (42_frame_scheduler.md R112). -/
def rowActions (k row : Nat) : Nat → List Strand → List Action
  | _, [] => [.leaveStrands]
  | i, st :: rest => .nextStrand k row i st :: rowActions k row (i + 1) rest

/-- The strands of a broadcast from index `i` on, ascending (R114). -/
def broadcastActions (k : Nat) : Nat → List Strand → List Action
  | _, [] => []
  | i, st :: rest => .readEnableAll k i st :: broadcastActions k (i + 1) rest

/-- `SLICEOUT(k, t)` by the main path: every port in turn (43_transport_driver.md R131). -/
def sliceActions (c : Config) (k t : Nat) : List Action :=
  (List.range c.nPorts).map fun p => .readSliceMask k t p

/-- `SUBMIT`: the 80 slices in `SYNC` mode, the spin that leads to the swap in `ISR` mode
(42_frame_scheduler.md R117; 43_transport_driver.md R132, R134). -/
def submitActions (c : Config) : List Action :=
  match c.mode with
  | .sync => (List.range frameSize).flatMap fun t => sliceActions c 0 t
  | .isr => [.readSend]

/-- The actions of each operation, a host command's from the point where `FAULT` has read 0 (R120); an
internal one's where its operands are in range and its MODE is right (`Instr.wf`). `TICK` is not the main
path's. -/
def bodyActions (c : Config) : Instr → List Action
  | .render => [.nextRow (maxlen c) 0, .finish]
  | .setint v => .writeGi v :: .startBroadcast v :: (submitActions c ++ [.finish])
  | .send1 address pin r g b intensity =>
      .startSingle address pin r g b intensity :: (submitActions c ++ [.finish])
  | .wrpix x y r g b =>
      if x.toNat < c.imgW ∧ y.toNat < c.imgH then
        [.writePixel x.toNat y.toNat { r := r, g := g, b := b }, .finish]
      else [.refuse .badOperand]
  | .wren i v =>
      if i.toNat < c.strandCount then [.writeEnable i.toNat v, .finish] else [.refuse .badOperand]
  | .enc index r g b intensity => [.writeLf (frameOf index r g b intensity)]
  | .exp k pin lf => expandActions c k pin lf
  | .compose row => [.startRow row]
  | .wmb p mask bits => [.readPort p (wordOf c.portWidth mask) (wordOf c.portWidth bits)]
  | .sliceout k t => sliceActions c k t
  | .txsync => (List.range frameSize).flatMap fun t => sliceActions c 0 t
  | .handoff => [.readSend]
  | .tick => []
  | .submit => submitActions c

/-! ### One action -/

/-- What one action does: the state after it, and the actions it puts first. -/
structure Move where
  state : State
  first : List Action

/-- The action puts nothing first. -/
def acted (s : State) : Move := { state := s, first := [] }

/-- The action puts first what follows from it. -/
def actedThen (first : List Action) (s : State) : Move := { state := s, first := first }

/-- One word of `DRV` is written. -/
def setMask (k p : Nat) (word : PortWord) (s : State) : State :=
  { s with drv := s.drv.modify k fun masks => masks.set p word }

/-- One word of `BUF` is written. -/
def setWord (k p t : Nat) (word : PortWord) (s : State) : State :=
  { s with buf := s.buf.modify k fun ports => ports.modify p fun words => words.set t word }

/-- One latch is written, and the event is recorded (43_transport_driver.md R130). -/
def setPort (p : Nat) (old mask bits : PortWord) (s : State) : State :=
  record (.wmb p mask bits) { s with port := s.port.set p (mergeMasked s.cfg.portWidth old mask bits) }

/-- One atomic action of the main path. -/
def Action.run (s : State) : Action → Move
  | .readFault i => actedThen (if s.faulted then [.refuse .faulted] else bodyActions s.cfg i) s
  | .refuse why => acted (Machine.refuse why s)
  | .finish => acted (giveAnswer (if s.fault = .none then .ok else .fault s.fault) s)
  | .raise f => acted (setFault (if s.fault = .none then f else s.fault) s)
  | .nextRow 0 _ => acted (leaveRow s)
  | .nextRow (n + 1) row =>
      actedThen (.startRow row :: (submitActions s.cfg ++ [.nextRow n (row + 1)])) (setRow row s)
  | .startRow row =>
      actedThen (clearActions s.cfg s.composing ++ rowActions s.composing row 0 s.cfg.strands) s
  | .nextStrand k row i st => actedThen [.readEnable k row i st] (setSidx i s)
  | .leaveStrands => acted (leaveSidx s)
  | .readEnable k row i st =>
      actedThen (if s.active row i st then
          if (coordOf st row).1 < s.cfg.imgW ∧ (coordOf st row).2 < s.cfg.imgH then
            [.readPixel k row st]
          else [.raise (.badCoord (strandInfo i))]
        else []) s
  | .readPixel k row st =>
      actedThen [.readGi k row st.pin (s.pixel (coordOf st row).1 (coordOf st row).2)] s
  | .readGi k row pin px => actedThen [.writeLf (frameOf row px.r px.g px.b s.gi), .readLf k pin] s
  | .writeLf lf => acted (setLf lf s)
  | .readLf k pin => actedThen (expandActions s.cfg k pin s.lf) s
  | .readMask k p bit =>
      actedThen [.writeMask k p (setLane s.cfg.portWidth bit true (s.drvWord k p))] s
  | .writeMask k p word => acted (setMask k p word s)
  | .readWord k p bit t level =>
      actedThen [.writeWord k p t (setLane s.cfg.portWidth bit level (s.bufWord k p t))] s
  | .writeWord k p t word => acted (setWord k p t word s)
  | .writeGi v => acted (setGi v s)
  | .startBroadcast v =>
      actedThen (clearActions s.cfg s.composing ++ .writeLf (broadcastFrame s.cfg v)
        :: broadcastActions s.composing 0 s.cfg.strands) s
  | .readEnableAll k i st => actedThen (if s.enabled i then [.readLf k st.pin] else []) s
  | .startSingle address pin r g b intensity =>
      actedThen (clearActions s.cfg s.composing ++
        [.writeLf (frameOf address.toNat r g b intensity), .readLf s.composing pin]) s
  | .writePixel x y px => acted (setImg (imageWrite s.img x y px) s)
  | .writeEnable i v => acted (setEn (s.en.set i v) s)
  | .readSend => actedThen (if s.send then [.readSend] else [.flipAct]) s
  | .flipAct => actedThen [.raiseSend] (setAct (1 - s.act) s)
  | .raiseSend => acted (setSend true s)
  | .readSliceMask k t p => actedThen [.readSliceWord k t p (s.drvWord k p)] s
  | .readSliceWord k t p mask => actedThen [.readPort p mask (s.bufWord k p t)] s
  | .readPort p mask bits => actedThen [.writePort p (s.portWord p) mask bits] s
  | .writePort p old mask bits => acted (setPort p old mask bits s)

/-- A configuration fault ends the operation and its host command at once: of what was still to be done
only the answer is left (60_exceptions.md R150, R155). -/
def Action.rest (todo : List Action) : Action → List Action
  | .raise _ => todo.filter fun b => b = .finish
  | _ => todo

/-! ### A step of either agent -/

/-- The main path takes its next host command, if there is one; a reserved code is refused (R120). -/
def takeCommand (s : State) : Moment :=
  match s.cmds with
  | [] => { state := s, todo := [] }
  | w :: rest =>
    { state := setCmds rest s
      todo := match decode w with
        | .command i => [.readFault i]
        | .unknownCommand _ => [.refuse .unknownCommand] }

/-- The main path takes one atomic action, or its next command (00_scope.md R18). -/
def mainAction (m : Moment) : Moment :=
  match m.todo with
  | [] => takeCommand m.state
  | a :: todo => { state := (a.run m.state).state, todo := (a.run m.state).first ++ a.rest todo }

/-- The agents (00_scope.md R17). -/
inductive Agent where
  | mainPath
  | tick
  deriving DecidableEq, Repr

/-- One step of one agent: an atomic action of the main path, or the whole body of the tick, which comes in
`ISR` mode only, at any moment (00_scope.md R17, R18; 43_transport_driver.md R137). -/
def agentStep (a : Agent) (m : Moment) : Moment :=
  match a with
  | .mainPath => mainAction m
  | .tick =>
    match m.state.cfg.mode with
    | .isr => { state := tickBody m.state, todo := m.todo }
    | .sync => m

/-- A run of the two agents in the order given: any list is an interleaving (93_implementation_defined.md
U19). -/
def agentRun (agents : List Agent) (m : Moment) : Moment :=
  agents.foldl (fun m a => agentStep a m) m

end Sys2Proof.Machine
end

