-- ==== Sys2Proof/Safety.lean ====
section
/-! DEFINITION. The terms claims use: the shape of the state, the invariants of 10_state.md R42, what a
driven lane and the wire hold, what the history says, and the end of a run. -/

namespace Sys2Proof.Machine

/-- The spaces have the sizes the configuration gives them, and their words have `W` bits
(10_state.md R20). -/
structure Shaped (s : State) : Prop where
  bufInstances : s.buf.length = s.cfg.nbuf
  bufPorts     : ∀ ports ∈ s.buf, ports.length = s.cfg.nPorts
  bufSlices    : ∀ ports ∈ s.buf, ∀ words ∈ ports, words.length = frameSize
  bufWords     : ∀ ports ∈ s.buf, ∀ words ∈ ports, ∀ w ∈ words, w < 2 ^ s.cfg.portWidth
  drvInstances : s.drv.length = s.cfg.nbuf
  drvPorts     : ∀ masks ∈ s.drv, masks.length = s.cfg.nPorts
  drvWords     : ∀ masks ∈ s.drv, ∀ w ∈ masks, w < 2 ^ s.cfg.portWidth
  portCount    : s.port.length = s.cfg.nPorts
  portWords    : ∀ w ∈ s.port, w < 2 ^ s.cfg.portWidth
  enCount      : s.en.length = s.cfg.strandCount

/-- Some pin that `PINMAP` recognises maps to `(p, b)`. -/
def Recognised (c : Config) (p b : Nat) : Prop := ∃ pin, pinMap c pin = some (p, b)

/-- The listed pixels lie in the image (10_state.md R21). -/
def ImageInBounds (s : State) : Prop :=
  ∀ cell ∈ s.img, cell.1.1 < s.cfg.imgW ∧ cell.1.2 < s.cfg.imgH

/-- The transport's part of the invariants: R42 (a) and (b), and the registers that read 0 in `SYNC`
mode (R35). -/
structure TransportInv (s : State) : Prop where
  idleCursor  : s.send = false → s.cur = 0
  cursorRange : s.cur < frameSize + s.cfg.quietTicks
  syncZero    : s.cfg.mode = .sync → s.act = 0 ∧ s.send = false ∧ s.cur = 0

/-- The invariants of 10_state.md R42, with the shape of the spaces and the canonical form of the
image, and that a main path held for ever waits for a `SEND` that no tick will clear (entry 7). -/
structure Inv (s : State) : Prop extends Shaped s, TransportInv s where
  imgCanonical   : imageWf s.img
  imgInBounds    : ImageInBounds s
  drvRecognised  : ∀ k p b, lane (s.drvWord k p) b = true → Recognised s.cfg p b
  portRecognised : ∀ p b, lane (s.portWord p) b = true → Recognised s.cfg p b
  rowRange       : s.row ≤ maxlen s.cfg
  sidxRange      : s.sidx ≤ s.cfg.strandCount
  hungWaits      : s.hung = true → s.send = true ∧ s.sched = [] ∧ s.tickFires = false

/-- Every lane in the driven-pin mask of an instance holds a Physical Frame
(41_bit_expander.md R102, R105). -/
def Framed (s : State) : Prop :=
  ∀ k p b, lane (s.drvWord k p) b = true →
    ∃ lf, ∀ t, t < frameSize → lane (s.bufWord k p t) b = lev lf t

/-- The level of pin `(p, b)` while `SEND = 1` and `CUR` slices are out: that of the last slice written
if the active instance drives the pin, low otherwise; low while idle and while armed
(10_state.md R40 (c), 43_transport_driver.md R140). -/
def wireLevel (s : State) (p b : Nat) : Level :=
  s.send && decide (0 < s.cur) && lane (s.drvWord s.act.toNat p) b
    && lane (s.bufWord s.act.toNat p (min (s.cur - 1) (frameSize - 1))) b

/-- Every latch is at the level the transport has brought it to. -/
def WireInv (s : State) : Prop := ∀ p b, lane (s.portWord p) b = wireLevel s p b

/-- What one event does to the latches (43_transport_driver.md R130). -/
def applyEvent (width : Nat) (port : List PortWord) : Event → List PortWord
  | .wmb p mask bits => port.modify p fun old => mergeMasked width old mask bits
  | .idleTick => port
  | .quietTick => port

/-- The latches a history produces from the all-low latches of reset (00_scope.md R15). -/
def replay (c : Config) (history : List Event) : List PortWord :=
  history.foldl (applyEvent c.portWidth) (List.replicate c.nPorts 0)

/-- The levels one pin is driven to in a history, in order: one for each port write whose mask has the
pin's bit (00_scope.md R15, 43_transport_driver.md R140). -/
def drivenLevels (p b : Nat) (history : List Event) : List Level :=
  history.filterMap fun e =>
    match e with
    | .wmb q mask bits => if q = p ∧ lane mask b = true then some (lane bits b) else none
    | .idleTick => none
    | .quietTick => none

/-- The events of one slice of an instance: one write a port, ascending (43_transport_driver.md R131). -/
def sliceEvents (s : State) (k t : Nat) : List Event :=
  (List.range s.cfg.nPorts).map fun p => .wmb p (s.drvWord k p) (s.bufWord k p t)

/-- The events of slices `first .. first + n - 1` of an instance, in order. -/
def slicesEvents (s : State) (k first n : Nat) : List Event :=
  (List.range n).flatMap fun i => sliceEvents s k (first + i)

/-- The state once the frame in flight, if there is one, has been clocked out
(43_transport_driver.md R135, 70_reset_and_hazards.md R184). -/
def clockedOut (s : State) : State := if s.send then ticks (ticksLeft s) s else s

/-- No hand-off of this state can wait for ever: it is in `SYNC` mode, or the tick fires infinitely
often (60_exceptions.md R165). -/
def Live (s : State) : Prop := s.cfg.mode = .sync ∨ s.tickFires = true

/-- A state in which a run is over (00_scope.md R19). -/
def State.isFinal (s : State) : Bool :=
  s.cmds.isEmpty && !s.hung && s.isIdle && !s.faulted

end Sys2Proof.Machine
end

