-- ==== Sys2Proof/Certificates/Slice0/Obligations.lean ====
section
/-! DEFINITION. The statements for the provers, each about the machine and none about a program. Every
docstring names the rule of spec/ it formalises. "Cite" in a docstring is the spec's rule; "entry" is a
row of notes/assumptions. -/

open Sys2Proof Sys2Proof.Machine

namespace Sys2Proof.Machine

/-- The machine answers this next state. -/
abbrev Gives (i : Instr) (s t : State) : Prop := exec i s = .next t

/-- The frame a strand takes in row `row` (R112): the row number as the address, its mapped pixel, the
global intensity. -/
def pixelFrame (s : State) (row : Nat) (st : Strand) : LogicalFrame :=
  let px := s.pixel (coordOf st row).1 (coordOf st row).2
  frameOf row px.r px.g px.b s.gi

/-- Strand `i` of the table is `st`, and its pin is bit `b` of port `p`. -/
def StrandAt (s : State) (i : Nat) (st : Strand) (p b : Nat) : Prop :=
  s.cfg.strands[i]? = some st ∧ pinMap s.cfg st.pin = some (p, b)

/-- No strand of the table has its pin at bit `b` of port `p`. -/
def NoStrandAt (s : State) (p b : Nat) : Prop := ∀ i st, ¬ StrandAt s i st p b

/-- The operands of an operation name bit `b` of port `p` itself, past the strand table: a `SEND1` or an
`EXP` to that pin, a `WMB` with it in its mask (R100, R116, R130). -/
def NamesPin (s : State) (i : Instr) (p b : Nat) : Prop :=
  (∃ a pin r g n v, i = .send1 a pin r g n v ∧ pinMap s.cfg pin = some (p, b)) ∨
  (∃ k pin lf, i = .exp k pin lf ∧ pinMap s.cfg pin = some (p, b)) ∨
  (∃ mask bits, i = .wmb p mask bits ∧ lane mask b = true)

/-- Strand `i` meets no configuration fault in row `row`: it takes no part, or its coordinates lie in
the image and its pin is recognised (R112, R152, R153). -/
def StrandSound (s : State) (row i : Nat) (st : Strand) : Prop :=
  s.active row i st = true →
    (coordOf st row).1 < s.cfg.imgW ∧ (coordOf st row).2 < s.cfg.imgH
      ∧ (pinMap s.cfg st.pin).isSome = true

/-- What a host command of the transmitting kind leaves alone: the configuration, the image, the
enable flags, the commands not yet taken. -/
def InputsKept (s t : State) : Prop :=
  t.cfg = s.cfg ∧ t.img = s.img ∧ t.en = s.en ∧ t.cmds = s.cmds ∧ t.tickFires = s.tickFires

/-- Rows `0 .. n - 1` have been composed and handed over, in order, from `s` to `u`: each with `ROW`
holding it, by a `COMPOSE` that met no fault and a `SUBMIT` (R111, R115). -/
def RowsHandedOver : Nat → State → State → Prop
  | 0, s, u => u = s
  | n + 1, s, u => ∃ v w, RowsHandedOver n s v ∧ Gives (.compose n) { v with row := n } w ∧
      w.fault = .none ∧ Gives .submit w u

/-- The number of one bits of a Logical Frame. -/
def onesOf (lf : LogicalFrame) : Nat := (List.range lbits).countP fun j => lf.getLsbD j

end Sys2Proof.Machine

/-! ### The command word -/

/-- The command words that 30_encoding.md R83 and 95_test_vectors.md 2.6 write out decode to their
commands; the tag 0x10 and the code 0x00 are refused (R79). -/
def Obligations.SpecWordsDecode : Prop :=
  decode 0x01000000000000 = .command .render ∧
  decode 0x02000000000042 = .command (.setint 0x42) ∧
  decode 0x030509F0801080 = .command (.send1 5 9 0xF0 0x80 0x10 0x80) ∧
  decode 0x04000100FF0000 = .command (.wrpix 0 1 0x00 0xFF 0x00) ∧
  decode 0x05010000000001 = .command (.wren 1 true) ∧
  decode 0x05000000000000 = .command (.wren 0 false) ∧
  decode 0x01AABBCCDDEEFF = .command .render ∧
  decode 0x10000000000000 = .unknownCommand 0x10 ∧
  decode 0x00000000000000 = .unknownCommand 0x00

/-- Every host command has a command word, which decodes to it, every operand at every value; the
word's operation code is the command's; an internal operation has none (R75, R77, R79). -/
def Obligations.DecodeOfEncode : Prop :=
  ∀ i : Instr,
    (i.isHost = true → ∃ w, encode i = some w ∧ decode w = .command i ∧ fieldOp w = i.tag) ∧
    (i.isHost = false → encode i = none)

/-- A field an operation does not use is ignored: two words with one operation code and the same used
fields decode to the same command (R75, R76 (e), R77). -/
def Obligations.UnusedFieldsAreIgnored : Prop :=
  ∀ w w' : CommandWord, fieldOp w' = fieldOp w →
    (fieldOp w = 0x01 → decode w' = decode w) ∧
    (fieldOp w = 0x02 → fieldI w' = fieldI w → decode w' = decode w) ∧
    (fieldOp w = 0x04 → fieldA w' = fieldA w → fieldP w' = fieldP w → fieldR w' = fieldR w →
      fieldG w' = fieldG w → fieldB w' = fieldB w → decode w' = decode w) ∧
    (fieldOp w = 0x05 → fieldA w' = fieldA w → (fieldI w').getLsbD 0 = (fieldI w).getLsbD 0 →
      decode w' = decode w)

/-- A reserved code is refused by the decoder, and by the step that takes it, whether or not a fault is
recorded: the command is used up, the host sees `UnknownCommand`, nothing else of the block changes (R79,
R120, R155). That commands are a list, and that taking one passes a place of the list of ticks, are the
model's choices (entries 14, 5). -/
def Obligations.ReservedCodesAreRefused : Prop :=
  ∀ (w : CommandWord) (s : State) (rest : List CommandWord),
    (∀ n ∈ [0x01, 0x02, 0x03, 0x04, 0x05], (fieldOp w).toNat ≠ n) →
    s.cmds = w :: rest → s.hung = false → s.tickDue = false →
    decode w = .unknownCommand (fieldOp w) ∧
    step s = .next { s with cmds := rest, sched := s.sched.tail,
                            answers := s.answers ++ [.refused .unknownCommand] }

/-- On a byte-serial carrier the byte with the operation code comes first and a command is exactly
seven bytes (R56, R82). -/
def Obligations.ByteStreamReadsOneWord : Prop :=
  (∀ (w : CommandWord) (rest : List Byte), decodeBytes (wordBytes w ++ rest) = .read (decode w) rest) ∧
  (∀ bs : List Byte, bs.length < 7 → decodeBytes bs = .incomplete)

/-! ### The step -/

/-- A step of the main path runs the command decoded from the word at the head of the command stream,
with the word used up and the place for ticks before it passed; where the tick is due, the step is the
tick, with one listed tick used up (R120, R137; entries 5, 14). -/
def Obligations.StepRunsDecodedCommand : Prop :=
  ∀ (s : State) (w : CommandWord) (rest : List CommandWord) (i : Instr),
    (s.tickDue = false → s.hung = false → s.cmds = w :: rest → decode w = .command i →
      step s = exec i { s with cmds := rest, sched := s.sched.tail }) ∧
    (s.tickDue = true → step s = exec .tick (takeTick s))

/-- No command and no tick stops the model: every step answers a next state. A command ends `ok`, with a
fault or refused (R14, R120); that a wait of the main path is a step too, with no command left or held for
ever, so that every state has a next one, is the model's choice (entries 14, 7). -/
def Obligations.StepAlwaysAnswers : Prop := ∀ s : State, ∃ t, step s = .next t

/-! ### The Protocol Encoder -/

/-- `ENC`, tagged 0x10 in a trace, writes the frame of its operands to `LF` and nothing else (R90). -/
def Obligations.EncWritesFrame : Prop :=
  ∀ (s : State) (index : Nat) (r g b intensity : Byte), ∃ lf : LogicalFrame,
    Gives (.enc index r g b intensity) s { s with lf := lf } ∧
    lf.toNat = index % 64 * 2 ^ 20 + intensity.toNat * 2 ^ 12 + b.toNat / 16 * 2 ^ 8
      + g.toNat / 16 * 2 ^ 4 + r.toNat / 16 ∧
    (Instr.enc index r g b intensity).tag = 0x10

/-- From the frame the fields are recovered at their places: the address only mod 64, the intensity
whole, the channels only to their top nibble; every one of the 2^26 frames is the frame of some
operands, and more than one index has the same frames (R95). -/
def Obligations.EncFieldsRecovered : Prop :=
  (∀ (index : Nat) (r g b v : Byte), ∃ lf : LogicalFrame,
    (∀ s, Gives (.enc index r g b v) s { s with lf := lf }) ∧
    (lf.extractLsb' 20 6).toNat = index % 64 ∧
    lf.extractLsb' 12 8 = v ∧
    (lf.extractLsb' 8 4).toNat = b.toNat / 16 ∧
    (lf.extractLsb' 4 4).toNat = g.toNat / 16 ∧
    (lf.extractLsb' 0 4).toNat = r.toNat / 16) ∧
  (∀ lf : LogicalFrame, ∃ (index : Nat) (r g b v : Byte),
    ∀ s, Gives (.enc index r g b v) s { s with lf := lf }) ∧
  (∃ m n : Nat, m ≠ n ∧ ∀ r g b v s, exec (.enc m r g b v) s = exec (.enc n r g b v) s)

/-- For every index `ENC` does what it does for the index mod 64, and nothing faults and nothing but
`LF` is written: index 64 has address 0, and 0xFF, 0x3F, 0x7F and 0xBF have address 0x3F (R91). -/
def Obligations.EncWrapsIndex : Prop :=
  ∀ (s : State) (index : Nat) (r g b v : Byte),
    exec (.enc index r g b v) s = exec (.enc (index % 64) r g b v) s ∧
    Gives (.enc index r g b v) s { s with lf := frameOf (index % 64) r g b v } ∧
    frameAddr (frameOf 64 r g b v) = 0 ∧
    ∀ k ∈ [0xFF, 0x3F, 0x7F, 0xBF], frameAddr (frameOf k r g b v) = 0x3F

/-- Two colours that differ only in the low nibbles of their channels give the same frame: red 0x0F
encodes 0, 0x10 encodes 1, 0xFF encodes 15; the intensity keeps all 8 bits (R92). -/
def Obligations.EncDropsLowNibbles : Prop :=
  ∀ (s : State) (index : Nat) (r g b r' g' b' v : Byte),
    r.toNat / 16 = r'.toNat / 16 → g.toNat / 16 = g'.toNat / 16 → b.toNat / 16 = b'.toNat / 16 →
    exec (.enc index r g b v) s = exec (.enc index r' g' b' v) s ∧
    frameRed (frameOf index 0x0F g b v) = 0 ∧ frameRed (frameOf index 0x10 g b v) = 1 ∧
    frameRed (frameOf index 0xFF g b v) = 15 ∧ frameInten (frameOf index r g b v) = v

/-! ### The Bit Expander -/

/-- The inverse of the expansion: 80 levels decode exactly when they start high, end low and every cell
has its first slice low and its third high; the frame's bits are then the complements of the second
slices; and `DEC` gives back the Logical Frame of every Physical Frame, for all 2^26 of them (R106). -/
def Obligations.DecInvertsLevels : Prop :=
  (∀ ls : List Level, ls.length = 80 →
    ((dec ls).isSome = true ↔ ls[0]? = some true ∧ ls[79]? = some false ∧
      ∀ j, j < 26 → ls[1 + 3 * j]? = some false ∧ ls[3 + 3 * j]? = some true)) ∧
  (∀ (ls : List Level) (lf : LogicalFrame), dec ls = some lf →
    ls.length = 80 ∧ ls = levels lf ∧
    ∀ j, j < 26 → ls[2 + 3 * j]? = some (!lf.getLsbD (25 - j))) ∧
  (∀ lf : LogicalFrame, dec (levels lf) = some lf)

/-- Every Physical Frame has 80 slices, starts high, ends low, and has 53 less popcount high slices; two
different Logical Frames have different Physical Frames (R102). -/
def Obligations.PhysicalFrameShape : Prop :=
  ∀ lf : LogicalFrame,
    (levels lf).length = 80 ∧ (levels lf)[0]? = some true ∧ (levels lf)[79]? = some false ∧
    (levels lf).countP (fun l => l) + onesOf lf = 53 ∧
    ∀ lf' : LogicalFrame, lf' ≠ lf → levels lf' ≠ levels lf

/-- `EXP` on a recognised pin writes the 80 levels of the frame into the pin's lane, sets the pin's
mask bit, and leaves every other lane, port, instance and register alone (R100, R101, R105). -/
def Obligations.ExpDrivesOneLane : Prop :=
  ∀ (s : State) (k : Nat) (pin : Byte) (lf : LogicalFrame) (p b : Nat),
    Shaped s → k < s.cfg.nbuf → pinMap s.cfg pin = some (p, b) →
    ∃ t, Gives (.exp k pin lf) s t ∧ t = { s with buf := t.buf, drv := t.drv } ∧
      ∀ k' p' b',
        lane (t.drvWord k' p') b'
          = (decide (k' = k ∧ p' = p ∧ b' = b) || lane (s.drvWord k' p') b') ∧
        ∀ τ, τ < 80 → lane (t.bufWord k' p' τ) b'
          = if k' = k ∧ p' = p ∧ b' = b then lev lf τ else lane (s.bufWord k' p' τ) b'

/-- The levels `EXP` writes, cell by cell: the start slice high, of the cell of element `j` (bit
`25 - j` of the frame) the first slice low, the second the complement of the bit, the third high, and
the idle slice low (R101, with the cells of 90_conflicts.md C1). -/
def Obligations.LevelsByCell : Prop :=
  ∀ lf : LogicalFrame, lev lf 0 = true ∧ lev lf 79 = false ∧
    ∀ j, j < 26 → lev lf (1 + 3 * j) = false ∧ lev lf (2 + 3 * j) = !lf.getLsbD (25 - j) ∧
      lev lf (3 + 3 * j) = true

/-- `EXP` on a pin `PINMAP` does not recognise raises `InvalidPin` and writes nothing but `FAULT`; a
fault recorded before stays (R103, R150, R152). -/
def Obligations.ExpRaisesInvalidPin : Prop :=
  ∀ (s : State) (k : Nat) (pin : Byte) (lf : LogicalFrame),
    k < s.cfg.nbuf → pinMap s.cfg pin = none →
    (s.fault = .none → Gives (.exp k pin lf) s { s with fault := .invalidPin pin }) ∧
    (s.fault ≠ .none → Gives (.exp k pin lf) s s)

/-- Expansions on two different pins may be done in either order (R104). -/
def Obligations.ExpOrderIndependent : Prop :=
  ∀ (s : State) (k : Nat) (pin₁ pin₂ : Byte) (lf₁ lf₂ : LogicalFrame) (l₁ l₂ : Nat × Nat),
    k < s.cfg.nbuf → pinMap s.cfg pin₁ = some l₁ → pinMap s.cfg pin₂ = some l₂ → l₁ ≠ l₂ →
    ∃ u v t, Gives (.exp k pin₁ lf₁) s u ∧ Gives (.exp k pin₂ lf₂) s v ∧
      Gives (.exp k pin₂ lf₂) u t ∧ Gives (.exp k pin₁ lf₁) v t

/-- Of two expansions on one pin the later wins, so the same one twice is the same as once
(R59, R104). -/
def Obligations.ExpLaterWins : Prop :=
  ∀ (s t u v : State) (k : Nat) (pin : Byte) (lf₁ lf₂ : LogicalFrame),
    Gives (.exp k pin lf₁) s t → Gives (.exp k pin lf₂) t u → Gives (.exp k pin lf₂) s v → u = v

/-! ### Composition -/

/-- `COMPOSE` always ends with a next state, and writes only `DRV` and `BUF` of the composing instance,
`LF`, `SIDX` and, on a fault, `FAULT`: in `ISR` mode the active instance is untouched (R112,
10_state.md R42 (c)). `draws` is the model's own (entry 8). -/
def Obligations.ComposeFrame : Prop :=
  ∀ (s : State) (row : Nat), ∃ t, Gives (.compose row) s t ∧
    t = { s with lf := t.lf, sidx := t.sidx, draws := t.draws, fault := t.fault,
                 buf := t.buf, drv := t.drv } ∧
    ∀ k, k ≠ s.composing → ∀ p τ,
      t.drvWord k p = s.drvWord k p ∧ t.bufWord k p τ = s.bufWord k p τ

/-- `COMPOSE(row)` under a well-formed configuration: the masks of the composing instance are exactly
the pins of the strands that take part, each of their lanes holds the Physical Frame of the row number,
the mapped pixel and the global intensity, every other lane keeps its levels, no fault is raised
(R105, R107, R112, R113). -/
def Obligations.ComposeBuildsRow : Prop :=
  ∀ (s : State) (row : Nat), Shaped s → portsWellFormed s.cfg = true → configWellFormed s.cfg = true →
    ∃ t, Gives (.compose row) s t ∧ t.fault = s.fault ∧
      ∀ p b,
        (lane (t.drvWord s.composing p) b = true ↔
          ∃ i st, StrandAt s i st p b ∧ s.active row i st = true) ∧
        (∀ i st, StrandAt s i st p b → s.active row i st = true → ∀ τ, τ < 80 →
          lane (t.bufWord s.composing p τ) b = lev (pixelFrame s row st) τ) ∧
        (lane (t.drvWord s.composing p) b = false → ∀ τ, τ < 80 →
          lane (t.bufWord s.composing p τ) b = lane (s.bufWord s.composing p τ) b)

/-- The first strand of a row that meets a configuration fault stops `COMPOSE` there: a coordinate
outside the image raises `BadCoord` with the strand's index, checked before the pin; an unrecognised
pin raises `InvalidPin` with the pin; only strands before it have been expanded (R112, R151 to R153,
R157). -/
def Obligations.ComposeStopsAtFirstFault : Prop :=
  ∀ (s : State) (row i : Nat) (st : Strand), Shaped s → s.fault = .none →
    s.cfg.strands[i]? = some st → s.active row i st = true → i < 256 →
    (∀ j st', j < i → s.cfg.strands[j]? = some st' → StrandSound s row j st') →
    ¬ StrandSound s row i st →
    ∃ t, Gives (.compose row) s t ∧ t.sidx = i ∧
      (if (coordOf st row).1 < s.cfg.imgW ∧ (coordOf st row).2 < s.cfg.imgH
        then t.fault = .invalidPin st.pin
        else t.fault = .badCoord (BitVec.ofNat 8 i)) ∧
      ∀ p b, lane (t.drvWord s.composing p) b = true ↔
        ∃ j st', j < i ∧ StrandAt s j st' p b ∧ s.active row j st' = true

/-! ### The transport -/

/-- `WMB`, tagged 0x13, gives the pins in the mask the levels in `bits` and leaves every other pin and
register; the event is recorded (R130). -/
def Obligations.WmbMergesLatch : Prop :=
  ∀ (s : State) (p mask bits : Nat), Shaped s → p < s.cfg.nPorts →
    mask < 2 ^ s.cfg.portWidth → bits < 2 ^ s.cfg.portWidth →
    (Instr.wmb p mask bits).tag = 0x13 ∧
    ∃ t, Gives (.wmb p mask bits) s t ∧
      t = { s with port := t.port, history := s.history ++ [.wmb p mask bits] } ∧
      ∀ q b, lane (t.portWord q) b
        = if q = p ∧ lane mask b = true then lane bits b else lane (s.portWord q) b

/-- Repeating a port write leaves the latches unchanged but is a second event (R59). -/
def Obligations.WmbRepeats : Prop :=
  ∀ (s t : State) (p mask bits : Nat), Gives (.wmb p mask bits) s t →
    ∃ u e, Gives (.wmb p mask bits) t u ∧ u.port = t.port ∧ t.history = s.history ++ [e] ∧
      u.history = t.history ++ [e]

/-- `SLICEOUT(k, t)`, tagged 0x14, writes every port once, in ascending order, masked by `DRV[k]`: every
driven pin takes the level of slice `t`, every other pin keeps its level (R131). -/
def Obligations.SliceoutWritesDrivenPins : Prop :=
  ∀ (s : State) (k τ : Nat), Shaped s → k < s.cfg.nbuf → τ < 80 →
    (Instr.sliceout k τ).tag = 0x14 ∧
    ∃ t, Gives (.sliceout k τ) s t ∧
      t = { s with
        port := t.port
        history := s.history ++
          (List.range s.cfg.nPorts).map fun p => .wmb p (s.drvWord k p) (s.bufWord k p τ) } ∧
      ∀ p b, lane (t.portWord p) b
        = if lane (s.drvWord k p) b = true then lane (s.bufWord k p τ) b else lane (s.portWord p) b

/-- `TXSYNC` puts out the 80 slices of the one buffer in order and writes nothing but the latches; where
the lanes it drives hold Physical Frames every driven pin ends low (R102 (b), R132). -/
def Obligations.TxsyncClocksOut : Prop :=
  ∀ s : State, Shaped s → s.cfg.mode = .sync →
    ∃ t, Gives .txsync s t ∧
      t = { s with port := t.port, history := s.history ++ slicesEvents s 0 0 80 } ∧
      (∀ p b, lane (t.portWord p) b
        = if lane (s.drvWord 0 p) b = true then lane (s.bufWord 0 p 79) b
          else lane (s.portWord p) b) ∧
      (Framed s → ∀ p b, lane (s.drvWord 0 p) b = true → lane (t.portWord p) b = false)

/-- The transitions of the interrupt-driven state machine that a tick makes (those of `HANDOFF` are
`HandoffWhenIdle` and `HandoffWaitsForFrame`): an idle tick changes nothing, a tick of a frame in flight
puts out slice `CUR` of the active instance, or nothing in the quiet ticks, and moves the cursor; the last
one clears `SEND` and resets `CUR`. Nothing else is written (R135, R138). That the history lists idle and
quiet ticks is the model's choice (entry 12). -/
def Obligations.TickTransitions : Prop :=
  ∀ s : State, Shaped s → s.cfg.mode = .isr →
    (s.send = false → Gives .tick s { s with history := s.history ++ [.idleTick] }) ∧
    (s.send = true → ∃ t, Gives .tick s t ∧
      t = { s with
        port := t.port
        history := s.history ++
          (if s.cur ≤ 79 then sliceEvents s s.act.toNat s.cur else [.quietTick])
        send := if s.cur + 1 = 80 + s.cfg.quietTicks then false else true
        cur := if s.cur + 1 = 80 + s.cfg.quietTicks then 0 else s.cur + 1 } ∧
      ∀ p b, lane (t.portWord p) b
        = if s.cur ≤ 79 ∧ lane (s.drvWord s.act.toNat p) b = true
          then lane (s.bufWord s.act.toNat p s.cur) b else lane (s.portWord p) b)

/-- Left to itself an armed block transmits its frame in exactly `80 + QUIET_TICKS` steps, each a tick:
the 80 slices of the active instance in order, then the quiet ticks, and is idle only then
(R135, R165). That the timer fires while the main path waits, and that quiet ticks are listed, are the
model's choices (entries 6, 12). -/
def Obligations.ArmedFrameTakesItsTicks : Prop :=
  ∀ s : State, s.cfg.mode = .isr → s.send = true → s.cur = 0 →
    s.sched = [] → s.tickFires = true → s.cmds = [] →
    (∀ n, n < 80 + s.cfg.quietTicks → ∃ t, Sys2Proof.core.run n s = .next t ∧ t.send = true ∧
      t.cur = n) ∧
    ∃ t, Sys2Proof.core.run (80 + s.cfg.quietTicks) s = .next t ∧ t.send = false ∧ t.cur = 0 ∧
      t.history = s.history ++ slicesEvents s s.act.toNat 0 80
        ++ List.replicate s.cfg.quietTicks .quietTick

/-- A tick reads and writes nothing of the composing instance, the image, the enable flags, the
intensity or `FAULT`: two states that agree on what it may read get the same latches, flag, cursor and
events (R135). -/
def Obligations.TickIgnoresComposingInstance : Prop :=
  ∀ s s' t t' : State, s'.cfg = s.cfg → s'.act = s.act → s'.send = s.send → s'.cur = s.cur →
    s'.port = s.port → s'.history = s.history →
    (∀ p τ, s'.drvWord s.act.toNat p = s.drvWord s.act.toNat p ∧
      s'.bufWord s.act.toNat p τ = s.bufWord s.act.toNat p τ) →
    Gives .tick s t → Gives .tick s' t' →
    t'.port = t.port ∧ t'.send = t.send ∧ t'.cur = t.cur ∧ t'.history = t.history ∧
    t'.buf = s'.buf ∧ t'.drv = s'.drv ∧ t'.img = s'.img ∧ t'.en = s'.en ∧ t'.gi = s'.gi ∧
    t'.fault = s'.fault

/-- `HANDOFF` when the transport is idle: the composed instance becomes active and the flag is raised;
ticks that fall before the read of `SEND` or between the two writes are idle and only recorded
(R134, R137; 95_test_vectors.md T2, T10). The list of ticks and their events are the model's choices
(entries 5, 12). -/
def Obligations.HandoffWhenIdle : Prop :=
  ∀ s : State, s.cfg.mode = .isr → s.send = false →
    Gives .handoff s { s with
      act := 1 - s.act, send := true, sched := s.sched.drop 2
      history := s.history
        ++ List.replicate (s.sched.headD 0 + s.sched.tail.headD 0) .idleTick }

/-- `HANDOFF` while a frame is in flight, in every interleaving in which the ticks it needs come, because
they are listed or because the timer goes on firing: it waits until that frame has been clocked out to its
end, then arms the composed instance; no slice of the frame is skipped and no other event but idle ticks
lies between (R134, R136, R139). The list of ticks, the timer that goes on firing and the events of ticks
are the model's choices (entries 5, 6, 12). -/
def Obligations.HandoffWaitsForFrame : Prop :=
  ∀ s : State, s.cfg.mode = .isr → s.send = true → s.cur < 80 + s.cfg.quietTicks →
    s.tickFires = true ∨ 80 + s.cfg.quietTicks - s.cur ≤ s.sched.sum →
    ∃ t n, Gives .handoff s t ∧
      t = { s with
        act := 1 - s.act, send := true, cur := 0, port := t.port, sched := t.sched
        history := s.history ++ slicesEvents s s.act.toNat s.cur (80 - s.cur)
          ++ List.replicate (min s.cfg.quietTicks (80 + s.cfg.quietTicks - s.cur)) .quietTick
          ++ List.replicate n .idleTick }

/-- If the ticks stop for ever before the frame in flight is out, `HANDOFF` never returns: nothing is
armed, and every later step leaves the state as it is (R136, R165; 95_test_vectors.md T11;
93_implementation_defined.md U9; entry 7). -/
def Obligations.HandoffHeldForEver : Prop :=
  ∀ s : State, s.cfg.mode = .isr → s.send = true → s.cur < 80 + s.cfg.quietTicks →
    s.tickFires = false → s.sched.sum < 80 + s.cfg.quietTicks - s.cur →
    ∃ t, Gives .handoff s t ∧ t.hung = true ∧ t.act = s.act ∧ t.send = true ∧
      t.answers = s.answers ∧ t.cur = s.cur + s.sched.sum ∧ step t = .next t

/-- `SUBMIT` hands the composed buffer over: in `SYNC` mode its 80 slices are out when it returns, in
`ISR` mode it is armed when it returns, as long as the tick goes on firing (R117, R132, R134). -/
def Obligations.SubmitHandsOver : Prop :=
  ∀ s : State, TransportInv s → Live s → ∃ t, Gives .submit s t ∧
    t = { s with port := t.port, history := t.history, act := t.act, send := t.send, cur := t.cur,
                 sched := t.sched } ∧
    (s.cfg.mode = .sync → Gives .txsync s t ∧
      t.history = s.history ++ slicesEvents s 0 0 80 ∧ t.send = s.send ∧ t.act = s.act) ∧
    (s.cfg.mode = .isr → Gives .handoff s t ∧ t.act = 1 - s.act ∧ t.send = true ∧ t.cur = 0)

/-- The source's state object: `tryBeginTransmit` on the composing instance is `HANDOFF` when idle and
does nothing otherwise; `advanceSlice` is the non-idle branch of `TICK` and answers Done exactly when
the flag is cleared (R141). -/
def Obligations.StateObjectIsTransport : Prop :=
  ∀ s : State, s.cfg.mode = .isr →
    (s.isIdle = true → s.sched = [] → ∃ t, tryBeginTransmit (1 - s.act) s = (t, true) ∧
      Gives .handoff s t) ∧
    (s.isIdle = false → ∀ k, tryBeginTransmit k s = (s, false)) ∧
    (s.isIdle = false → ∃ t done, advanceSlice s = (t, done) ∧ Gives .tick s t ∧
      (done = true ↔ t.isIdle = true))

/-- A tick commutes with a composition, whatever the row and whatever the composition meets: a tick
before it and a tick after it leave the same state (R137). -/
def Obligations.TickCommutesWithCompose : Prop :=
  ∀ (s t u : State) (row : Nat), s.cfg.mode = .isr →
    Gives (.compose row) s t → Gives .tick s u →
    ∃ v, Gives .tick t v ∧ Gives (.compose row) u v

/-! ### The host commands -/

/-- Under a well-formed configuration `RENDER` sends, in either mode and in every interleaving, to the pin of each enabled strand one
Physical Frame a row, rows ascending, each with the row number as its address, the mapped pixel and the
global intensity, and nothing to any other pin; rows beyond a strand's length send it nothing. What is
in flight when it starts, and what it leaves in flight, is clocked out in between and after
(R111 to R113, R133, R140). -/
def Obligations.RenderWaveform : Prop :=
  ∀ s : State, Inv s → Live s → portsWellFormed s.cfg = true → configWellFormed s.cfg = true →
    s.fault = .none →
    ∃ t, Gives .render s t ∧ t.answers = s.answers ++ [.ok] ∧ t.fault = .none ∧
      (∀ i st p b, StrandAt s i st p b →
        drivenLevels p b (clockedOut t).history = drivenLevels p b (clockedOut s).history ++
          if s.enabled i = true then
            (List.range st.length).flatMap fun row => levels (pixelFrame s row st)
          else []) ∧
      (∀ p b, NoStrandAt s p b →
        drivenLevels p b (clockedOut t).history = drivenLevels p b (clockedOut s).history)

/-- `SETINT` stores its operand in `GI` and sends one broadcast frame, address 0x3F and the operand as
intensity, to the pin of every enabled strand, whatever its length, and to no other pin. It is so under
every configuration in which the pins of the enabled strands are recognised (R114, R94; the other case is
`SetintInvalidPin`). -/
def Obligations.SetintBroadcasts : Prop :=
  ∀ (s : State) (value : Byte), Inv s → Live s → s.fault = .none →
    (∀ i st, s.cfg.strands[i]? = some st → s.enabled i = true →
      (pinMap s.cfg st.pin).isSome = true) →
    ∃ t lf, Gives (.setint value) s t ∧ t.gi = value ∧ t.answers = s.answers ++ [.ok] ∧
      t.fault = .none ∧ frameAddr lf = 0x3F ∧ frameInten lf = value ∧
      ∀ p b,
        ((∃ i st, StrandAt s i st p b ∧ s.enabled i = true) →
          drivenLevels p b (clockedOut t).history
            = drivenLevels p b (clockedOut s).history ++ levels lf) ∧
        ((∀ i st, StrandAt s i st p b → s.enabled i = false) →
          drivenLevels p b (clockedOut t).history = drivenLevels p b (clockedOut s).history)

/-- `SEND1` sends exactly one frame, of its operands, to the named pin and to no other, whatever the
strand table and the enable flags hold; `GI`, `ROW` and `SIDX` keep their values (R116). That the named
pin is driven also where no strand has it, as R116 says against R33's "Bits that no strand's pin maps to
are never written by this block", is the model's reading (entry 23). -/
def Obligations.SendOneDrivesOnePin : Prop :=
  ∀ (s : State) (address pin r g b v : Byte) (p n : Nat), Inv s → Live s → s.fault = .none →
    pinMap s.cfg pin = some (p, n) →
    ∃ t, Gives (.send1 address pin r g b v) s t ∧ t.answers = s.answers ++ [.ok] ∧
      t.fault = .none ∧ t.lf = frameOf address.toNat r g b v ∧ t.gi = s.gi ∧ t.row = s.row ∧
      t.sidx = s.sidx ∧
      (∀ q m, drivenLevels q m (clockedOut t).history = drivenLevels q m (clockedOut s).history ++
        if q = p ∧ m = n then levels (frameOf address.toNat r g b v) else [])

/-- `SEND1` on an unrecognised pin: the fault is recorded and answered, the masks of the composing
instance are cleared and `LF` is written, nothing is handed over (R116, R122, R152). -/
def Obligations.SendOneInvalidPin : Prop :=
  ∀ (s : State) (address pin r g b v : Byte), s.fault = .none → pinMap s.cfg pin = none →
    ∃ t, Gives (.send1 address pin r g b v) s t ∧
      t = { s with
        lf := frameOf address.toNat r g b v, drv := t.drv, fault := .invalidPin pin
        answers := s.answers ++ [.fault (.invalidPin pin)] } ∧
      ∀ k p, t.drvWord k p = if k = s.composing then 0 else s.drvWord k p

/-- `SETINT` stops at the first enabled strand whose pin is not recognised: `GI` has been written,
`InvalidPin` with that strand's pin is recorded and answered, nothing is handed over (R114, R122, R151,
R152, R157). -/
def Obligations.SetintInvalidPin : Prop :=
  ∀ (s : State) (value : Byte) (i : Nat) (st : Strand), s.fault = .none →
    s.cfg.strands[i]? = some st → s.enabled i = true → pinMap s.cfg st.pin = none →
    (∀ j st', j < i → s.cfg.strands[j]? = some st' → s.enabled j = true →
      (pinMap s.cfg st'.pin).isSome = true) →
    ∃ t, Gives (.setint value) s t ∧ t.gi = value ∧
      t.fault = .invalidPin st.pin ∧ t.answers = s.answers ++ [.fault (.invalidPin st.pin)] ∧
      t.history = s.history ∧ t.port = s.port ∧ t.act = s.act ∧ t.send = s.send ∧ t.cur = s.cur

/-- A `RENDER` whose first row meets a configuration fault transmits nothing: the fault is recorded and
answered, no event is recorded, the hand-off registers keep their values (R111, R122;
95_test_vectors.md C9, C10). -/
def Obligations.RenderFaultTransmitsNothing : Prop :=
  ∀ (s : State) (i : Nat) (st : Strand), s.fault = .none → s.cfg.strands[i]? = some st →
    s.active 0 i st = true → ¬ StrandSound s 0 i st →
    ∃ t, Gives .render s t ∧ t.fault ≠ .none ∧ t.answers = s.answers ++ [.fault t.fault] ∧
      t.history = s.history ∧ t.port = s.port ∧ t.act = s.act ∧ t.send = s.send ∧ t.cur = s.cur

/-- A row in which no strand takes part is composed and handed over all the same, in either mode: after
what was in flight the 80 slices of the composed instance go out, its masks all empty, and no pin
changes; the ticks before them are idle, those after them quiet. So with every strand disabled a `RENDER`
in `SYNC` mode makes for each of its `maxlen` rows and each of 80 slices one write of every port,
ascending, its mask empty and its bits the word `BUF` held before, and changes no pin (R110, R115). That
every row of a `RENDER` is composed and handed over so is `RenderHandsOverRowByRow`. R130 lets a model
omit such events; this one keeps them, and lists idle and quiet ticks (entries 12, 22). -/
def Obligations.EmptyRowsAreTransmitted : Prop :=
  (∀ (s : State) (row : Nat), Shaped s → TransportInv s → Live s →
    (∀ i st, s.cfg.strands[i]? = some st → s.active row i st = false) →
    ∃ u t n q, Gives (.compose row) s u ∧ u.fault = s.fault ∧
      (∀ p, u.drvWord s.composing p = 0) ∧ Gives .submit u t ∧
      (clockedOut t).history = (clockedOut s).history ++ List.replicate n .idleTick
        ++ slicesEvents u s.composing 0 80 ++ List.replicate q .quietTick ∧
      (clockedOut t).port = (clockedOut s).port ∧
      (s.cfg.mode = .sync → n = 0 ∧ q = 0) ∧
      (s.cfg.mode = .isr → q = s.cfg.quietTicks ∧ t.act = 1 - s.act ∧ t.send = true ∧ t.cur = 0)) ∧
  (∀ s : State, Shaped s → s.cfg.mode = .sync → s.fault = .none →
    (∀ i, s.enabled i = false) →
    ∃ t, Gives .render s t ∧ t.port = s.port ∧
      t.history = s.history ++ (List.range (maxlen s.cfg)).flatMap fun _ =>
        (List.range 80).flatMap fun τ =>
          (List.range s.cfg.nPorts).map fun p => .wmb p 0 (s.bufWord 0 p τ))

/-- A `RENDER` composes and hands over its rows one after another, `ROW` holding the row, each a
`COMPOSE` and a `SUBMIT`: if no row faults it does so for all `maxlen` rows and ends `ok`; if row `r` is
the first that meets a fault, the rows before it have been handed over and stay so, row `r` is composed up
to the fault and not handed over, and the fault is recorded and answered (R111, R115, R122). What `ROW`
holds after the last row is a free value, counted by the model's own `draws` (entry 8). -/
def Obligations.RenderHandsOverRowByRow : Prop :=
  ∀ (s : State) (r : Nat), TransportInv s → Live s → s.fault = .none → r ≤ maxlen s.cfg →
    (∀ row, row < r → ∀ i st, s.cfg.strands[i]? = some st → StrandSound s row i st) →
    ∃ u, RowsHandedOver r s u ∧
      (r = maxlen s.cfg → ∃ t, Gives .render s t ∧
        t = { u with row := t.row, draws := t.draws, answers := s.answers ++ [.ok] }) ∧
      (∀ i st, s.cfg.strands[i]? = some st → ¬ StrandSound s r i st →
        ∃ w t, Gives (.compose r) { u with row := r } w ∧ w.fault ≠ .none ∧ Gives .render s t ∧
          t = { w with answers := s.answers ++ [.fault w.fault] } ∧ t.history = u.history ∧
          t.port = u.port ∧ t.act = u.act ∧ t.send = u.send ∧ t.cur = u.cur)

/-- `WRPIX`, the code 0x04 with `x` in `A`, `y` in `P` and the channels in `R`, `G`, `B`, writes the one
pixel and nothing else; an index out of range changes nothing, the host sees `BadOperand` and no fault is
recorded (R118). That the image is a canonical list of its pixels, and that a write keeps it so, is the
model's form of it (entry 3). -/
def Obligations.WrpixWritesOnePixel : Prop :=
  ∀ (s : State) (x y r g b i : Byte), s.fault = .none → imageWf s.img →
    decode (packWord 0x04 x y r g b i) = .command (.wrpix x y r g b) ∧
    (x.toNat < s.cfg.imgW → y.toNat < s.cfg.imgH →
      ∃ t, Gives (.wrpix x y r g b) s t ∧
        t = { s with img := t.img, answers := s.answers ++ [.ok] } ∧ imageWf t.img ∧
        ∀ x' y', t.pixel x' y'
          = if x' = x.toNat ∧ y' = y.toNat then { r := r, g := g, b := b } else s.pixel x' y') ∧
    (s.cfg.imgW ≤ x.toNat ∨ s.cfg.imgH ≤ y.toNat →
      Gives (.wrpix x y r g b) s { s with answers := s.answers ++ [.refused .badOperand] })

/-- `WREN`, the code 0x05 with the strand in `A` and the value in bit 0 of `I`, writes the one enable
flag and nothing else; a strand out of range changes nothing, the host sees `BadOperand` and no fault is
recorded (R119). -/
def Obligations.WrenSetsOneFlag : Prop :=
  ∀ (s : State) (n p r g b i : Byte), s.fault = .none → s.en.length = s.cfg.strandCount →
    decode (packWord 0x05 n p r g b i) = .command (.wren n (i.getLsbD 0)) ∧
    ∀ v : Bool,
      (n.toNat < s.cfg.strandCount →
        ∃ t, Gives (.wren n v) s t ∧
          t = { s with en := t.en, answers := s.answers ++ [.ok] } ∧
          ∀ j, t.enabled j = if j = n.toNat then v else s.enabled j) ∧
      (s.cfg.strandCount ≤ n.toNat →
        Gives (.wren n v) s { s with answers := s.answers ++ [.refused .badOperand] })

/-- While a fault is recorded every host command is refused and changes nothing (R120, R150, R155). -/
def Obligations.FaultedRefusesCommands : Prop :=
  ∀ (s : State) (i : Instr), s.fault ≠ .none → i.isHost = true →
    Gives i s { s with answers := s.answers ++ [.refused .faulted] }

/-- What the transmitting commands leave alone, whatever they meet: the configuration, the image, the
enable flags, the commands not yet taken; `RENDER` and `SEND1` the global intensity; `SETINT` and `SEND1`
the row and strand counters, which only `RENDER` and `COMPOSE` write (R26), and all of the instance that is
not composing; each ends with a next state (R111, R114, R116). That `SETINT` leaves `SIDX` alone is the
model's reading: R114's pseudocode names its loop variable `SIDX` (entry 9). -/
def Obligations.TransmitCommandFrames : Prop :=
  ∀ s : State,
    (∃ t, Gives .render s t ∧ InputsKept s t ∧ t.gi = s.gi) ∧
    (∀ v, ∃ t, Gives (.setint v) s t ∧ InputsKept s t ∧ t.row = s.row ∧ t.sidx = s.sidx ∧
      ∀ k, k ≠ s.composing → ∀ p τ,
        t.drvWord k p = s.drvWord k p ∧ t.bufWord k p τ = s.bufWord k p τ) ∧
    (∀ a p r g b v, ∃ t, Gives (.send1 a p r g b v) s t ∧ InputsKept s t ∧ t.gi = s.gi ∧
      t.row = s.row ∧ t.sidx = s.sidx ∧
      ∀ k, k ≠ s.composing → ∀ q τ,
        t.drvWord k q = s.drvWord k q ∧ t.bufWord k q τ = s.bufWord k q τ)

/-- Lanes of the buffers that belong to no strand keep their levels, in both instances, through
`COMPOSE`, `RENDER` and `SETINT`, whatever these meet; `SEND1` writes no lane but its pin's, and that
in the composing instance only (R104, R107, R112, R114, R116). Nor, where no
mask has the bit of such a pin, does any operation drive the pin, write its latch or set its bit in a mask,
except one whose operands name the pin: this is R33's "Bits that no strand's pin maps to
are never written by this block" for everything else. That a `SEND1` may name such a pin, as R116 says
against R33, is the model's reading (entry 23). -/
def Obligations.OtherLanesKeepTheirLevels : Prop :=
  ∀ (s t : State) (i : Instr), Shaped s → Gives i s t →
    (i = .render ∨ (∃ row, i = .compose row) ∨ (∃ v, i = .setint v) →
      ∀ p b, NoStrandAt s p b → ∀ k τ, τ < 80 →
        lane (t.bufWord k p τ) b = lane (s.bufWord k p τ) b) ∧
    (∀ a pin r g n v, i = .send1 a pin r g n v → ∀ k p b,
      (k = s.composing → pinMap s.cfg pin ≠ some (p, b)) → ∀ τ, τ < 80 →
        lane (t.bufWord k p τ) b = lane (s.bufWord k p τ) b) ∧
    (∀ p b, NoStrandAt s p b → ¬ NamesPin s i p b → (∀ k, lane (s.drvWord k p) b = false) →
      (∀ k, lane (t.drvWord k p) b = false) ∧
      drivenLevels p b t.history = drivenLevels p b s.history ∧
      lane (t.portWord p) b = lane (s.portWord p) b)

/-! ### The whole machine -/

/-- What the host reads: the fields of `STATUS` and `FAULT` lie where the table puts them (R38), and
`FAULT` holds the codes of the faults and their infos: code 1 and the pin of an `InvalidPin`, code 2 and
the strand of a `BadCoord`, 0 while there is none (R151). -/
def Obligations.HostReadsRegisters : Prop :=
  ∀ s : State,
    s.status.getLsbD 0 = s.send ∧ s.status.getLsbD 1 = s.act.getLsbD 0 ∧
    s.status.getLsbD 2 = s.faulted ∧ (s.faulted = true ↔ s.fault ≠ .none) ∧
    (∀ pin, s.fault = .invalidPin pin →
      s.faultWord.extractLsb' 8 8 = 1 ∧ s.faultWord.extractLsb' 0 8 = pin) ∧
    (∀ n, s.fault = .badCoord n →
      s.faultWord.extractLsb' 8 8 = 2 ∧ s.faultWord.extractLsb' 0 8 = n) ∧
    (s.faultWord = 0 ↔ s.fault = .none)

/-- Reset leaves the values of the table: buffers, masks, latches, cursors and `FAULT` zero, every
strand enabled, `GI` at `GI_RESET`, whatever the configuration and the launch image (R41, R170). -/
def Obligations.ResetValues : Prop :=
  ∀ (c : Config) (img : List ImageCell) (s : State), s = State.launch c img →
    (∀ i, s.enabled i = decide (i < c.strandCount)) ∧ s.gi = c.giReset ∧ s.lf = 0 ∧ s.row = 0 ∧
    s.sidx = 0 ∧ (∀ k p t, s.bufWord k p t = 0) ∧ (∀ k p, s.drvWord k p = 0) ∧ s.act = 0 ∧
    s.send = false ∧ s.cur = 0 ∧ (∀ p, s.portWord p = 0) ∧ s.fault = .none ∧
    (∀ x y, s.pixel x y = imageRead img x y)

/-- With no command to take, a step from reset changes no state of the spec: in `ISR` mode the tick
"fires but does nothing", in `SYNC` mode the main path waits (R41). That such a step exists, and that it
lists an idle tick, are the model's choices (entries 6, 12, 14). -/
def Obligations.ResetWaitsForCommand : Prop :=
  ∀ (c : Config) (img : List ImageCell), ∃ new, step (State.launch c img)
    = .next { State.launch c img with history := new } ∧
    (c.mode = .sync → new = []) ∧ (c.mode = .isr → new = [.idleTick])

/-- The invariants hold after reset, whatever the configuration and the image launched with (R41, R42);
so they hold of `State.reset`, whose configuration and image are the model's choice (entries 2, 3). -/
def Obligations.InvAtReset : Prop :=
  Inv State.reset ∧
  ∀ (c : Config) (img : List ImageCell), imageWf img → ImageInBounds (State.launch c img) →
    Inv (State.launch c img) ∧ Framed (State.launch c img) ∧ WireInv (State.launch c img)

/-- Every step keeps the invariants: the shape of the spaces, an idle cursor at 0, the cursor in its
range, masks and latches high on recognised pins only, the pixels in the image (R20, R21, R42 (a), (b),
(d), (e)). The model's own are the canonical list of pixels (entry 3), `ROW` and `SIDX` within their
loops, also after them, where they hold a free value (entry 8), and that a main path held for ever waits
(entry 7). -/
def Obligations.InvKeptByStep : Prop := ∀ s t : State, Inv s → step s = .next t → Inv t

/-- Every operation keeps every driven lane a Physical Frame, even one that a fault stops halfway
(R102, R105, R107). -/
def Obligations.DrivenLanesStayFrames : Prop :=
  ∀ (i : Instr) (s t : State), Shaped s → Framed s → Gives i s t → Framed t

/-- Every step keeps each latch at the level the transport has brought it to; so between frames, while
the transport is idle, every output pin is low (R40 (c), R140). -/
def Obligations.WireFollowsTransport : Prop :=
  ∀ s t : State, Inv s → Framed s → WireInv s → step s = .next t →
    WireInv t ∧ (t.isIdle = true → ∀ p b, lane (t.portWord p) b = false)

/-- The latches are always what the event history says they are: no operation changes a pin but by a
recorded port write (R15, R33, R53). -/
def Obligations.HistoryExplainsLatches : Prop :=
  ∀ (i : Instr) (s t : State), s.port = replay s.cfg s.history → Gives i s t →
    t.port = replay t.cfg t.history

/-- No operation changes a fault once recorded, and none changes the configuration
(R20, R34, R42 (f)). -/
def Obligations.FaultIsSticky : Prop :=
  ∀ (i : Instr) (s t : State), Gives i s t →
    t.cfg = s.cfg ∧ (s.fault ≠ .none → t.fault = s.fault)

/-- Under a well-formed configuration no command but a `SEND1` to an unrecognised pin can raise a fault,
in any interleaving (R10, R152, R153). -/
def Obligations.WellFormedNeverFaults : Prop :=
  ∀ (i : Instr) (s t : State), configWellFormed s.cfg = true → s.fault = .none →
    i.isHost = true →
    (∀ a pin r g b v, i = .send1 a pin r g b v → (pinMap s.cfg pin).isSome = true) →
    Gives i s t → t.fault = .none

/-- The operations that name what does not exist, or that the other MODE has, stop the model by name
(R50, R57, R132, R134, R135; entries 16, 17). -/
def Obligations.AbsentThingsStopByName : Prop :=
  ∀ s : State,
    (∀ k pin lf, s.cfg.nbuf ≤ k → exec (.exp k pin lf) s = .fault .noSuchInstance) ∧
    (∀ k τ, s.cfg.nbuf ≤ k → exec (.sliceout k τ) s = .fault .noSuchInstance) ∧
    (∀ k τ, k < s.cfg.nbuf → 80 ≤ τ → exec (.sliceout k τ) s = .fault .noSuchSlice) ∧
    (∀ p m v, s.cfg.nPorts ≤ p → exec (.wmb p m v) s = .fault .noSuchPort) ∧
    (s.cfg.mode = .isr → exec .txsync s = .refused .wrongMode) ∧
    (s.cfg.mode = .sync → exec .handoff s = .refused .wrongMode ∧ exec .tick s = .refused .wrongMode)

/-! ### The two levels -/

/-- A step of the model is a run of the two agents, each move of the main path one atomic action and each
move of the tick its whole body: it leads from between two commands to the same state between two commands;
or, where the main path is held for ever, to the spin on a `SEND` that is 1 (R17, R18, R137). The
schedule and `hung` are the model's own and are no part of the run (entries 5, 7, 20). -/
def Obligations.StepsAreRunsOfActions : Prop :=
  ∀ s t : State, Shaped s → s.hung = false → step s = .next t →
    ∃ agents m, agentRun agents { state := s, todo := [] } = m ∧
      m.state = { t with sched := s.sched, hung := false } ∧
      (t.hung = false → m.todo = []) ∧
      (t.hung = true → t.send = true ∧ m.todo.head? = some .readSend)

/-- Every interleaving of atomic actions with ticks, wherever the ticks come, leads from between two
commands to a state between two commands that a run of the step leads to, for some list of ticks: a model
may "take ticks only" at the places R137 names, and "reaches the same set of histories" (R17, R18, R137;
entries 5, 20). -/
def Obligations.RunsOfActionsAreSteps : Prop :=
  ∀ (s t : State) (agents : List Agent), Shaped s → s.hung = false →
    agentRun agents { state := s, todo := [] } = { state := t, todo := [] } →
    ∃ n l l', Sys2Proof.core.run n { s with sched := l } = .next { t with sched := l' }
end

