-- ==== Sys2Proof/Laws/Decode.lean ====
section
/-! SUPPORT. The fields of a command word, and what the decoder can answer.
Spec: 30_encoding.md R75, R77, R79. -/

namespace Sys2Proof

/-- Every field of a packed word is the byte that was put there (R75). -/
theorem fields_packWord (op a p r g b i : Byte) :
    fieldOp (packWord op a p r g b i) = op ∧ fieldA (packWord op a p r g b i) = a ∧
    fieldP (packWord op a p r g b i) = p ∧ fieldR (packWord op a p r g b i) = r ∧
    fieldG (packWord op a p r g b i) = g ∧ fieldB (packWord op a p r g b i) = b ∧
    fieldI (packWord op a p r g b i) = i := by
  refine ⟨?_, ?_, ?_, ?_, ?_, ?_, ?_⟩ <;>
  · apply BitVec.eq_of_getLsbD_eq
    intro j hj
    simp only [fieldOp, fieldA, fieldP, fieldR, fieldG, fieldB, fieldI, packWord,
      BitVec.getLsbD_extractLsb', BitVec.getLsbD_append, hj, decide_true, Bool.true_and]
    repeat (first | rw [if_pos (by omega)] | rw [if_neg (by omega)])
    try congr 1
    try omega

theorem fieldOp_packWord (op a p r g b i : Byte) : fieldOp (packWord op a p r g b i) = op :=
  (fields_packWord op a p r g b i).1
theorem fieldA_packWord (op a p r g b i : Byte) : fieldA (packWord op a p r g b i) = a :=
  (fields_packWord op a p r g b i).2.1
theorem fieldP_packWord (op a p r g b i : Byte) : fieldP (packWord op a p r g b i) = p :=
  (fields_packWord op a p r g b i).2.2.1
theorem fieldR_packWord (op a p r g b i : Byte) : fieldR (packWord op a p r g b i) = r :=
  (fields_packWord op a p r g b i).2.2.2.1
theorem fieldG_packWord (op a p r g b i : Byte) : fieldG (packWord op a p r g b i) = g :=
  (fields_packWord op a p r g b i).2.2.2.2.1
theorem fieldB_packWord (op a p r g b i : Byte) : fieldB (packWord op a p r g b i) = b :=
  (fields_packWord op a p r g b i).2.2.2.2.2.1
theorem fieldI_packWord (op a p r g b i : Byte) : fieldI (packWord op a p r g b i) = i :=
  (fields_packWord op a p r g b i).2.2.2.2.2.2

/-- A word is its seven fields (R75). -/
theorem packWord_fields (w : CommandWord) :
    packWord (fieldOp w) (fieldA w) (fieldP w) (fieldR w) (fieldG w) (fieldB w) (fieldI w) = w := by
  apply BitVec.eq_of_getLsbD_eq
  intro j hj
  simp only [fieldOp, fieldA, fieldP, fieldR, fieldG, fieldB, fieldI, packWord,
    BitVec.getLsbD_extractLsb', BitVec.getLsbD_append]
  repeat' split
  all_goals (rw [decide_eq_true (by omega), Bool.true_and]; congr 1; omega)

/-- The decoder answers host commands only (R79). -/
theorem isHost_of_decode {w : CommandWord} {i : Instr} (h : decode w = .command i) :
    i.isHost = true := by
  unfold decode at h
  repeat' split at h
  all_goals (cases h; try rfl)

end Sys2Proof
end

