-- ==== Sys2Proof/Laws/Image.lean ====
section
/-! SUPPORT. The image buffer: a read after a write, and that a write keeps the canonical form.
Spec: 42_frame_scheduler.md R118; 10_state.md R21. -/

namespace Sys2Proof.Machine

theorem imageRead_of_forall_ne {img : List ImageCell} {x y : Nat}
    (h : ∀ cell ∈ img, cell.1 ≠ (x, y)) : imageRead img x y = blankPixel := by
  induction img with
  | nil => rfl
  | cons cell rest ih =>
    have := h cell (by simp)
    simp only [imageRead, this, if_false]
    exact ih fun c hc => h c (by simp [hc])

theorem imageRead_imageCons {x y x' y' : Nat} {px : Pixel} {rest : List ImageCell}
    (h : ∀ cell ∈ rest, cell.1 ≠ (x, y)) :
    imageRead (imageCons x y px rest) x' y'
      = if (x', y') = (x, y) then px else imageRead rest x' y' := by
  unfold imageCons
  by_cases hp : px = blankPixel
  · simp only [hp, if_true]
    split
    · next he => cases he; exact imageRead_of_forall_ne h
    · rfl
  · simp only [hp, if_false, imageRead]
    by_cases he : (x, y) = (x', y')
    · simp [he]
    · have : ¬ (x', y') = (x, y) := fun e => he e.symm
      simp [he, this]

theorem keyLt_irrefl_of_eq {a b : Nat × Nat} (h : keyLt a b) : a ≠ b := by
  rintro rfl; simp [keyLt] at h

theorem keyLt_trans {a b c : Nat × Nat} (h : keyLt a b) (h' : keyLt b c) : keyLt a c := by
  unfold keyLt at *; omega

theorem keyLt_of_not {a b : Nat × Nat} (h : ¬ keyLt a b) (hne : b ≠ a) : keyLt b a := by
  have : ¬ (b.1 = a.1 ∧ b.2 = a.2) := fun e => hne (Prod.ext e.1 e.2)
  unfold keyLt at *; omega

/-- A pixel read after a write is the pixel written at its place and the old one elsewhere (R118). -/
theorem imageRead_imageWrite {img : List ImageCell} (hwf : imageWf img) (x y x' y' : Nat)
    (px : Pixel) :
    imageRead (imageWrite img x y px) x' y'
      = if (x', y') = (x, y) then px else imageRead img x' y' := by
  induction img with
  | nil => exact imageRead_imageCons (by simp)
  | cons cell rest ih =>
    have hrest : imageWf rest := ⟨(List.pairwise_cons.1 hwf.1).2, fun c hc => hwf.2 c (by simp [hc])⟩
    have hlt := (List.pairwise_cons.1 hwf.1).1
    unfold imageWrite
    by_cases h1 : cell.1 = (x, y)
    · simp only [h1, if_true]
      rw [imageRead_imageCons fun c hc e => keyLt_irrefl_of_eq (hlt c hc) (h1.trans e.symm)]
      by_cases he : (x', y') = (x, y)
      · simp [he]
      · have : ¬ (x, y) = (x', y') := fun e => he e.symm
        simp [he, imageRead, h1, this]
    · simp only [h1, if_false]
      by_cases h2 : keyLt (x, y) cell.1
      · simp only [h2, if_true]
        apply imageRead_imageCons
        intro c hc e
        rcases List.mem_cons.1 hc with rfl | hc
        · exact h1 e
        · exact keyLt_irrefl_of_eq (keyLt_trans h2 (hlt c hc)) e.symm
      · simp only [h2, if_false, imageRead]
        rw [ih hrest]
        by_cases he : cell.1 = (x', y')
        · have : ¬ (x', y') = (x, y) := fun e => h1 (he.trans e)
          simp [he, this]
        · simp [he]

/-- Every listed cell after a write is the new one or an old one. -/
theorem mem_imageWrite {img : List ImageCell} {x y : Nat} {px : Pixel} {c : ImageCell}
    (h : c ∈ imageWrite img x y px) : c = ((x, y), px) ∨ c ∈ img := by
  have hcons : ∀ rest : List ImageCell, c ∈ imageCons x y px rest → c = ((x, y), px) ∨ c ∈ rest := by
    intro rest hc
    unfold imageCons at hc
    split at hc
    · exact .inr hc
    · exact List.mem_cons.1 hc
  induction img with
  | nil => exact hcons _ h
  | cons cell rest ih =>
    unfold imageWrite at h
    split at h
    · rcases hcons _ h with h | h
      · exact .inl h
      · exact .inr (by simp [h])
    · split at h
      · exact hcons _ h
      · rcases List.mem_cons.1 h with rfl | h
        · exact .inr (by simp)
        · rcases ih h with h | h
          · exact .inl h
          · exact .inr (by simp [h])

theorem imageCons_wf {x y : Nat} {px : Pixel} {rest : List ImageCell} (h : imageWf rest)
    (hlt : ∀ c ∈ rest, keyLt (x, y) c.1) : imageWf (imageCons x y px rest) := by
  unfold imageCons
  split
  · exact h
  · next hp =>
    refine ⟨List.pairwise_cons.2 ⟨hlt, h.1⟩, fun c hc => ?_⟩
    rcases List.mem_cons.1 hc with rfl | hc
    · exact hp
    · exact h.2 c hc

/-- A write keeps the canonical form of the image. -/
theorem imageWrite_wf {img : List ImageCell} (hwf : imageWf img) (x y : Nat) (px : Pixel) :
    imageWf (imageWrite img x y px) := by
  induction img with
  | nil => exact imageCons_wf hwf (by simp)
  | cons cell rest ih =>
    have hrest : imageWf rest := ⟨(List.pairwise_cons.1 hwf.1).2, fun c hc => hwf.2 c (by simp [hc])⟩
    have hlt := (List.pairwise_cons.1 hwf.1).1
    unfold imageWrite
    split
    · next h1 => exact imageCons_wf hrest fun c hc => h1 ▸ hlt c hc
    · next h1 =>
      split
      · next h2 =>
        refine imageCons_wf hwf fun c hc => ?_
        rcases List.mem_cons.1 hc with rfl | hc
        · exact h2
        · exact keyLt_trans h2 (hlt c hc)
      · next h2 =>
        have ih := ih hrest
        refine ⟨List.pairwise_cons.2 ⟨fun c hc => ?_, ih.1⟩, fun c hc => ?_⟩
        · rcases mem_imageWrite hc with rfl | hc
          · exact keyLt_of_not h2 h1
          · exact hlt c hc
        · rcases List.mem_cons.1 hc with rfl | hc
          · exact hwf.2 _ (by simp)
          · exact ih.2 c hc

end Sys2Proof.Machine
end

