-- ==== Sys2Proof/Laws/State.lean ====
section
/-! SUPPORT. One lemma for each field of State and each named update: what the field is after it. -/

namespace Sys2Proof.Machine

variable (s : State)

/-! ### After `setGi` -/

@[simp] theorem setGi_cfg (v : Byte) : (setGi v s).cfg = s.cfg := rfl
@[simp] theorem setGi_img (v : Byte) : (setGi v s).img = s.img := rfl
@[simp] theorem setGi_en (v : Byte) : (setGi v s).en = s.en := rfl
@[simp] theorem setGi_gi (v : Byte) : (setGi v s).gi = v := rfl
@[simp] theorem setGi_lf (v : Byte) : (setGi v s).lf = s.lf := rfl
@[simp] theorem setGi_row (v : Byte) : (setGi v s).row = s.row := rfl
@[simp] theorem setGi_sidx (v : Byte) : (setGi v s).sidx = s.sidx := rfl
@[simp] theorem setGi_buf (v : Byte) : (setGi v s).buf = s.buf := rfl
@[simp] theorem setGi_drv (v : Byte) : (setGi v s).drv = s.drv := rfl
@[simp] theorem setGi_act (v : Byte) : (setGi v s).act = s.act := rfl
@[simp] theorem setGi_send (v : Byte) : (setGi v s).send = s.send := rfl
@[simp] theorem setGi_cur (v : Byte) : (setGi v s).cur = s.cur := rfl
@[simp] theorem setGi_port (v : Byte) : (setGi v s).port = s.port := rfl
@[simp] theorem setGi_fault (v : Byte) : (setGi v s).fault = s.fault := rfl
@[simp] theorem setGi_cmds (v : Byte) : (setGi v s).cmds = s.cmds := rfl
@[simp] theorem setGi_answers (v : Byte) : (setGi v s).answers = s.answers := rfl
@[simp] theorem setGi_history (v : Byte) : (setGi v s).history = s.history := rfl
@[simp] theorem setGi_sched (v : Byte) : (setGi v s).sched = s.sched := rfl
@[simp] theorem setGi_tickFires (v : Byte) : (setGi v s).tickFires = s.tickFires := rfl
@[simp] theorem setGi_hung (v : Byte) : (setGi v s).hung = s.hung := rfl
@[simp] theorem setGi_draws (v : Byte) : (setGi v s).draws = s.draws := rfl

/-! ### After `setEn` -/

@[simp] theorem setEn_cfg (v : List Bool) : (setEn v s).cfg = s.cfg := rfl
@[simp] theorem setEn_img (v : List Bool) : (setEn v s).img = s.img := rfl
@[simp] theorem setEn_en (v : List Bool) : (setEn v s).en = v := rfl
@[simp] theorem setEn_gi (v : List Bool) : (setEn v s).gi = s.gi := rfl
@[simp] theorem setEn_lf (v : List Bool) : (setEn v s).lf = s.lf := rfl
@[simp] theorem setEn_row (v : List Bool) : (setEn v s).row = s.row := rfl
@[simp] theorem setEn_sidx (v : List Bool) : (setEn v s).sidx = s.sidx := rfl
@[simp] theorem setEn_buf (v : List Bool) : (setEn v s).buf = s.buf := rfl
@[simp] theorem setEn_drv (v : List Bool) : (setEn v s).drv = s.drv := rfl
@[simp] theorem setEn_act (v : List Bool) : (setEn v s).act = s.act := rfl
@[simp] theorem setEn_send (v : List Bool) : (setEn v s).send = s.send := rfl
@[simp] theorem setEn_cur (v : List Bool) : (setEn v s).cur = s.cur := rfl
@[simp] theorem setEn_port (v : List Bool) : (setEn v s).port = s.port := rfl
@[simp] theorem setEn_fault (v : List Bool) : (setEn v s).fault = s.fault := rfl
@[simp] theorem setEn_cmds (v : List Bool) : (setEn v s).cmds = s.cmds := rfl
@[simp] theorem setEn_answers (v : List Bool) : (setEn v s).answers = s.answers := rfl
@[simp] theorem setEn_history (v : List Bool) : (setEn v s).history = s.history := rfl
@[simp] theorem setEn_sched (v : List Bool) : (setEn v s).sched = s.sched := rfl
@[simp] theorem setEn_tickFires (v : List Bool) : (setEn v s).tickFires = s.tickFires := rfl
@[simp] theorem setEn_hung (v : List Bool) : (setEn v s).hung = s.hung := rfl
@[simp] theorem setEn_draws (v : List Bool) : (setEn v s).draws = s.draws := rfl

/-! ### After `setImg` -/

@[simp] theorem setImg_cfg (v : List ImageCell) : (setImg v s).cfg = s.cfg := rfl
@[simp] theorem setImg_img (v : List ImageCell) : (setImg v s).img = v := rfl
@[simp] theorem setImg_en (v : List ImageCell) : (setImg v s).en = s.en := rfl
@[simp] theorem setImg_gi (v : List ImageCell) : (setImg v s).gi = s.gi := rfl
@[simp] theorem setImg_lf (v : List ImageCell) : (setImg v s).lf = s.lf := rfl
@[simp] theorem setImg_row (v : List ImageCell) : (setImg v s).row = s.row := rfl
@[simp] theorem setImg_sidx (v : List ImageCell) : (setImg v s).sidx = s.sidx := rfl
@[simp] theorem setImg_buf (v : List ImageCell) : (setImg v s).buf = s.buf := rfl
@[simp] theorem setImg_drv (v : List ImageCell) : (setImg v s).drv = s.drv := rfl
@[simp] theorem setImg_act (v : List ImageCell) : (setImg v s).act = s.act := rfl
@[simp] theorem setImg_send (v : List ImageCell) : (setImg v s).send = s.send := rfl
@[simp] theorem setImg_cur (v : List ImageCell) : (setImg v s).cur = s.cur := rfl
@[simp] theorem setImg_port (v : List ImageCell) : (setImg v s).port = s.port := rfl
@[simp] theorem setImg_fault (v : List ImageCell) : (setImg v s).fault = s.fault := rfl
@[simp] theorem setImg_cmds (v : List ImageCell) : (setImg v s).cmds = s.cmds := rfl
@[simp] theorem setImg_answers (v : List ImageCell) : (setImg v s).answers = s.answers := rfl
@[simp] theorem setImg_history (v : List ImageCell) : (setImg v s).history = s.history := rfl
@[simp] theorem setImg_sched (v : List ImageCell) : (setImg v s).sched = s.sched := rfl
@[simp] theorem setImg_tickFires (v : List ImageCell) : (setImg v s).tickFires = s.tickFires := rfl
@[simp] theorem setImg_hung (v : List ImageCell) : (setImg v s).hung = s.hung := rfl
@[simp] theorem setImg_draws (v : List ImageCell) : (setImg v s).draws = s.draws := rfl

/-! ### After `setLf` -/

@[simp] theorem setLf_cfg (v : LogicalFrame) : (setLf v s).cfg = s.cfg := rfl
@[simp] theorem setLf_img (v : LogicalFrame) : (setLf v s).img = s.img := rfl
@[simp] theorem setLf_en (v : LogicalFrame) : (setLf v s).en = s.en := rfl
@[simp] theorem setLf_gi (v : LogicalFrame) : (setLf v s).gi = s.gi := rfl
@[simp] theorem setLf_lf (v : LogicalFrame) : (setLf v s).lf = v := rfl
@[simp] theorem setLf_row (v : LogicalFrame) : (setLf v s).row = s.row := rfl
@[simp] theorem setLf_sidx (v : LogicalFrame) : (setLf v s).sidx = s.sidx := rfl
@[simp] theorem setLf_buf (v : LogicalFrame) : (setLf v s).buf = s.buf := rfl
@[simp] theorem setLf_drv (v : LogicalFrame) : (setLf v s).drv = s.drv := rfl
@[simp] theorem setLf_act (v : LogicalFrame) : (setLf v s).act = s.act := rfl
@[simp] theorem setLf_send (v : LogicalFrame) : (setLf v s).send = s.send := rfl
@[simp] theorem setLf_cur (v : LogicalFrame) : (setLf v s).cur = s.cur := rfl
@[simp] theorem setLf_port (v : LogicalFrame) : (setLf v s).port = s.port := rfl
@[simp] theorem setLf_fault (v : LogicalFrame) : (setLf v s).fault = s.fault := rfl
@[simp] theorem setLf_cmds (v : LogicalFrame) : (setLf v s).cmds = s.cmds := rfl
@[simp] theorem setLf_answers (v : LogicalFrame) : (setLf v s).answers = s.answers := rfl
@[simp] theorem setLf_history (v : LogicalFrame) : (setLf v s).history = s.history := rfl
@[simp] theorem setLf_sched (v : LogicalFrame) : (setLf v s).sched = s.sched := rfl
@[simp] theorem setLf_tickFires (v : LogicalFrame) : (setLf v s).tickFires = s.tickFires := rfl
@[simp] theorem setLf_hung (v : LogicalFrame) : (setLf v s).hung = s.hung := rfl
@[simp] theorem setLf_draws (v : LogicalFrame) : (setLf v s).draws = s.draws := rfl

/-! ### After `setRow` -/

@[simp] theorem setRow_cfg (v : Nat) : (setRow v s).cfg = s.cfg := rfl
@[simp] theorem setRow_img (v : Nat) : (setRow v s).img = s.img := rfl
@[simp] theorem setRow_en (v : Nat) : (setRow v s).en = s.en := rfl
@[simp] theorem setRow_gi (v : Nat) : (setRow v s).gi = s.gi := rfl
@[simp] theorem setRow_lf (v : Nat) : (setRow v s).lf = s.lf := rfl
@[simp] theorem setRow_row (v : Nat) : (setRow v s).row = v := rfl
@[simp] theorem setRow_sidx (v : Nat) : (setRow v s).sidx = s.sidx := rfl
@[simp] theorem setRow_buf (v : Nat) : (setRow v s).buf = s.buf := rfl
@[simp] theorem setRow_drv (v : Nat) : (setRow v s).drv = s.drv := rfl
@[simp] theorem setRow_act (v : Nat) : (setRow v s).act = s.act := rfl
@[simp] theorem setRow_send (v : Nat) : (setRow v s).send = s.send := rfl
@[simp] theorem setRow_cur (v : Nat) : (setRow v s).cur = s.cur := rfl
@[simp] theorem setRow_port (v : Nat) : (setRow v s).port = s.port := rfl
@[simp] theorem setRow_fault (v : Nat) : (setRow v s).fault = s.fault := rfl
@[simp] theorem setRow_cmds (v : Nat) : (setRow v s).cmds = s.cmds := rfl
@[simp] theorem setRow_answers (v : Nat) : (setRow v s).answers = s.answers := rfl
@[simp] theorem setRow_history (v : Nat) : (setRow v s).history = s.history := rfl
@[simp] theorem setRow_sched (v : Nat) : (setRow v s).sched = s.sched := rfl
@[simp] theorem setRow_tickFires (v : Nat) : (setRow v s).tickFires = s.tickFires := rfl
@[simp] theorem setRow_hung (v : Nat) : (setRow v s).hung = s.hung := rfl
@[simp] theorem setRow_draws (v : Nat) : (setRow v s).draws = s.draws := rfl

/-! ### After `setSidx` -/

@[simp] theorem setSidx_cfg (v : Nat) : (setSidx v s).cfg = s.cfg := rfl
@[simp] theorem setSidx_img (v : Nat) : (setSidx v s).img = s.img := rfl
@[simp] theorem setSidx_en (v : Nat) : (setSidx v s).en = s.en := rfl
@[simp] theorem setSidx_gi (v : Nat) : (setSidx v s).gi = s.gi := rfl
@[simp] theorem setSidx_lf (v : Nat) : (setSidx v s).lf = s.lf := rfl
@[simp] theorem setSidx_row (v : Nat) : (setSidx v s).row = s.row := rfl
@[simp] theorem setSidx_sidx (v : Nat) : (setSidx v s).sidx = v := rfl
@[simp] theorem setSidx_buf (v : Nat) : (setSidx v s).buf = s.buf := rfl
@[simp] theorem setSidx_drv (v : Nat) : (setSidx v s).drv = s.drv := rfl
@[simp] theorem setSidx_act (v : Nat) : (setSidx v s).act = s.act := rfl
@[simp] theorem setSidx_send (v : Nat) : (setSidx v s).send = s.send := rfl
@[simp] theorem setSidx_cur (v : Nat) : (setSidx v s).cur = s.cur := rfl
@[simp] theorem setSidx_port (v : Nat) : (setSidx v s).port = s.port := rfl
@[simp] theorem setSidx_fault (v : Nat) : (setSidx v s).fault = s.fault := rfl
@[simp] theorem setSidx_cmds (v : Nat) : (setSidx v s).cmds = s.cmds := rfl
@[simp] theorem setSidx_answers (v : Nat) : (setSidx v s).answers = s.answers := rfl
@[simp] theorem setSidx_history (v : Nat) : (setSidx v s).history = s.history := rfl
@[simp] theorem setSidx_sched (v : Nat) : (setSidx v s).sched = s.sched := rfl
@[simp] theorem setSidx_tickFires (v : Nat) : (setSidx v s).tickFires = s.tickFires := rfl
@[simp] theorem setSidx_hung (v : Nat) : (setSidx v s).hung = s.hung := rfl
@[simp] theorem setSidx_draws (v : Nat) : (setSidx v s).draws = s.draws := rfl

/-! ### After `setAct` -/

@[simp] theorem setAct_cfg (v : BitVec 1) : (setAct v s).cfg = s.cfg := rfl
@[simp] theorem setAct_img (v : BitVec 1) : (setAct v s).img = s.img := rfl
@[simp] theorem setAct_en (v : BitVec 1) : (setAct v s).en = s.en := rfl
@[simp] theorem setAct_gi (v : BitVec 1) : (setAct v s).gi = s.gi := rfl
@[simp] theorem setAct_lf (v : BitVec 1) : (setAct v s).lf = s.lf := rfl
@[simp] theorem setAct_row (v : BitVec 1) : (setAct v s).row = s.row := rfl
@[simp] theorem setAct_sidx (v : BitVec 1) : (setAct v s).sidx = s.sidx := rfl
@[simp] theorem setAct_buf (v : BitVec 1) : (setAct v s).buf = s.buf := rfl
@[simp] theorem setAct_drv (v : BitVec 1) : (setAct v s).drv = s.drv := rfl
@[simp] theorem setAct_act (v : BitVec 1) : (setAct v s).act = v := rfl
@[simp] theorem setAct_send (v : BitVec 1) : (setAct v s).send = s.send := rfl
@[simp] theorem setAct_cur (v : BitVec 1) : (setAct v s).cur = s.cur := rfl
@[simp] theorem setAct_port (v : BitVec 1) : (setAct v s).port = s.port := rfl
@[simp] theorem setAct_fault (v : BitVec 1) : (setAct v s).fault = s.fault := rfl
@[simp] theorem setAct_cmds (v : BitVec 1) : (setAct v s).cmds = s.cmds := rfl
@[simp] theorem setAct_answers (v : BitVec 1) : (setAct v s).answers = s.answers := rfl
@[simp] theorem setAct_history (v : BitVec 1) : (setAct v s).history = s.history := rfl
@[simp] theorem setAct_sched (v : BitVec 1) : (setAct v s).sched = s.sched := rfl
@[simp] theorem setAct_tickFires (v : BitVec 1) : (setAct v s).tickFires = s.tickFires := rfl
@[simp] theorem setAct_hung (v : BitVec 1) : (setAct v s).hung = s.hung := rfl
@[simp] theorem setAct_draws (v : BitVec 1) : (setAct v s).draws = s.draws := rfl

/-! ### After `setSend` -/

@[simp] theorem setSend_cfg (v : Bool) : (setSend v s).cfg = s.cfg := rfl
@[simp] theorem setSend_img (v : Bool) : (setSend v s).img = s.img := rfl
@[simp] theorem setSend_en (v : Bool) : (setSend v s).en = s.en := rfl
@[simp] theorem setSend_gi (v : Bool) : (setSend v s).gi = s.gi := rfl
@[simp] theorem setSend_lf (v : Bool) : (setSend v s).lf = s.lf := rfl
@[simp] theorem setSend_row (v : Bool) : (setSend v s).row = s.row := rfl
@[simp] theorem setSend_sidx (v : Bool) : (setSend v s).sidx = s.sidx := rfl
@[simp] theorem setSend_buf (v : Bool) : (setSend v s).buf = s.buf := rfl
@[simp] theorem setSend_drv (v : Bool) : (setSend v s).drv = s.drv := rfl
@[simp] theorem setSend_act (v : Bool) : (setSend v s).act = s.act := rfl
@[simp] theorem setSend_send (v : Bool) : (setSend v s).send = v := rfl
@[simp] theorem setSend_cur (v : Bool) : (setSend v s).cur = s.cur := rfl
@[simp] theorem setSend_port (v : Bool) : (setSend v s).port = s.port := rfl
@[simp] theorem setSend_fault (v : Bool) : (setSend v s).fault = s.fault := rfl
@[simp] theorem setSend_cmds (v : Bool) : (setSend v s).cmds = s.cmds := rfl
@[simp] theorem setSend_answers (v : Bool) : (setSend v s).answers = s.answers := rfl
@[simp] theorem setSend_history (v : Bool) : (setSend v s).history = s.history := rfl
@[simp] theorem setSend_sched (v : Bool) : (setSend v s).sched = s.sched := rfl
@[simp] theorem setSend_tickFires (v : Bool) : (setSend v s).tickFires = s.tickFires := rfl
@[simp] theorem setSend_hung (v : Bool) : (setSend v s).hung = s.hung := rfl
@[simp] theorem setSend_draws (v : Bool) : (setSend v s).draws = s.draws := rfl

/-! ### After `setCur` -/

@[simp] theorem setCur_cfg (v : Nat) : (setCur v s).cfg = s.cfg := rfl
@[simp] theorem setCur_img (v : Nat) : (setCur v s).img = s.img := rfl
@[simp] theorem setCur_en (v : Nat) : (setCur v s).en = s.en := rfl
@[simp] theorem setCur_gi (v : Nat) : (setCur v s).gi = s.gi := rfl
@[simp] theorem setCur_lf (v : Nat) : (setCur v s).lf = s.lf := rfl
@[simp] theorem setCur_row (v : Nat) : (setCur v s).row = s.row := rfl
@[simp] theorem setCur_sidx (v : Nat) : (setCur v s).sidx = s.sidx := rfl
@[simp] theorem setCur_buf (v : Nat) : (setCur v s).buf = s.buf := rfl
@[simp] theorem setCur_drv (v : Nat) : (setCur v s).drv = s.drv := rfl
@[simp] theorem setCur_act (v : Nat) : (setCur v s).act = s.act := rfl
@[simp] theorem setCur_send (v : Nat) : (setCur v s).send = s.send := rfl
@[simp] theorem setCur_cur (v : Nat) : (setCur v s).cur = v := rfl
@[simp] theorem setCur_port (v : Nat) : (setCur v s).port = s.port := rfl
@[simp] theorem setCur_fault (v : Nat) : (setCur v s).fault = s.fault := rfl
@[simp] theorem setCur_cmds (v : Nat) : (setCur v s).cmds = s.cmds := rfl
@[simp] theorem setCur_answers (v : Nat) : (setCur v s).answers = s.answers := rfl
@[simp] theorem setCur_history (v : Nat) : (setCur v s).history = s.history := rfl
@[simp] theorem setCur_sched (v : Nat) : (setCur v s).sched = s.sched := rfl
@[simp] theorem setCur_tickFires (v : Nat) : (setCur v s).tickFires = s.tickFires := rfl
@[simp] theorem setCur_hung (v : Nat) : (setCur v s).hung = s.hung := rfl
@[simp] theorem setCur_draws (v : Nat) : (setCur v s).draws = s.draws := rfl

/-! ### After `setFault` -/

@[simp] theorem setFault_cfg (v : FaultRecord) : (setFault v s).cfg = s.cfg := rfl
@[simp] theorem setFault_img (v : FaultRecord) : (setFault v s).img = s.img := rfl
@[simp] theorem setFault_en (v : FaultRecord) : (setFault v s).en = s.en := rfl
@[simp] theorem setFault_gi (v : FaultRecord) : (setFault v s).gi = s.gi := rfl
@[simp] theorem setFault_lf (v : FaultRecord) : (setFault v s).lf = s.lf := rfl
@[simp] theorem setFault_row (v : FaultRecord) : (setFault v s).row = s.row := rfl
@[simp] theorem setFault_sidx (v : FaultRecord) : (setFault v s).sidx = s.sidx := rfl
@[simp] theorem setFault_buf (v : FaultRecord) : (setFault v s).buf = s.buf := rfl
@[simp] theorem setFault_drv (v : FaultRecord) : (setFault v s).drv = s.drv := rfl
@[simp] theorem setFault_act (v : FaultRecord) : (setFault v s).act = s.act := rfl
@[simp] theorem setFault_send (v : FaultRecord) : (setFault v s).send = s.send := rfl
@[simp] theorem setFault_cur (v : FaultRecord) : (setFault v s).cur = s.cur := rfl
@[simp] theorem setFault_port (v : FaultRecord) : (setFault v s).port = s.port := rfl
@[simp] theorem setFault_fault (v : FaultRecord) : (setFault v s).fault = v := rfl
@[simp] theorem setFault_cmds (v : FaultRecord) : (setFault v s).cmds = s.cmds := rfl
@[simp] theorem setFault_answers (v : FaultRecord) : (setFault v s).answers = s.answers := rfl
@[simp] theorem setFault_history (v : FaultRecord) : (setFault v s).history = s.history := rfl
@[simp] theorem setFault_sched (v : FaultRecord) : (setFault v s).sched = s.sched := rfl
@[simp] theorem setFault_tickFires (v : FaultRecord) : (setFault v s).tickFires = s.tickFires := rfl
@[simp] theorem setFault_hung (v : FaultRecord) : (setFault v s).hung = s.hung := rfl
@[simp] theorem setFault_draws (v : FaultRecord) : (setFault v s).draws = s.draws := rfl

/-! ### After `setSched` -/

@[simp] theorem setSched_cfg (v : List Nat) : (setSched v s).cfg = s.cfg := rfl
@[simp] theorem setSched_img (v : List Nat) : (setSched v s).img = s.img := rfl
@[simp] theorem setSched_en (v : List Nat) : (setSched v s).en = s.en := rfl
@[simp] theorem setSched_gi (v : List Nat) : (setSched v s).gi = s.gi := rfl
@[simp] theorem setSched_lf (v : List Nat) : (setSched v s).lf = s.lf := rfl
@[simp] theorem setSched_row (v : List Nat) : (setSched v s).row = s.row := rfl
@[simp] theorem setSched_sidx (v : List Nat) : (setSched v s).sidx = s.sidx := rfl
@[simp] theorem setSched_buf (v : List Nat) : (setSched v s).buf = s.buf := rfl
@[simp] theorem setSched_drv (v : List Nat) : (setSched v s).drv = s.drv := rfl
@[simp] theorem setSched_act (v : List Nat) : (setSched v s).act = s.act := rfl
@[simp] theorem setSched_send (v : List Nat) : (setSched v s).send = s.send := rfl
@[simp] theorem setSched_cur (v : List Nat) : (setSched v s).cur = s.cur := rfl
@[simp] theorem setSched_port (v : List Nat) : (setSched v s).port = s.port := rfl
@[simp] theorem setSched_fault (v : List Nat) : (setSched v s).fault = s.fault := rfl
@[simp] theorem setSched_cmds (v : List Nat) : (setSched v s).cmds = s.cmds := rfl
@[simp] theorem setSched_answers (v : List Nat) : (setSched v s).answers = s.answers := rfl
@[simp] theorem setSched_history (v : List Nat) : (setSched v s).history = s.history := rfl
@[simp] theorem setSched_sched (v : List Nat) : (setSched v s).sched = v := rfl
@[simp] theorem setSched_tickFires (v : List Nat) : (setSched v s).tickFires = s.tickFires := rfl
@[simp] theorem setSched_hung (v : List Nat) : (setSched v s).hung = s.hung := rfl
@[simp] theorem setSched_draws (v : List Nat) : (setSched v s).draws = s.draws := rfl

/-! ### After `setHung` -/

@[simp] theorem setHung_cfg (v : Bool) : (setHung v s).cfg = s.cfg := rfl
@[simp] theorem setHung_img (v : Bool) : (setHung v s).img = s.img := rfl
@[simp] theorem setHung_en (v : Bool) : (setHung v s).en = s.en := rfl
@[simp] theorem setHung_gi (v : Bool) : (setHung v s).gi = s.gi := rfl
@[simp] theorem setHung_lf (v : Bool) : (setHung v s).lf = s.lf := rfl
@[simp] theorem setHung_row (v : Bool) : (setHung v s).row = s.row := rfl
@[simp] theorem setHung_sidx (v : Bool) : (setHung v s).sidx = s.sidx := rfl
@[simp] theorem setHung_buf (v : Bool) : (setHung v s).buf = s.buf := rfl
@[simp] theorem setHung_drv (v : Bool) : (setHung v s).drv = s.drv := rfl
@[simp] theorem setHung_act (v : Bool) : (setHung v s).act = s.act := rfl
@[simp] theorem setHung_send (v : Bool) : (setHung v s).send = s.send := rfl
@[simp] theorem setHung_cur (v : Bool) : (setHung v s).cur = s.cur := rfl
@[simp] theorem setHung_port (v : Bool) : (setHung v s).port = s.port := rfl
@[simp] theorem setHung_fault (v : Bool) : (setHung v s).fault = s.fault := rfl
@[simp] theorem setHung_cmds (v : Bool) : (setHung v s).cmds = s.cmds := rfl
@[simp] theorem setHung_answers (v : Bool) : (setHung v s).answers = s.answers := rfl
@[simp] theorem setHung_history (v : Bool) : (setHung v s).history = s.history := rfl
@[simp] theorem setHung_sched (v : Bool) : (setHung v s).sched = s.sched := rfl
@[simp] theorem setHung_tickFires (v : Bool) : (setHung v s).tickFires = s.tickFires := rfl
@[simp] theorem setHung_hung (v : Bool) : (setHung v s).hung = v := rfl
@[simp] theorem setHung_draws (v : Bool) : (setHung v s).draws = s.draws := rfl

/-! ### After `setCmds` -/

@[simp] theorem setCmds_cfg (v : List CommandWord) : (setCmds v s).cfg = s.cfg := rfl
@[simp] theorem setCmds_img (v : List CommandWord) : (setCmds v s).img = s.img := rfl
@[simp] theorem setCmds_en (v : List CommandWord) : (setCmds v s).en = s.en := rfl
@[simp] theorem setCmds_gi (v : List CommandWord) : (setCmds v s).gi = s.gi := rfl
@[simp] theorem setCmds_lf (v : List CommandWord) : (setCmds v s).lf = s.lf := rfl
@[simp] theorem setCmds_row (v : List CommandWord) : (setCmds v s).row = s.row := rfl
@[simp] theorem setCmds_sidx (v : List CommandWord) : (setCmds v s).sidx = s.sidx := rfl
@[simp] theorem setCmds_buf (v : List CommandWord) : (setCmds v s).buf = s.buf := rfl
@[simp] theorem setCmds_drv (v : List CommandWord) : (setCmds v s).drv = s.drv := rfl
@[simp] theorem setCmds_act (v : List CommandWord) : (setCmds v s).act = s.act := rfl
@[simp] theorem setCmds_send (v : List CommandWord) : (setCmds v s).send = s.send := rfl
@[simp] theorem setCmds_cur (v : List CommandWord) : (setCmds v s).cur = s.cur := rfl
@[simp] theorem setCmds_port (v : List CommandWord) : (setCmds v s).port = s.port := rfl
@[simp] theorem setCmds_fault (v : List CommandWord) : (setCmds v s).fault = s.fault := rfl
@[simp] theorem setCmds_cmds (v : List CommandWord) : (setCmds v s).cmds = v := rfl
@[simp] theorem setCmds_answers (v : List CommandWord) : (setCmds v s).answers = s.answers := rfl
@[simp] theorem setCmds_history (v : List CommandWord) : (setCmds v s).history = s.history := rfl
@[simp] theorem setCmds_sched (v : List CommandWord) : (setCmds v s).sched = s.sched := rfl
@[simp] theorem setCmds_tickFires (v : List CommandWord) :
    (setCmds v s).tickFires = s.tickFires := rfl
@[simp] theorem setCmds_hung (v : List CommandWord) : (setCmds v s).hung = s.hung := rfl
@[simp] theorem setCmds_draws (v : List CommandWord) : (setCmds v s).draws = s.draws := rfl

/-! ### After `record` -/

@[simp] theorem record_cfg (e : Event) : (record e s).cfg = s.cfg := rfl
@[simp] theorem record_img (e : Event) : (record e s).img = s.img := rfl
@[simp] theorem record_en (e : Event) : (record e s).en = s.en := rfl
@[simp] theorem record_gi (e : Event) : (record e s).gi = s.gi := rfl
@[simp] theorem record_lf (e : Event) : (record e s).lf = s.lf := rfl
@[simp] theorem record_row (e : Event) : (record e s).row = s.row := rfl
@[simp] theorem record_sidx (e : Event) : (record e s).sidx = s.sidx := rfl
@[simp] theorem record_buf (e : Event) : (record e s).buf = s.buf := rfl
@[simp] theorem record_drv (e : Event) : (record e s).drv = s.drv := rfl
@[simp] theorem record_act (e : Event) : (record e s).act = s.act := rfl
@[simp] theorem record_send (e : Event) : (record e s).send = s.send := rfl
@[simp] theorem record_cur (e : Event) : (record e s).cur = s.cur := rfl
@[simp] theorem record_port (e : Event) : (record e s).port = s.port := rfl
@[simp] theorem record_fault (e : Event) : (record e s).fault = s.fault := rfl
@[simp] theorem record_cmds (e : Event) : (record e s).cmds = s.cmds := rfl
@[simp] theorem record_answers (e : Event) : (record e s).answers = s.answers := rfl
@[simp] theorem record_history (e : Event) : (record e s).history = s.history ++ [e] := rfl
@[simp] theorem record_sched (e : Event) : (record e s).sched = s.sched := rfl
@[simp] theorem record_tickFires (e : Event) : (record e s).tickFires = s.tickFires := rfl
@[simp] theorem record_hung (e : Event) : (record e s).hung = s.hung := rfl
@[simp] theorem record_draws (e : Event) : (record e s).draws = s.draws := rfl

/-! ### After `clearDrv` -/

@[simp] theorem clearDrv_cfg (k : Nat) : (clearDrv k s).cfg = s.cfg := rfl
@[simp] theorem clearDrv_img (k : Nat) : (clearDrv k s).img = s.img := rfl
@[simp] theorem clearDrv_en (k : Nat) : (clearDrv k s).en = s.en := rfl
@[simp] theorem clearDrv_gi (k : Nat) : (clearDrv k s).gi = s.gi := rfl
@[simp] theorem clearDrv_lf (k : Nat) : (clearDrv k s).lf = s.lf := rfl
@[simp] theorem clearDrv_row (k : Nat) : (clearDrv k s).row = s.row := rfl
@[simp] theorem clearDrv_sidx (k : Nat) : (clearDrv k s).sidx = s.sidx := rfl
@[simp] theorem clearDrv_buf (k : Nat) : (clearDrv k s).buf = s.buf := rfl
@[simp] theorem clearDrv_drv (k : Nat) :
    (clearDrv k s).drv = s.drv.modify k fun _ => List.replicate s.cfg.nPorts 0 := rfl
@[simp] theorem clearDrv_act (k : Nat) : (clearDrv k s).act = s.act := rfl
@[simp] theorem clearDrv_send (k : Nat) : (clearDrv k s).send = s.send := rfl
@[simp] theorem clearDrv_cur (k : Nat) : (clearDrv k s).cur = s.cur := rfl
@[simp] theorem clearDrv_port (k : Nat) : (clearDrv k s).port = s.port := rfl
@[simp] theorem clearDrv_fault (k : Nat) : (clearDrv k s).fault = s.fault := rfl
@[simp] theorem clearDrv_cmds (k : Nat) : (clearDrv k s).cmds = s.cmds := rfl
@[simp] theorem clearDrv_answers (k : Nat) : (clearDrv k s).answers = s.answers := rfl
@[simp] theorem clearDrv_history (k : Nat) : (clearDrv k s).history = s.history := rfl
@[simp] theorem clearDrv_sched (k : Nat) : (clearDrv k s).sched = s.sched := rfl
@[simp] theorem clearDrv_tickFires (k : Nat) : (clearDrv k s).tickFires = s.tickFires := rfl
@[simp] theorem clearDrv_hung (k : Nat) : (clearDrv k s).hung = s.hung := rfl
@[simp] theorem clearDrv_draws (k : Nat) : (clearDrv k s).draws = s.draws := rfl

/-! ### After `driveLane` -/

@[simp] theorem driveLane_cfg (k p b : Nat) (ls : List Level) :
    (driveLane k p b ls s).cfg = s.cfg := rfl
@[simp] theorem driveLane_img (k p b : Nat) (ls : List Level) :
    (driveLane k p b ls s).img = s.img := rfl
@[simp] theorem driveLane_en (k p b : Nat) (ls : List Level) :
    (driveLane k p b ls s).en = s.en := rfl
@[simp] theorem driveLane_gi (k p b : Nat) (ls : List Level) :
    (driveLane k p b ls s).gi = s.gi := rfl
@[simp] theorem driveLane_lf (k p b : Nat) (ls : List Level) :
    (driveLane k p b ls s).lf = s.lf := rfl
@[simp] theorem driveLane_row (k p b : Nat) (ls : List Level) :
    (driveLane k p b ls s).row = s.row := rfl
@[simp] theorem driveLane_sidx (k p b : Nat) (ls : List Level) :
    (driveLane k p b ls s).sidx = s.sidx := rfl
@[simp] theorem driveLane_buf (k p b : Nat) (ls : List Level) :
    (driveLane k p b ls s).buf = s.buf.modify k fun ports => ports.modify p fun words =>
      List.zipWith (fun old level => setLane s.cfg.portWidth b level old) words ls := rfl
@[simp] theorem driveLane_drv (k p b : Nat) (ls : List Level) :
    (driveLane k p b ls s).drv = s.drv.modify k fun masks => masks.modify p (setLane s.cfg.portWidth b true) := rfl
@[simp] theorem driveLane_act (k p b : Nat) (ls : List Level) :
    (driveLane k p b ls s).act = s.act := rfl
@[simp] theorem driveLane_send (k p b : Nat) (ls : List Level) :
    (driveLane k p b ls s).send = s.send := rfl
@[simp] theorem driveLane_cur (k p b : Nat) (ls : List Level) :
    (driveLane k p b ls s).cur = s.cur := rfl
@[simp] theorem driveLane_port (k p b : Nat) (ls : List Level) :
    (driveLane k p b ls s).port = s.port := rfl
@[simp] theorem driveLane_fault (k p b : Nat) (ls : List Level) :
    (driveLane k p b ls s).fault = s.fault := rfl
@[simp] theorem driveLane_cmds (k p b : Nat) (ls : List Level) :
    (driveLane k p b ls s).cmds = s.cmds := rfl
@[simp] theorem driveLane_answers (k p b : Nat) (ls : List Level) :
    (driveLane k p b ls s).answers = s.answers := rfl
@[simp] theorem driveLane_history (k p b : Nat) (ls : List Level) :
    (driveLane k p b ls s).history = s.history := rfl
@[simp] theorem driveLane_sched (k p b : Nat) (ls : List Level) :
    (driveLane k p b ls s).sched = s.sched := rfl
@[simp] theorem driveLane_tickFires (k p b : Nat) (ls : List Level) :
    (driveLane k p b ls s).tickFires = s.tickFires := rfl
@[simp] theorem driveLane_hung (k p b : Nat) (ls : List Level) :
    (driveLane k p b ls s).hung = s.hung := rfl
@[simp] theorem driveLane_draws (k p b : Nat) (ls : List Level) :
    (driveLane k p b ls s).draws = s.draws := rfl

/-! ### After `wmb` -/

@[simp] theorem wmb_cfg (p : Nat) (m v : PortWord) : (wmb p m v s).cfg = s.cfg := rfl
@[simp] theorem wmb_img (p : Nat) (m v : PortWord) : (wmb p m v s).img = s.img := rfl
@[simp] theorem wmb_en (p : Nat) (m v : PortWord) : (wmb p m v s).en = s.en := rfl
@[simp] theorem wmb_gi (p : Nat) (m v : PortWord) : (wmb p m v s).gi = s.gi := rfl
@[simp] theorem wmb_lf (p : Nat) (m v : PortWord) : (wmb p m v s).lf = s.lf := rfl
@[simp] theorem wmb_row (p : Nat) (m v : PortWord) : (wmb p m v s).row = s.row := rfl
@[simp] theorem wmb_sidx (p : Nat) (m v : PortWord) : (wmb p m v s).sidx = s.sidx := rfl
@[simp] theorem wmb_buf (p : Nat) (m v : PortWord) : (wmb p m v s).buf = s.buf := rfl
@[simp] theorem wmb_drv (p : Nat) (m v : PortWord) : (wmb p m v s).drv = s.drv := rfl
@[simp] theorem wmb_act (p : Nat) (m v : PortWord) : (wmb p m v s).act = s.act := rfl
@[simp] theorem wmb_send (p : Nat) (m v : PortWord) : (wmb p m v s).send = s.send := rfl
@[simp] theorem wmb_cur (p : Nat) (m v : PortWord) : (wmb p m v s).cur = s.cur := rfl
@[simp] theorem wmb_port (p : Nat) (m v : PortWord) :
    (wmb p m v s).port = s.port.modify p fun old => mergeMasked s.cfg.portWidth old m v := rfl
@[simp] theorem wmb_fault (p : Nat) (m v : PortWord) : (wmb p m v s).fault = s.fault := rfl
@[simp] theorem wmb_cmds (p : Nat) (m v : PortWord) : (wmb p m v s).cmds = s.cmds := rfl
@[simp] theorem wmb_answers (p : Nat) (m v : PortWord) : (wmb p m v s).answers = s.answers := rfl
@[simp] theorem wmb_history (p : Nat) (m v : PortWord) :
    (wmb p m v s).history = s.history ++ [.wmb p m v] := rfl
@[simp] theorem wmb_sched (p : Nat) (m v : PortWord) : (wmb p m v s).sched = s.sched := rfl
@[simp] theorem wmb_tickFires (p : Nat) (m v : PortWord) :
    (wmb p m v s).tickFires = s.tickFires := rfl
@[simp] theorem wmb_hung (p : Nat) (m v : PortWord) : (wmb p m v s).hung = s.hung := rfl
@[simp] theorem wmb_draws (p : Nat) (m v : PortWord) : (wmb p m v s).draws = s.draws := rfl

/-! ### After `leaveRow` -/

@[simp] theorem leaveRow_cfg : (leaveRow s).cfg = s.cfg := rfl
@[simp] theorem leaveRow_img : (leaveRow s).img = s.img := rfl
@[simp] theorem leaveRow_en : (leaveRow s).en = s.en := rfl
@[simp] theorem leaveRow_gi : (leaveRow s).gi = s.gi := rfl
@[simp] theorem leaveRow_lf : (leaveRow s).lf = s.lf := rfl
@[simp] theorem leaveRow_row :
    (leaveRow s).row = Config.loopLeft s.draws % (maxlen s.cfg + 1) := rfl
@[simp] theorem leaveRow_sidx : (leaveRow s).sidx = s.sidx := rfl
@[simp] theorem leaveRow_buf : (leaveRow s).buf = s.buf := rfl
@[simp] theorem leaveRow_drv : (leaveRow s).drv = s.drv := rfl
@[simp] theorem leaveRow_act : (leaveRow s).act = s.act := rfl
@[simp] theorem leaveRow_send : (leaveRow s).send = s.send := rfl
@[simp] theorem leaveRow_cur : (leaveRow s).cur = s.cur := rfl
@[simp] theorem leaveRow_port : (leaveRow s).port = s.port := rfl
@[simp] theorem leaveRow_fault : (leaveRow s).fault = s.fault := rfl
@[simp] theorem leaveRow_cmds : (leaveRow s).cmds = s.cmds := rfl
@[simp] theorem leaveRow_answers : (leaveRow s).answers = s.answers := rfl
@[simp] theorem leaveRow_history : (leaveRow s).history = s.history := rfl
@[simp] theorem leaveRow_sched : (leaveRow s).sched = s.sched := rfl
@[simp] theorem leaveRow_tickFires : (leaveRow s).tickFires = s.tickFires := rfl
@[simp] theorem leaveRow_hung : (leaveRow s).hung = s.hung := rfl
@[simp] theorem leaveRow_draws : (leaveRow s).draws = s.draws + 1 := rfl

/-! ### After `leaveSidx` -/

@[simp] theorem leaveSidx_cfg : (leaveSidx s).cfg = s.cfg := rfl
@[simp] theorem leaveSidx_img : (leaveSidx s).img = s.img := rfl
@[simp] theorem leaveSidx_en : (leaveSidx s).en = s.en := rfl
@[simp] theorem leaveSidx_gi : (leaveSidx s).gi = s.gi := rfl
@[simp] theorem leaveSidx_lf : (leaveSidx s).lf = s.lf := rfl
@[simp] theorem leaveSidx_row : (leaveSidx s).row = s.row := rfl
@[simp] theorem leaveSidx_sidx :
    (leaveSidx s).sidx = Config.loopLeft s.draws % (s.cfg.strandCount + 1) := rfl
@[simp] theorem leaveSidx_buf : (leaveSidx s).buf = s.buf := rfl
@[simp] theorem leaveSidx_drv : (leaveSidx s).drv = s.drv := rfl
@[simp] theorem leaveSidx_act : (leaveSidx s).act = s.act := rfl
@[simp] theorem leaveSidx_send : (leaveSidx s).send = s.send := rfl
@[simp] theorem leaveSidx_cur : (leaveSidx s).cur = s.cur := rfl
@[simp] theorem leaveSidx_port : (leaveSidx s).port = s.port := rfl
@[simp] theorem leaveSidx_fault : (leaveSidx s).fault = s.fault := rfl
@[simp] theorem leaveSidx_cmds : (leaveSidx s).cmds = s.cmds := rfl
@[simp] theorem leaveSidx_answers : (leaveSidx s).answers = s.answers := rfl
@[simp] theorem leaveSidx_history : (leaveSidx s).history = s.history := rfl
@[simp] theorem leaveSidx_sched : (leaveSidx s).sched = s.sched := rfl
@[simp] theorem leaveSidx_tickFires : (leaveSidx s).tickFires = s.tickFires := rfl
@[simp] theorem leaveSidx_hung : (leaveSidx s).hung = s.hung := rfl
@[simp] theorem leaveSidx_draws : (leaveSidx s).draws = s.draws + 1 := rfl

/-! ### After `giveAnswer` -/

@[simp] theorem giveAnswer_cfg (a : Answer) : (giveAnswer a s).cfg = s.cfg := rfl
@[simp] theorem giveAnswer_img (a : Answer) : (giveAnswer a s).img = s.img := rfl
@[simp] theorem giveAnswer_en (a : Answer) : (giveAnswer a s).en = s.en := rfl
@[simp] theorem giveAnswer_gi (a : Answer) : (giveAnswer a s).gi = s.gi := rfl
@[simp] theorem giveAnswer_lf (a : Answer) : (giveAnswer a s).lf = s.lf := rfl
@[simp] theorem giveAnswer_row (a : Answer) : (giveAnswer a s).row = s.row := rfl
@[simp] theorem giveAnswer_sidx (a : Answer) : (giveAnswer a s).sidx = s.sidx := rfl
@[simp] theorem giveAnswer_buf (a : Answer) : (giveAnswer a s).buf = s.buf := rfl
@[simp] theorem giveAnswer_drv (a : Answer) : (giveAnswer a s).drv = s.drv := rfl
@[simp] theorem giveAnswer_act (a : Answer) : (giveAnswer a s).act = s.act := rfl
@[simp] theorem giveAnswer_send (a : Answer) : (giveAnswer a s).send = s.send := rfl
@[simp] theorem giveAnswer_cur (a : Answer) : (giveAnswer a s).cur = s.cur := rfl
@[simp] theorem giveAnswer_port (a : Answer) : (giveAnswer a s).port = s.port := rfl
@[simp] theorem giveAnswer_fault (a : Answer) : (giveAnswer a s).fault = s.fault := rfl
@[simp] theorem giveAnswer_cmds (a : Answer) : (giveAnswer a s).cmds = s.cmds := rfl
@[simp] theorem giveAnswer_answers (a : Answer) : (giveAnswer a s).answers = s.answers ++ [a] := rfl
@[simp] theorem giveAnswer_history (a : Answer) : (giveAnswer a s).history = s.history := rfl
@[simp] theorem giveAnswer_sched (a : Answer) : (giveAnswer a s).sched = s.sched := rfl
@[simp] theorem giveAnswer_tickFires (a : Answer) : (giveAnswer a s).tickFires = s.tickFires := rfl
@[simp] theorem giveAnswer_hung (a : Answer) : (giveAnswer a s).hung = s.hung := rfl
@[simp] theorem giveAnswer_draws (a : Answer) : (giveAnswer a s).draws = s.draws := rfl

/-! ### After `encodeFrame` -/

@[simp] theorem encodeFrame_cfg (n : Nat) (r g b v : Byte) :
    (encodeFrame n r g b v s).cfg = s.cfg := rfl
@[simp] theorem encodeFrame_img (n : Nat) (r g b v : Byte) :
    (encodeFrame n r g b v s).img = s.img := rfl
@[simp] theorem encodeFrame_en (n : Nat) (r g b v : Byte) :
    (encodeFrame n r g b v s).en = s.en := rfl
@[simp] theorem encodeFrame_gi (n : Nat) (r g b v : Byte) :
    (encodeFrame n r g b v s).gi = s.gi := rfl
@[simp] theorem encodeFrame_lf (n : Nat) (r g b v : Byte) :
    (encodeFrame n r g b v s).lf = frameOf n r g b v := rfl
@[simp] theorem encodeFrame_row (n : Nat) (r g b v : Byte) :
    (encodeFrame n r g b v s).row = s.row := rfl
@[simp] theorem encodeFrame_sidx (n : Nat) (r g b v : Byte) :
    (encodeFrame n r g b v s).sidx = s.sidx := rfl
@[simp] theorem encodeFrame_buf (n : Nat) (r g b v : Byte) :
    (encodeFrame n r g b v s).buf = s.buf := rfl
@[simp] theorem encodeFrame_drv (n : Nat) (r g b v : Byte) :
    (encodeFrame n r g b v s).drv = s.drv := rfl
@[simp] theorem encodeFrame_act (n : Nat) (r g b v : Byte) :
    (encodeFrame n r g b v s).act = s.act := rfl
@[simp] theorem encodeFrame_send (n : Nat) (r g b v : Byte) :
    (encodeFrame n r g b v s).send = s.send := rfl
@[simp] theorem encodeFrame_cur (n : Nat) (r g b v : Byte) :
    (encodeFrame n r g b v s).cur = s.cur := rfl
@[simp] theorem encodeFrame_port (n : Nat) (r g b v : Byte) :
    (encodeFrame n r g b v s).port = s.port := rfl
@[simp] theorem encodeFrame_fault (n : Nat) (r g b v : Byte) :
    (encodeFrame n r g b v s).fault = s.fault := rfl
@[simp] theorem encodeFrame_cmds (n : Nat) (r g b v : Byte) :
    (encodeFrame n r g b v s).cmds = s.cmds := rfl
@[simp] theorem encodeFrame_answers (n : Nat) (r g b v : Byte) :
    (encodeFrame n r g b v s).answers = s.answers := rfl
@[simp] theorem encodeFrame_history (n : Nat) (r g b v : Byte) :
    (encodeFrame n r g b v s).history = s.history := rfl
@[simp] theorem encodeFrame_sched (n : Nat) (r g b v : Byte) :
    (encodeFrame n r g b v s).sched = s.sched := rfl
@[simp] theorem encodeFrame_tickFires (n : Nat) (r g b v : Byte) :
    (encodeFrame n r g b v s).tickFires = s.tickFires := rfl
@[simp] theorem encodeFrame_hung (n : Nat) (r g b v : Byte) :
    (encodeFrame n r g b v s).hung = s.hung := rfl
@[simp] theorem encodeFrame_draws (n : Nat) (r g b v : Byte) :
    (encodeFrame n r g b v s).draws = s.draws := rfl

/-! ### After `passPlace` -/

@[simp] theorem passPlace_cfg : (passPlace s).cfg = s.cfg := rfl
@[simp] theorem passPlace_img : (passPlace s).img = s.img := rfl
@[simp] theorem passPlace_en : (passPlace s).en = s.en := rfl
@[simp] theorem passPlace_gi : (passPlace s).gi = s.gi := rfl
@[simp] theorem passPlace_lf : (passPlace s).lf = s.lf := rfl
@[simp] theorem passPlace_row : (passPlace s).row = s.row := rfl
@[simp] theorem passPlace_sidx : (passPlace s).sidx = s.sidx := rfl
@[simp] theorem passPlace_buf : (passPlace s).buf = s.buf := rfl
@[simp] theorem passPlace_drv : (passPlace s).drv = s.drv := rfl
@[simp] theorem passPlace_act : (passPlace s).act = s.act := rfl
@[simp] theorem passPlace_send : (passPlace s).send = s.send := rfl
@[simp] theorem passPlace_cur : (passPlace s).cur = s.cur := rfl
@[simp] theorem passPlace_port : (passPlace s).port = s.port := rfl
@[simp] theorem passPlace_fault : (passPlace s).fault = s.fault := rfl
@[simp] theorem passPlace_cmds : (passPlace s).cmds = s.cmds := rfl
@[simp] theorem passPlace_answers : (passPlace s).answers = s.answers := rfl
@[simp] theorem passPlace_history : (passPlace s).history = s.history := rfl
@[simp] theorem passPlace_sched : (passPlace s).sched = s.sched.tail := rfl
@[simp] theorem passPlace_tickFires : (passPlace s).tickFires = s.tickFires := rfl
@[simp] theorem passPlace_hung : (passPlace s).hung = s.hung := rfl
@[simp] theorem passPlace_draws : (passPlace s).draws = s.draws := rfl

/-! ### After `setMask` -/

@[simp] theorem setMask_cfg (k p : Nat) (word : PortWord) : (setMask k p word s).cfg = s.cfg := rfl
@[simp] theorem setMask_img (k p : Nat) (word : PortWord) : (setMask k p word s).img = s.img := rfl
@[simp] theorem setMask_en (k p : Nat) (word : PortWord) : (setMask k p word s).en = s.en := rfl
@[simp] theorem setMask_gi (k p : Nat) (word : PortWord) : (setMask k p word s).gi = s.gi := rfl
@[simp] theorem setMask_lf (k p : Nat) (word : PortWord) : (setMask k p word s).lf = s.lf := rfl
@[simp] theorem setMask_row (k p : Nat) (word : PortWord) : (setMask k p word s).row = s.row := rfl
@[simp] theorem setMask_sidx (k p : Nat) (word : PortWord) :
    (setMask k p word s).sidx = s.sidx := rfl
@[simp] theorem setMask_buf (k p : Nat) (word : PortWord) : (setMask k p word s).buf = s.buf := rfl
@[simp] theorem setMask_drv (k p : Nat) (word : PortWord) :
    (setMask k p word s).drv = s.drv.modify k fun masks => masks.set p word := rfl
@[simp] theorem setMask_act (k p : Nat) (word : PortWord) : (setMask k p word s).act = s.act := rfl
@[simp] theorem setMask_send (k p : Nat) (word : PortWord) :
    (setMask k p word s).send = s.send := rfl
@[simp] theorem setMask_cur (k p : Nat) (word : PortWord) : (setMask k p word s).cur = s.cur := rfl
@[simp] theorem setMask_port (k p : Nat) (word : PortWord) :
    (setMask k p word s).port = s.port := rfl
@[simp] theorem setMask_fault (k p : Nat) (word : PortWord) :
    (setMask k p word s).fault = s.fault := rfl
@[simp] theorem setMask_cmds (k p : Nat) (word : PortWord) :
    (setMask k p word s).cmds = s.cmds := rfl
@[simp] theorem setMask_answers (k p : Nat) (word : PortWord) :
    (setMask k p word s).answers = s.answers := rfl
@[simp] theorem setMask_history (k p : Nat) (word : PortWord) :
    (setMask k p word s).history = s.history := rfl
@[simp] theorem setMask_sched (k p : Nat) (word : PortWord) :
    (setMask k p word s).sched = s.sched := rfl
@[simp] theorem setMask_tickFires (k p : Nat) (word : PortWord) :
    (setMask k p word s).tickFires = s.tickFires := rfl
@[simp] theorem setMask_hung (k p : Nat) (word : PortWord) :
    (setMask k p word s).hung = s.hung := rfl
@[simp] theorem setMask_draws (k p : Nat) (word : PortWord) :
    (setMask k p word s).draws = s.draws := rfl

/-! ### After `setWord` -/

@[simp] theorem setWord_cfg (k p t : Nat) (word : PortWord) :
    (setWord k p t word s).cfg = s.cfg := rfl
@[simp] theorem setWord_img (k p t : Nat) (word : PortWord) :
    (setWord k p t word s).img = s.img := rfl
@[simp] theorem setWord_en (k p t : Nat) (word : PortWord) : (setWord k p t word s).en = s.en := rfl
@[simp] theorem setWord_gi (k p t : Nat) (word : PortWord) : (setWord k p t word s).gi = s.gi := rfl
@[simp] theorem setWord_lf (k p t : Nat) (word : PortWord) : (setWord k p t word s).lf = s.lf := rfl
@[simp] theorem setWord_row (k p t : Nat) (word : PortWord) :
    (setWord k p t word s).row = s.row := rfl
@[simp] theorem setWord_sidx (k p t : Nat) (word : PortWord) :
    (setWord k p t word s).sidx = s.sidx := rfl
@[simp] theorem setWord_buf (k p t : Nat) (word : PortWord) :
    (setWord k p t word s).buf
      = s.buf.modify k fun ports => ports.modify p fun words => words.set t word := rfl
@[simp] theorem setWord_drv (k p t : Nat) (word : PortWord) :
    (setWord k p t word s).drv = s.drv := rfl
@[simp] theorem setWord_act (k p t : Nat) (word : PortWord) :
    (setWord k p t word s).act = s.act := rfl
@[simp] theorem setWord_send (k p t : Nat) (word : PortWord) :
    (setWord k p t word s).send = s.send := rfl
@[simp] theorem setWord_cur (k p t : Nat) (word : PortWord) :
    (setWord k p t word s).cur = s.cur := rfl
@[simp] theorem setWord_port (k p t : Nat) (word : PortWord) :
    (setWord k p t word s).port = s.port := rfl
@[simp] theorem setWord_fault (k p t : Nat) (word : PortWord) :
    (setWord k p t word s).fault = s.fault := rfl
@[simp] theorem setWord_cmds (k p t : Nat) (word : PortWord) :
    (setWord k p t word s).cmds = s.cmds := rfl
@[simp] theorem setWord_answers (k p t : Nat) (word : PortWord) :
    (setWord k p t word s).answers = s.answers := rfl
@[simp] theorem setWord_history (k p t : Nat) (word : PortWord) :
    (setWord k p t word s).history = s.history := rfl
@[simp] theorem setWord_sched (k p t : Nat) (word : PortWord) :
    (setWord k p t word s).sched = s.sched := rfl
@[simp] theorem setWord_tickFires (k p t : Nat) (word : PortWord) :
    (setWord k p t word s).tickFires = s.tickFires := rfl
@[simp] theorem setWord_hung (k p t : Nat) (word : PortWord) :
    (setWord k p t word s).hung = s.hung := rfl
@[simp] theorem setWord_draws (k p t : Nat) (word : PortWord) :
    (setWord k p t word s).draws = s.draws := rfl

/-! ### After `setPort` -/

@[simp] theorem setPort_cfg (p : Nat) (old mask bits : PortWord) :
    (setPort p old mask bits s).cfg = s.cfg := rfl
@[simp] theorem setPort_img (p : Nat) (old mask bits : PortWord) :
    (setPort p old mask bits s).img = s.img := rfl
@[simp] theorem setPort_en (p : Nat) (old mask bits : PortWord) :
    (setPort p old mask bits s).en = s.en := rfl
@[simp] theorem setPort_gi (p : Nat) (old mask bits : PortWord) :
    (setPort p old mask bits s).gi = s.gi := rfl
@[simp] theorem setPort_lf (p : Nat) (old mask bits : PortWord) :
    (setPort p old mask bits s).lf = s.lf := rfl
@[simp] theorem setPort_row (p : Nat) (old mask bits : PortWord) :
    (setPort p old mask bits s).row = s.row := rfl
@[simp] theorem setPort_sidx (p : Nat) (old mask bits : PortWord) :
    (setPort p old mask bits s).sidx = s.sidx := rfl
@[simp] theorem setPort_buf (p : Nat) (old mask bits : PortWord) :
    (setPort p old mask bits s).buf = s.buf := rfl
@[simp] theorem setPort_drv (p : Nat) (old mask bits : PortWord) :
    (setPort p old mask bits s).drv = s.drv := rfl
@[simp] theorem setPort_act (p : Nat) (old mask bits : PortWord) :
    (setPort p old mask bits s).act = s.act := rfl
@[simp] theorem setPort_send (p : Nat) (old mask bits : PortWord) :
    (setPort p old mask bits s).send = s.send := rfl
@[simp] theorem setPort_cur (p : Nat) (old mask bits : PortWord) :
    (setPort p old mask bits s).cur = s.cur := rfl
@[simp] theorem setPort_port (p : Nat) (old mask bits : PortWord) :
    (setPort p old mask bits s).port
      = s.port.set p (mergeMasked s.cfg.portWidth old mask bits) := rfl
@[simp] theorem setPort_fault (p : Nat) (old mask bits : PortWord) :
    (setPort p old mask bits s).fault = s.fault := rfl
@[simp] theorem setPort_cmds (p : Nat) (old mask bits : PortWord) :
    (setPort p old mask bits s).cmds = s.cmds := rfl
@[simp] theorem setPort_answers (p : Nat) (old mask bits : PortWord) :
    (setPort p old mask bits s).answers = s.answers := rfl
@[simp] theorem setPort_history (p : Nat) (old mask bits : PortWord) :
    (setPort p old mask bits s).history = s.history ++ [.wmb p mask bits] := rfl
@[simp] theorem setPort_sched (p : Nat) (old mask bits : PortWord) :
    (setPort p old mask bits s).sched = s.sched := rfl
@[simp] theorem setPort_tickFires (p : Nat) (old mask bits : PortWord) :
    (setPort p old mask bits s).tickFires = s.tickFires := rfl
@[simp] theorem setPort_hung (p : Nat) (old mask bits : PortWord) :
    (setPort p old mask bits s).hung = s.hung := rfl
@[simp] theorem setPort_draws (p : Nat) (old mask bits : PortWord) :
    (setPort p old mask bits s).draws = s.draws := rfl

end Sys2Proof.Machine
end

