-- ==== Sys2Proof/Laws/Words.lean ====
section
/-! SUPPORT. What the operations on port words do to each lane, and that their results have `W` bits.
Spec: 30_encoding.md R84 (e), (g); 41_bit_expander.md R100, R104; 43_transport_driver.md R130. -/

namespace Sys2Proof.Machine

theorem lane_lt {w n b : Nat} (h : n < 2 ^ w) (hb : lane n b = true) : b < w := by
  by_contra hge
  have : n < 2 ^ b := lt_of_lt_of_le h (Nat.pow_le_pow_right (by omega) (by omega))
  simp [lane, Nat.testBit_lt_two_pow this] at hb

@[simp] theorem lane_zero (b : Nat) : lane 0 b = false := by simp [lane]

theorem lane_toNat {w : Nat} (x : BitVec w) (b : Nat) : lane x.toNat b = x.getLsbD b := rfl

theorem getLsbD_ofNat_lane (w n b : Nat) :
    (BitVec.ofNat w n).getLsbD b = (decide (b < w) && lane n b) := by
  simp [lane, BitVec.getLsbD_ofNat]

/-- The pin mask has exactly one bit (R84 (e)). -/
theorem getLsbD_pinMask (w bit b : Nat) :
    (pinMask w bit).getLsbD b = (decide (b < w) && decide (b = bit)) := by
  unfold pinMask
  rw [BitVec.getLsbD_shiftLeft, BitVec.getLsbD_one]
  by_cases hb : b < w <;> by_cases h : b = bit <;> simp [hb, h] <;> omega

/-- Writing a lane sets that lane and keeps every other lane of a word of `W` bits. -/
theorem lane_setLane (w bit : Nat) (level : Level) (old b : Nat) :
    lane (setLane w bit level old) b
      = (decide (b < w) && if b = bit then level else lane old b) := by
  unfold setLane
  cases level <;> simp only [Bool.false_eq_true, if_true, if_false, lane_toNat]
  · rw [BitVec.getLsbD_and, BitVec.getLsbD_not, getLsbD_pinMask, getLsbD_ofNat_lane]
    by_cases hb : b < w <;> by_cases h : b = bit <;> simp [hb, h]
  · rw [BitVec.getLsbD_or, getLsbD_pinMask, getLsbD_ofNat_lane]
    by_cases hb : b < w <;> by_cases h : b = bit <;> simp [hb, h] <;> intros <;> assumption

theorem setLane_lt (w bit : Nat) (level : Level) (old : Nat) : setLane w bit level old < 2 ^ w := by
  unfold setLane; split <;> exact BitVec.isLt _

/-- The masked merge takes a lane in the mask from `bits` and keeps every other lane (R130). -/
theorem lane_mergeMasked (w old mask bits b : Nat) :
    lane (mergeMasked w old mask bits) b
      = (decide (b < w) && if lane mask b then lane bits b else lane old b) := by
  unfold mergeMasked
  rw [lane_toNat]
  simp only [BitVec.getLsbD_or, BitVec.getLsbD_and, BitVec.getLsbD_not, getLsbD_ofNat_lane]
  by_cases hb : b < w <;> cases lane mask b <;> simp [hb]

theorem mergeMasked_lt (w old mask bits : Nat) : mergeMasked w old mask bits < 2 ^ w :=
  BitVec.isLt _

theorem wordOf_lt (w n : Nat) : wordOf w n < 2 ^ w := BitVec.isLt _

theorem wordOf_of_lt {w n : Nat} (h : n < 2 ^ w) : wordOf w n = n := by
  simp [wordOf, Nat.mod_eq_of_lt h]

/-- Two words of `W` bits with the same lanes are the same word. -/
theorem word_ext {w m n : Nat} (hm : m < 2 ^ w) (hn : n < 2 ^ w)
    (h : ∀ b, b < w → lane m b = lane n b) : m = n := by
  apply Nat.eq_of_testBit_eq
  intro b
  by_cases hb : b < w
  · exact h b hb
  · have hle : 2 ^ w ≤ 2 ^ b := Nat.pow_le_pow_right (by omega) (by omega)
    rw [Nat.testBit_lt_two_pow (lt_of_lt_of_le hm hle), Nat.testBit_lt_two_pow (lt_of_lt_of_le hn hle)]

/-- Writes to two different lanes of a word may be swapped (41_bit_expander.md R104). -/
theorem setLane_comm (w : Nat) {i j : Nat} (hij : i ≠ j) (a c : Level) (old : Nat) :
    setLane w j c (setLane w i a old) = setLane w i a (setLane w j c old) := by
  apply word_ext (setLane_lt ..) (setLane_lt ..)
  intro b hb
  simp only [lane_setLane, hb, decide_true, Bool.true_and]
  by_cases h1 : b = j
  · have h2 : ¬ b = i := fun h => hij (h.symm.trans h1)
    simp [h1, hij.symm]
  · simp [h1]

/-- Of two writes to one lane the later one stands (41_bit_expander.md R104). -/
theorem setLane_setLane (w i : Nat) (a c : Level) (old : Nat) :
    setLane w i c (setLane w i a old) = setLane w i c old := by
  apply word_ext (setLane_lt ..) (setLane_lt ..)
  intro b hb
  simp only [lane_setLane, hb, decide_true, Bool.true_and]
  split <;> rfl

/-- The same masked write twice leaves the latch as once (20_memory.md R59). -/
theorem mergeMasked_idem (w old mask bits : Nat) :
    mergeMasked w (mergeMasked w old mask bits) mask bits = mergeMasked w old mask bits := by
  apply word_ext (mergeMasked_lt ..) (mergeMasked_lt ..)
  intro b hb
  simp only [lane_mergeMasked, hb, decide_true, Bool.true_and]
  cases lane mask b <;> simp

/-- An empty mask changes nothing (43_transport_driver.md R130). -/
theorem mergeMasked_zero {w old : Nat} (h : old < 2 ^ w) (bits : Nat) :
    mergeMasked w old 0 bits = old := by
  apply word_ext (mergeMasked_lt ..) h
  intro b hb
  simp [lane_mergeMasked, hb]

end Sys2Proof.Machine
end

