-- ==== Sys2Proof/Laws/Ops.lean ====
section
/-! SUPPORT. What the named operations do to each word and lane of `BUF`, `DRV` and `PORT`, and that
they keep the shape of the state. Spec: 20_memory.md R50; 41_bit_expander.md R100, R104, R107;
42_frame_scheduler.md R112; 43_transport_driver.md R130. -/

namespace Sys2Proof.Machine

/-! ### Lists -/

theorem getD_modify {α : Type} (l : List α) (i j : Nat) (f : α → α) (d : α) :
    (l.modify i f).getD j d = if i = j ∧ j < l.length then f (l.getD j d) else l.getD j d := by
  simp only [List.getD_eq_getElem?_getD, List.getElem?_modify]
  by_cases hj : j < l.length
  · by_cases hi : i = j <;> simp [hi, hj]
  · simp [hj]

theorem getD_zipWith {α β γ : Type} (f : α → β → γ) (xs : List α) (ys : List β) (t : Nat)
    (a : α) (b : β) (c : γ) (hx : t < xs.length) (hy : t < ys.length) :
    (List.zipWith f xs ys).getD t c = f (xs.getD t a) (ys.getD t b) := by
  simp [List.getD_eq_getElem?_getD, hx, hy]

theorem modify_comm {α : Type} {f g : α → α} (h : ∀ x, f (g x) = g (f x)) (i : Nat) (l : List α) :
    (l.modify i g).modify i f = (l.modify i f).modify i g := by
  rw [List.modify_modify_eq, List.modify_modify_eq]
  congr 1
  exact funext h

/-- A property of every element of a modified list. -/
theorem forall_mem_modify {α : Type} {P : α → Prop} {l : List α} {i : Nat} {f : α → α}
    (h : ∀ x ∈ l, P x) (hf : ∀ x ∈ l, P (f x)) : ∀ x ∈ l.modify i f, P x := by
  intro x hx
  obtain ⟨j, hj, rfl⟩ := List.mem_iff_getElem.1 hx
  rw [List.length_modify] at hj
  rw [List.getElem_modify]
  split
  · exact hf _ (List.getElem_mem hj)
  · exact h _ (List.getElem_mem hj)

theorem forall_mem_zipWith {α β γ : Type} {P : γ → Prop} {f : α → β → γ}
    (h : ∀ a b, P (f a b)) (xs : List α) (ys : List β) : ∀ x ∈ List.zipWith f xs ys, P x := by
  induction xs generalizing ys with
  | nil => simp
  | cons a xs ih =>
    cases ys with
    | nil => simp
    | cons b ys =>
      intro x hx
      rcases List.mem_cons.1 hx with rfl | hx
      · exact h a b
      · exact ih ys x hx

theorem getD_mem {α : Type} {l : List α} {i : Nat} (d : α) (h : i < l.length) : l.getD i d ∈ l := by
  simp [h]

theorem getD_mem_or {α : Type} (l : List α) (i : Nat) (d : α) : l.getD i d = d ∨ l.getD i d ∈ l := by
  by_cases h : i < l.length
  · right; simp [h]
  · left; simp [h]

/-! ### The shape of the state -/

/-- The shape depends on six fields only. -/
theorem Shaped.congr {s t : State} (h : Shaped s) (hc : t.cfg = s.cfg) (hb : t.buf = s.buf)
    (hd : t.drv = s.drv) (hp : t.port = s.port) (he : t.en = s.en) : Shaped t := by
  constructor <;> simp only [hc, hb, hd, hp, he]
  exacts [h.bufInstances, h.bufPorts, h.bufSlices, h.bufWords, h.drvInstances, h.drvPorts,
    h.drvWords, h.portCount, h.portWords, h.enCount]

theorem two_pow_pos' (w : Nat) : 0 < 2 ^ w := Nat.two_pow_pos w

theorem Shaped.drvWord_lt {s : State} (h : Shaped s) (k p : Nat) :
    s.drvWord k p < 2 ^ s.cfg.portWidth := by
  unfold State.drvWord
  rcases getD_mem_or s.drv k [] with hk | hk
  · rw [hk]; exact Nat.two_pow_pos _
  · rcases getD_mem_or (s.drv.getD k []) p 0 with hp | hp
    · rw [hp]; exact Nat.two_pow_pos _
    · exact h.drvWords _ hk _ hp

theorem Shaped.bufWord_lt {s : State} (h : Shaped s) (k p t : Nat) :
    s.bufWord k p t < 2 ^ s.cfg.portWidth := by
  unfold State.bufWord
  rcases getD_mem_or s.buf k [] with hk | hk
  · rw [hk]; exact Nat.two_pow_pos _
  · rcases getD_mem_or (s.buf.getD k []) p [] with hp | hp
    · rw [hp]; exact Nat.two_pow_pos _
    · rcases getD_mem_or ((s.buf.getD k []).getD p []) t 0 with ht | ht
      · rw [ht]; exact Nat.two_pow_pos _
      · exact h.bufWords _ hk _ hp _ ht

theorem Shaped.portWord_lt {s : State} (h : Shaped s) (p : Nat) :
    s.portWord p < 2 ^ s.cfg.portWidth := by
  unfold State.portWord
  rcases getD_mem_or s.port p 0 with hp | hp
  · rw [hp]; exact Nat.two_pow_pos _
  · exact h.portWords _ hp

theorem Shaped.drv_length {s : State} (h : Shaped s) {k : Nat} (hk : k < s.cfg.nbuf) :
    k < s.drv.length ∧ (s.drv.getD k []).length = s.cfg.nPorts := by
  have hk' : k < s.drv.length := by rw [h.drvInstances]; exact hk
  refine ⟨hk', h.drvPorts _ ?_⟩
  simp [hk']

theorem Shaped.buf_length {s : State} (h : Shaped s) {k : Nat} (hk : k < s.cfg.nbuf) :
    k < s.buf.length ∧ (s.buf.getD k []).length = s.cfg.nPorts := by
  have hk' : k < s.buf.length := by rw [h.bufInstances]; exact hk
  refine ⟨hk', h.bufPorts _ ?_⟩
  simp [hk']

theorem Shaped.slices_length {s : State} (h : Shaped s) {k p : Nat} (hk : k < s.cfg.nbuf)
    (hp : p < s.cfg.nPorts) : ((s.buf.getD k []).getD p []).length = frameSize := by
  obtain ⟨hk', hl⟩ := h.buf_length hk
  have hp' : p < (s.buf.getD k []).length := by omega
  exact h.bufSlices _ (getD_mem _ hk') _ (getD_mem _ hp')

/-- The composing instance exists (10_state.md R29). -/
theorem composing_lt (s : State) : s.composing < s.cfg.nbuf := by
  unfold State.composing Config.nbuf
  cases s.cfg.mode
  · simp
  · simp only; exact (1 - s.act).isLt

/-- The composing instance is not the active one in `ISR` mode (10_state.md R29). -/
theorem composing_ne_act {s : State} (h : s.cfg.mode = .isr) : s.composing ≠ s.act.toNat := by
  unfold State.composing
  rw [h]
  have := s.act.isLt
  generalize s.act = a at *
  revert a; decide

/-! ### `DRV` after the operations -/

theorem drvWord_clearDrv (s : State) (k k' p : Nat) :
    (clearDrv k s).drvWord k' p = if k = k' then 0 else s.drvWord k' p := by
  unfold State.drvWord
  rw [clearDrv_drv, getD_modify]
  by_cases hk : k = k'
  · by_cases hl : k' < s.drv.length
    · by_cases hp : p < s.cfg.nPorts <;> simp [hk, hl, hp]
    · simp [hk, hl]
  · simp [hk]

theorem drvWord_driveLane_ne (s : State) {k k' : Nat} (h : k ≠ k') (p b p' : Nat) (ls : List Level) :
    (driveLane k p b ls s).drvWord k' p' = s.drvWord k' p' := by
  unfold State.drvWord
  rw [driveLane_drv, getD_modify]
  simp [h]

/-- The driven-pin masks after `EXP`: one more bit, in one mask (41_bit_expander.md R105). -/
theorem lane_drvWord_driveLane {s : State} (hs : Shaped s) {k p bit : Nat} (hk : k < s.cfg.nbuf)
    (hp : p < s.cfg.nPorts) (hb : bit < s.cfg.portWidth) (ls : List Level) (k' p' b : Nat) :
    lane ((driveLane k p bit ls s).drvWord k' p') b
      = (decide (k' = k ∧ p' = p ∧ b = bit) || lane (s.drvWord k' p') b) := by
  by_cases hkk : k = k'
  · subst hkk
    obtain ⟨hk', hl⟩ := hs.drv_length hk
    by_cases hpp : p = p'
    · subst hpp
      have : (driveLane k p bit ls s).drvWord k p = setLane s.cfg.portWidth bit true (s.drvWord k p) := by
        unfold State.drvWord
        rw [driveLane_drv, getD_modify]
        simp only [hk', and_self, if_true]
        rw [getD_modify, hl]
        simp only [hp, and_self, if_true]
      rw [this, lane_setLane]
      by_cases hbb : b = bit
      · simp [hbb, hb]
      · have := @lane_lt _ _ b (hs.drvWord_lt k p)
        cases hv : lane (s.drvWord k p) b
        · simp [hbb]
        · simp [hbb, this hv]
    · have : (driveLane k p bit ls s).drvWord k p' = s.drvWord k p' := by
        unfold State.drvWord
        rw [driveLane_drv, getD_modify]
        simp only [hk', and_self, if_true]
        rw [getD_modify]
        simp [hpp]
      have hn : ¬ p' = p := fun e => hpp e.symm
      simp [this, hn]
  · have hn : ¬ k' = k := fun e => hkk e.symm
    simp [drvWord_driveLane_ne s hkk, hn]

/-! ### `BUF` after the operations -/

@[simp] theorem bufWord_clearDrv (s : State) (k k' p t : Nat) :
    (clearDrv k s).bufWord k' p t = s.bufWord k' p t := rfl

theorem bufWord_driveLane_ne (s : State) {k k' : Nat} (h : k ≠ k') (p b p' t : Nat)
    (ls : List Level) : (driveLane k p b ls s).bufWord k' p' t = s.bufWord k' p' t := by
  unfold State.bufWord
  rw [driveLane_buf, getD_modify]
  simp [h]

/-- The buffer words after `EXP`: one lane of one port takes the levels (41_bit_expander.md R104). -/
theorem lane_bufWord_driveLane {s : State} (hs : Shaped s) {k p bit : Nat} (hk : k < s.cfg.nbuf)
    (hp : p < s.cfg.nPorts) (hb : bit < s.cfg.portWidth) {ls : List Level}
    (hls : ls.length = frameSize) (k' p' b : Nat) {t : Nat} (ht : t < frameSize) :
    lane ((driveLane k p bit ls s).bufWord k' p' t) b
      = if k' = k ∧ p' = p ∧ b = bit then ls.getD t false else lane (s.bufWord k' p' t) b := by
  by_cases hkk : k = k'
  · subst hkk
    obtain ⟨hk', hl⟩ := hs.buf_length hk
    by_cases hpp : p = p'
    · subst hpp
      have hsl := hs.slices_length hk hp
      have : (driveLane k p bit ls s).bufWord k p t
          = setLane s.cfg.portWidth bit (ls.getD t false) (s.bufWord k p t) := by
        unfold State.bufWord
        rw [driveLane_buf, getD_modify]
        simp only [hk', and_self, if_true]
        rw [getD_modify]
        simp only [hl, hp, and_self, if_true]
        exact getD_zipWith _ _ _ _ _ _ _ (by omega) (by omega)
      rw [this, lane_setLane]
      by_cases hbb : b = bit
      · simp [hbb, hb]
      · have := @lane_lt _ _ b (hs.bufWord_lt k p t)
        cases hv : lane (s.bufWord k p t) b
        · simp [hbb]
        · simp [hbb, this hv]
    · have : (driveLane k p bit ls s).bufWord k p' t = s.bufWord k p' t := by
        unfold State.bufWord
        rw [driveLane_buf, getD_modify]
        simp only [hk', and_self, if_true]
        rw [getD_modify]
        simp [hpp]
      have hn : ¬ p' = p := fun e => hpp e.symm
      simp [this, hn]
  · have hn : ¬ k' = k := fun e => hkk e.symm
    simp [bufWord_driveLane_ne s hkk, hn]

/-! ### `PORT` after a port write -/

theorem portWord_wmb (s : State) (p p' : Nat) (mask bits : PortWord) :
    (wmb p mask bits s).portWord p'
      = if p = p' ∧ p' < s.port.length then mergeMasked s.cfg.portWidth (s.portWord p') mask bits
        else s.portWord p' := by
  unfold State.portWord
  rw [wmb_port, getD_modify]

/-- The levels of the pins after a port write (43_transport_driver.md R130). -/
theorem lane_portWord_wmb {s : State} (hs : Shaped s) {p : Nat} (hp : p < s.cfg.nPorts)
    {mask : PortWord} (hm : mask < 2 ^ s.cfg.portWidth) (bits : PortWord) (p' b : Nat) :
    lane ((wmb p mask bits s).portWord p') b
      = if p' = p ∧ lane mask b = true then lane bits b else lane (s.portWord p') b := by
  rw [portWord_wmb]
  by_cases hpp : p = p'
  · subst hpp
    simp only [hs.portCount, hp, and_self, if_true, true_and]
    rw [lane_mergeMasked]
    have h1 := @lane_lt _ _ b hm
    have h2 := @lane_lt _ _ b (hs.portWord_lt p)
    cases hmb : lane mask b
    · cases ho : lane (s.portWord p) b
      · simp
      · simp [h2 ho]
    · simp [h1 hmb]
  · have hn : ¬ p' = p := fun e => hpp e.symm
    simp [hpp, hn]

/-! ### The shape is kept -/

theorem Shaped.record {s : State} (h : Shaped s) (e : Event) : Shaped (record e s) :=
  h.congr rfl rfl rfl rfl rfl

theorem Shaped.clearDrv {s : State} (h : Shaped s) (k : Nat) : Shaped (clearDrv k s) := by
  refine ⟨h.bufInstances, h.bufPorts, h.bufSlices, h.bufWords, ?_, ?_, ?_, h.portCount,
    h.portWords, h.enCount⟩
  · simpa using h.drvInstances
  · exact forall_mem_modify h.drvPorts (by simp)
  · refine forall_mem_modify h.drvWords fun _ _ w hw => ?_
    rw [List.eq_of_mem_replicate hw]; exact Nat.two_pow_pos _

theorem Shaped.driveLane {s : State} (h : Shaped s) (k p b : Nat) {ls : List Level}
    (hls : ls.length = frameSize) : Shaped (driveLane k p b ls s) := by
  refine ⟨?_, ?_, ?_, ?_, ?_, ?_, ?_, h.portCount, h.portWords, h.enCount⟩
  · simpa using h.bufInstances
  · exact forall_mem_modify h.bufPorts fun ports hm => by simpa using h.bufPorts ports hm
  · refine forall_mem_modify h.bufSlices fun ports hm => ?_
    refine forall_mem_modify (h.bufSlices ports hm) fun words hw => ?_
    have := h.bufSlices ports hm words hw
    simp [this, hls]
  · refine forall_mem_modify h.bufWords fun ports hm => ?_
    refine forall_mem_modify (h.bufWords ports hm) fun words hw => ?_
    exact forall_mem_zipWith (P := fun w => w < 2 ^ s.cfg.portWidth) (fun _ _ => setLane_lt ..) _ _
  · simpa using h.drvInstances
  · exact forall_mem_modify h.drvPorts fun masks hm => by simpa using h.drvPorts masks hm
  · refine forall_mem_modify h.drvWords fun masks hm => ?_
    exact forall_mem_modify (h.drvWords masks hm) fun _ _ => setLane_lt ..

theorem Shaped.wmb {s : State} (h : Shaped s) (p : Nat) (mask bits : PortWord) :
    Shaped (wmb p mask bits s) := by
  refine ⟨h.bufInstances, h.bufPorts, h.bufSlices, h.bufWords, h.drvInstances, h.drvPorts,
    h.drvWords, ?_, ?_, h.enCount⟩
  · simpa using h.portCount
  · exact forall_mem_modify h.portWords fun _ _ => mergeMasked_lt ..

/-- The state an instance is launched in has the shape of its configuration. -/
theorem Shaped.launch (c : Config) (img : List ImageCell) : Shaped (State.launch c img) := by
  constructor <;> simp +contextual [State.launch, Config.strandCount]

/-! ### The words after reset (10_state.md R41) -/

theorem drvWord_launch (c : Config) (img : List ImageCell) (k p : Nat) :
    (State.launch c img).drvWord k p = 0 := by
  have key : ∀ masks ∈ (State.launch c img).drv, ∀ w ∈ masks, w = 0 := by
    simp +contextual [State.launch]
  unfold State.drvWord
  rcases getD_mem_or (State.launch c img).drv k [] with hk | hk
  · rw [hk]; rfl
  · exact (getD_mem_or _ p 0).elim id fun h => key _ hk _ h

theorem portWord_launch (c : Config) (img : List ImageCell) (p : Nat) :
    (State.launch c img).portWord p = 0 := by
  have key : ∀ w ∈ (State.launch c img).port, w = 0 := by simp +contextual [State.launch]
  exact (getD_mem_or _ p 0).elim id fun h => key _ h

/-! ### The order of expansions (41_bit_expander.md R104) -/

/-- Lanes of two different pins may be driven in either order (41_bit_expander.md R104). -/
theorem driveLane_comm (k : Nat) {p p' b b' : Nat} (h : (p, b) ≠ (p', b')) (ls ls' : List Level)
    (s : State) : driveLane k p b ls (driveLane k p' b' ls' s)
      = driveLane k p' b' ls' (driveLane k p b ls s) := by
  have hbuf : ∀ w, ((s.buf.modify k fun ports => ports.modify p' fun words =>
        List.zipWith (fun old level => setLane w b' level old) words ls').modify k fun ports =>
          ports.modify p fun words => List.zipWith (fun old level => setLane w b level old) words ls)
      = (s.buf.modify k fun ports => ports.modify p fun words =>
        List.zipWith (fun old level => setLane w b level old) words ls).modify k fun ports =>
          ports.modify p' fun words => List.zipWith (fun old level => setLane w b' level old) words ls' := by
    intro w
    apply modify_comm
    intro ports
    by_cases hp : p = p'
    · subst hp
      have hb : b ≠ b' := fun e => h (by rw [e])
      apply modify_comm
      intro words
      apply List.ext_getElem
      · simp only [List.length_zipWith]; omega
      · intro j _ _
        simp only [List.getElem_zipWith]
        exact setLane_comm _ hb.symm ..
    · exact List.modify_modify_ne _ _ _ (Ne.symm hp)
  have hdrv : ∀ w, ((s.drv.modify k fun masks => masks.modify p' (setLane w b' true)).modify k
        fun masks => masks.modify p (setLane w b true))
      = (s.drv.modify k fun masks => masks.modify p (setLane w b true)).modify k
        fun masks => masks.modify p' (setLane w b' true) := by
    intro w
    apply modify_comm
    intro masks
    by_cases hp : p = p'
    · subst hp
      have hb : b ≠ b' := fun e => h (by rw [e])
      apply modify_comm
      intro word
      exact setLane_comm _ hb.symm ..
    · exact List.modify_modify_ne _ _ _ (Ne.symm hp)
  ext1 <;> first | rfl | exact hbuf _ | exact hdrv _

/-- Of two drives of one lane the later wins (41_bit_expander.md R104). -/
theorem driveLane_driveLane (k p b : Nat) {ls ls' : List Level} (h : ls.length = ls'.length)
    (s : State) : driveLane k p b ls' (driveLane k p b ls s) = driveLane k p b ls' s := by
  have hbuf : ∀ w, ((s.buf.modify k fun ports => ports.modify p fun words =>
        List.zipWith (fun old level => setLane w b level old) words ls).modify k fun ports =>
          ports.modify p fun words => List.zipWith (fun old level => setLane w b level old) words ls')
      = s.buf.modify k fun ports => ports.modify p fun words =>
        List.zipWith (fun old level => setLane w b level old) words ls' := by
    intro w
    rw [List.modify_modify_eq]
    congr 1
    funext ports
    simp only [Function.comp, List.modify_modify_eq]
    congr 1
    funext words
    apply List.ext_getElem
    · simp only [Function.comp, List.length_zipWith]; omega
    · intro j _ _
      simp only [Function.comp, List.getElem_zipWith]
      exact setLane_setLane ..
  have hdrv : ∀ w, ((s.drv.modify k fun masks => masks.modify p (setLane w b true)).modify k
        fun masks => masks.modify p (setLane w b true))
      = s.drv.modify k fun masks => masks.modify p (setLane w b true) := by
    intro w
    rw [List.modify_modify_eq]
    congr 1
    funext masks
    simp only [Function.comp, List.modify_modify_eq]
    congr 1
    funext word
    exact setLane_setLane ..
  ext1 <;> first | rfl | exact hbuf _ | exact hdrv _

end Sys2Proof.Machine
end

