-- ==== Sys2Proof/Laws/Expander.lean ====
section
/-! SUPPORT. The levels of a Physical Frame, and what `EXP` can do.
Spec: 41_bit_expander.md R100 to R105. -/

namespace Sys2Proof.Machine

@[simp] theorem levels_length (lf : LogicalFrame) : (levels lf).length = frameSize := by
  simp [levels]

theorem levels_getD (lf : LogicalFrame) {t : Nat} (ht : t < frameSize) :
    (levels lf).getD t false = lev lf t := by
  rw [List.getD_eq_getElem _ _ (by simpa using ht)]
  simp [levels]

/-- The idle slice is low: a driven pin is low after its frame (R102 (b)). -/
@[simp] theorem lev_idle (lf : LogicalFrame) : lev lf (frameSize - 1) = false := rfl

/-- The start slice is high (R102 (b)). -/
@[simp] theorem lev_start (lf : LogicalFrame) : lev lf 0 = true := rfl

/-- A recognised pin lies on an existing bit of an existing port (R103). -/
theorem pinMap_range {c : Config} {pin : Byte} {p b : Nat} (h : pinMap c pin = some (p, b)) :
    p < c.nPorts ∧ b < c.portWidth := by
  unfold pinMap at h
  split at h
  · split at h
    · next hr => cases h; exact hr
    · cases h
  · cases h

/-- What `EXP` can do: raise `InvalidPin` with nothing else written, or drive one lane (R100, R103). -/
theorem expand_cases (k : Nat) (pin : Byte) (lf : LogicalFrame) (s : State) :
    (pinMap s.cfg pin = none ∧ expand k pin lf s
        = .raised { s with fault := if s.fault = .none then .invalidPin pin else s.fault }) ∨
    (∃ p b, pinMap s.cfg pin = some (p, b) ∧ expand k pin lf s = .ok (driveLane k p b (levels lf) s)) := by
  unfold expand
  cases h : pinMap s.cfg pin with
  | none => exact .inl ⟨rfl, rfl⟩
  | some pb => exact .inr ⟨pb.1, pb.2, rfl, rfl⟩

theorem expand_of_some {k : Nat} {pin : Byte} {lf : LogicalFrame} {s : State} {p b : Nat}
    (h : pinMap s.cfg pin = some (p, b)) :
    expand k pin lf s = .ok (driveLane k p b (levels lf) s) := by
  simp [expand, h]

/-- `lev` at the second slice of cell `j`, the only one that depends on the frame (R101). -/
theorem lev_cell (lf : LogicalFrame) {j : Nat} (hj : j < lbits) (phase : Nat) (hp : phase < 3) :
    lev lf (1 + 3 * j + phase) = cellLevel (wireBit lf j) phase := by
  unfold lev
  have h1 : ¬ (1 + 3 * j + phase = 0) := by omega
  have h2 : 1 + 3 * j + phase < frameSize - 1 := by unfold frameSize; omega
  have h3 : (1 + 3 * j + phase - 1) / 3 = j := by omega
  have h4 : (1 + 3 * j + phase - 1) % 3 = phase := by omega
  rw [if_neg h1, if_pos h2, h3, h4]

end Sys2Proof.Machine
end

