-- ==== Sys2Proof/Laws/Transport.lean ====
section
/-! SUPPORT. What the transport does: one slice, a row of slices, a tick, a row of ticks, the spin.
Spec: 43_transport_driver.md R131 to R138. -/

namespace Sys2Proof.Machine

/-! ### One slice (R131) -/

/-- Everything but `PORT` and the history. -/
def SamePort (s t : State) : Prop :=
  t = { s with port := t.port, history := t.history }

theorem foldl_wmb_same (m v : Nat → PortWord) (ps : List Nat) (u : State) :
    SamePort u (ps.foldl (fun u p => wmb p (m p) (v p) u) u) := by
  induction ps generalizing u with
  | nil => rfl
  | cons p ps ih =>
    have := ih (wmb p (m p) (v p) u)
    unfold SamePort at *
    rw [List.foldl_cons, this]
    rfl

theorem foldl_wmb_history (m v : Nat → PortWord) (ps : List Nat) (u : State) :
    (ps.foldl (fun u p => wmb p (m p) (v p) u) u).history
      = u.history ++ ps.map fun p => .wmb p (m p) (v p) := by
  induction ps generalizing u with
  | nil => simp
  | cons p ps ih => rw [List.foldl_cons, ih]; simp

theorem Shaped.foldl_wmb (m v : Nat → PortWord) (ps : List Nat) {u : State} (h : Shaped u) :
    Shaped (ps.foldl (fun u p => Machine.wmb p (m p) (v p) u) u) := by
  induction ps generalizing u with
  | nil => exact h
  | cons p ps ih => exact ih (h.wmb ..)

theorem lane_foldl_wmb (m v : Nat → PortWord) (ps : List Nat) {u : State} (h : Shaped u)
    (hp : ∀ p ∈ ps, p < u.cfg.nPorts) (hm : ∀ p, m p < 2 ^ u.cfg.portWidth) (q b : Nat) :
    lane ((ps.foldl (fun u p => wmb p (m p) (v p) u) u).portWord q) b
      = if q ∈ ps ∧ lane (m q) b = true then lane (v q) b else lane (u.portWord q) b := by
  induction ps generalizing u with
  | nil => simp
  | cons p ps ih =>
    rw [List.foldl_cons, ih (h.wmb ..) (fun q hq => hp q (by simp [hq])) hm]
    rw [lane_portWord_wmb h (hp p (by simp)) (hm p)]
    by_cases hq : q ∈ ps <;> by_cases hqp : q = p <;> cases hl : lane (m q) b <;>
      simp_all

theorem sliceout_same (k t : Nat) (s : State) : SamePort s (sliceout k t s) := foldl_wmb_same _ _ _ _

@[simp] theorem sliceout_cfg (k t : Nat) (s : State) : (sliceout k t s).cfg = s.cfg :=
  by rw [sliceout_same k t s]
@[simp] theorem sliceout_img (k t : Nat) (s : State) : (sliceout k t s).img = s.img :=
  by rw [sliceout_same k t s]
@[simp] theorem sliceout_en (k t : Nat) (s : State) : (sliceout k t s).en = s.en :=
  by rw [sliceout_same k t s]
@[simp] theorem sliceout_gi (k t : Nat) (s : State) : (sliceout k t s).gi = s.gi :=
  by rw [sliceout_same k t s]
@[simp] theorem sliceout_lf (k t : Nat) (s : State) : (sliceout k t s).lf = s.lf :=
  by rw [sliceout_same k t s]
@[simp] theorem sliceout_row (k t : Nat) (s : State) : (sliceout k t s).row = s.row :=
  by rw [sliceout_same k t s]
@[simp] theorem sliceout_sidx (k t : Nat) (s : State) : (sliceout k t s).sidx = s.sidx :=
  by rw [sliceout_same k t s]
@[simp] theorem sliceout_buf (k t : Nat) (s : State) : (sliceout k t s).buf = s.buf :=
  by rw [sliceout_same k t s]
@[simp] theorem sliceout_drv (k t : Nat) (s : State) : (sliceout k t s).drv = s.drv :=
  by rw [sliceout_same k t s]
@[simp] theorem sliceout_act (k t : Nat) (s : State) : (sliceout k t s).act = s.act :=
  by rw [sliceout_same k t s]
@[simp] theorem sliceout_send (k t : Nat) (s : State) : (sliceout k t s).send = s.send :=
  by rw [sliceout_same k t s]
@[simp] theorem sliceout_cur (k t : Nat) (s : State) : (sliceout k t s).cur = s.cur :=
  by rw [sliceout_same k t s]
@[simp] theorem sliceout_fault (k t : Nat) (s : State) : (sliceout k t s).fault = s.fault :=
  by rw [sliceout_same k t s]
@[simp] theorem sliceout_cmds (k t : Nat) (s : State) : (sliceout k t s).cmds = s.cmds :=
  by rw [sliceout_same k t s]
@[simp] theorem sliceout_answers (k t : Nat) (s : State) : (sliceout k t s).answers = s.answers :=
  by rw [sliceout_same k t s]
@[simp] theorem sliceout_sched (k t : Nat) (s : State) : (sliceout k t s).sched = s.sched :=
  by rw [sliceout_same k t s]
@[simp] theorem sliceout_tickFires (k t : Nat) (s : State) : (sliceout k t s).tickFires = s.tickFires :=
  by rw [sliceout_same k t s]
@[simp] theorem sliceout_hung (k t : Nat) (s : State) : (sliceout k t s).hung = s.hung :=
  by rw [sliceout_same k t s]
@[simp] theorem sliceout_draws (k t : Nat) (s : State) : (sliceout k t s).draws = s.draws :=
  by rw [sliceout_same k t s]

@[simp] theorem sliceout_history (k t : Nat) (s : State) :
    (sliceout k t s).history = s.history ++ sliceEvents s k t := foldl_wmb_history _ _ _ _

theorem Shaped.sliceout {s : State} (h : Shaped s) (k t : Nat) : Shaped (sliceout k t s) :=
  h.foldl_wmb _ _ _

/-- A mask register that does not exist reads as empty. -/
theorem Shaped.drvWord_eq_zero {s : State} (h : Shaped s) (k : Nat) {p : Nat}
    (hp : s.cfg.nPorts ≤ p) : s.drvWord k p = 0 := by
  unfold State.drvWord
  rcases getD_mem_or s.drv k [] with hk | hk
  · rw [hk]; rfl
  · have := h.drvPorts _ hk
    rw [List.getD_eq_getElem?_getD, List.getElem?_eq_none (by omega)]; rfl

/-- After `SLICEOUT(k, t)` every driven pin has the level of slice `t`, every other pin its old level
(R131). -/
theorem lane_portWord_sliceout {s : State} (h : Shaped s) (k t q b : Nat) :
    lane ((sliceout k t s).portWord q) b
      = if lane (s.drvWord k q) b = true then lane (s.bufWord k q t) b
        else lane (s.portWord q) b := by
  unfold sliceout
  rw [lane_foldl_wmb _ _ _ h (fun p hp => List.mem_range.1 hp) fun p => h.drvWord_lt k p]
  by_cases hq : q < s.cfg.nPorts
  · simp [hq]
  · simp [hq, h.drvWord_eq_zero k (Nat.le_of_not_lt hq)]

/-- Slices read the buffers and masks only, which no slice writes. -/
theorem sliceEvents_congr {s u : State} (hc : u.cfg = s.cfg) (hb : u.buf = s.buf)
    (hd : u.drv = s.drv) (k t : Nat) : sliceEvents u k t = sliceEvents s k t := by
  simp only [sliceEvents, State.drvWord, State.bufWord, hc, hb, hd]

/-! ### The first slices of an instance (R132) -/

@[simp] theorem slicesOut_cfg (k n : Nat) (s : State) : (slicesOut k n s).cfg = s.cfg :=
  by
  induction n with | zero => rfl | succ n ih => simp [slicesOut, ih]
@[simp] theorem slicesOut_img (k n : Nat) (s : State) : (slicesOut k n s).img = s.img :=
  by
  induction n with | zero => rfl | succ n ih => simp [slicesOut, ih]
@[simp] theorem slicesOut_en (k n : Nat) (s : State) : (slicesOut k n s).en = s.en :=
  by
  induction n with | zero => rfl | succ n ih => simp [slicesOut, ih]
@[simp] theorem slicesOut_gi (k n : Nat) (s : State) : (slicesOut k n s).gi = s.gi :=
  by
  induction n with | zero => rfl | succ n ih => simp [slicesOut, ih]
@[simp] theorem slicesOut_lf (k n : Nat) (s : State) : (slicesOut k n s).lf = s.lf :=
  by
  induction n with | zero => rfl | succ n ih => simp [slicesOut, ih]
@[simp] theorem slicesOut_row (k n : Nat) (s : State) : (slicesOut k n s).row = s.row :=
  by
  induction n with | zero => rfl | succ n ih => simp [slicesOut, ih]
@[simp] theorem slicesOut_sidx (k n : Nat) (s : State) : (slicesOut k n s).sidx = s.sidx :=
  by
  induction n with | zero => rfl | succ n ih => simp [slicesOut, ih]
@[simp] theorem slicesOut_buf (k n : Nat) (s : State) : (slicesOut k n s).buf = s.buf :=
  by
  induction n with | zero => rfl | succ n ih => simp [slicesOut, ih]
@[simp] theorem slicesOut_drv (k n : Nat) (s : State) : (slicesOut k n s).drv = s.drv :=
  by
  induction n with | zero => rfl | succ n ih => simp [slicesOut, ih]
@[simp] theorem slicesOut_act (k n : Nat) (s : State) : (slicesOut k n s).act = s.act :=
  by
  induction n with | zero => rfl | succ n ih => simp [slicesOut, ih]
@[simp] theorem slicesOut_send (k n : Nat) (s : State) : (slicesOut k n s).send = s.send :=
  by
  induction n with | zero => rfl | succ n ih => simp [slicesOut, ih]
@[simp] theorem slicesOut_cur (k n : Nat) (s : State) : (slicesOut k n s).cur = s.cur :=
  by
  induction n with | zero => rfl | succ n ih => simp [slicesOut, ih]
@[simp] theorem slicesOut_fault (k n : Nat) (s : State) : (slicesOut k n s).fault = s.fault :=
  by
  induction n with | zero => rfl | succ n ih => simp [slicesOut, ih]
@[simp] theorem slicesOut_cmds (k n : Nat) (s : State) : (slicesOut k n s).cmds = s.cmds :=
  by
  induction n with | zero => rfl | succ n ih => simp [slicesOut, ih]
@[simp] theorem slicesOut_answers (k n : Nat) (s : State) : (slicesOut k n s).answers = s.answers :=
  by
  induction n with | zero => rfl | succ n ih => simp [slicesOut, ih]
@[simp] theorem slicesOut_sched (k n : Nat) (s : State) : (slicesOut k n s).sched = s.sched :=
  by
  induction n with | zero => rfl | succ n ih => simp [slicesOut, ih]
@[simp] theorem slicesOut_tickFires (k n : Nat) (s : State) : (slicesOut k n s).tickFires = s.tickFires :=
  by
  induction n with | zero => rfl | succ n ih => simp [slicesOut, ih]
@[simp] theorem slicesOut_hung (k n : Nat) (s : State) : (slicesOut k n s).hung = s.hung :=
  by
  induction n with | zero => rfl | succ n ih => simp [slicesOut, ih]
@[simp] theorem slicesOut_draws (k n : Nat) (s : State) : (slicesOut k n s).draws = s.draws :=
  by
  induction n with | zero => rfl | succ n ih => simp [slicesOut, ih]

@[simp] theorem slicesOut_history (k n : Nat) (s : State) :
    (slicesOut k n s).history = s.history ++ slicesEvents s k 0 n := by
  induction n with
  | zero => simp [slicesOut, slicesEvents]
  | succ n ih =>
    unfold slicesOut
    rw [sliceout_history, ih, sliceEvents_congr (s := s) (by simp) (by simp) (by simp)]
    simp [slicesEvents, List.range_succ]

theorem Shaped.slicesOut {s : State} (h : Shaped s) (k n : Nat) : Shaped (slicesOut k n s) := by
  induction n with
  | zero => exact h
  | succ n ih => exact ih.sliceout k n

/-- After `n + 1` slices every driven pin has the level of slice `n`, every other pin its old level. -/
theorem lane_portWord_slicesOut {s : State} (h : Shaped s) (k n q b : Nat) :
    lane ((slicesOut k (n + 1) s).portWord q) b
      = if lane (s.drvWord k q) b = true then lane (s.bufWord k q n) b
        else lane (s.portWord q) b := by
  have step : ∀ m, lane ((slicesOut k (m + 1) s).portWord q) b
      = if lane (s.drvWord k q) b = true then lane (s.bufWord k q m) b
        else lane ((slicesOut k m s).portWord q) b := by
    intro m
    have := lane_portWord_sliceout (h.slicesOut k m) k m q b
    simp only [State.drvWord, State.bufWord, slicesOut_drv, slicesOut_buf] at this
    exact this
  induction n with
  | zero => exact step 0
  | succ n ih =>
    rw [step (n + 1), ih]
    split <;> rfl

/-! ### One tick (R135, R138) -/

@[simp] theorem advanceCursor_cfg (s : State) : (advanceCursor s).cfg = s.cfg :=
  by
  unfold advanceCursor; split <;> rfl
@[simp] theorem advanceCursor_img (s : State) : (advanceCursor s).img = s.img :=
  by
  unfold advanceCursor; split <;> rfl
@[simp] theorem advanceCursor_en (s : State) : (advanceCursor s).en = s.en :=
  by
  unfold advanceCursor; split <;> rfl
@[simp] theorem advanceCursor_gi (s : State) : (advanceCursor s).gi = s.gi :=
  by
  unfold advanceCursor; split <;> rfl
@[simp] theorem advanceCursor_lf (s : State) : (advanceCursor s).lf = s.lf :=
  by
  unfold advanceCursor; split <;> rfl
@[simp] theorem advanceCursor_row (s : State) : (advanceCursor s).row = s.row :=
  by
  unfold advanceCursor; split <;> rfl
@[simp] theorem advanceCursor_sidx (s : State) : (advanceCursor s).sidx = s.sidx :=
  by
  unfold advanceCursor; split <;> rfl
@[simp] theorem advanceCursor_buf (s : State) : (advanceCursor s).buf = s.buf :=
  by
  unfold advanceCursor; split <;> rfl
@[simp] theorem advanceCursor_drv (s : State) : (advanceCursor s).drv = s.drv :=
  by
  unfold advanceCursor; split <;> rfl
@[simp] theorem advanceCursor_act (s : State) : (advanceCursor s).act = s.act :=
  by
  unfold advanceCursor; split <;> rfl
@[simp] theorem advanceCursor_port (s : State) : (advanceCursor s).port = s.port :=
  by
  unfold advanceCursor; split <;> rfl
@[simp] theorem advanceCursor_fault (s : State) : (advanceCursor s).fault = s.fault :=
  by
  unfold advanceCursor; split <;> rfl
@[simp] theorem advanceCursor_cmds (s : State) : (advanceCursor s).cmds = s.cmds :=
  by
  unfold advanceCursor; split <;> rfl
@[simp] theorem advanceCursor_answers (s : State) : (advanceCursor s).answers = s.answers :=
  by
  unfold advanceCursor; split <;> rfl
@[simp] theorem advanceCursor_history (s : State) : (advanceCursor s).history = s.history :=
  by
  unfold advanceCursor; split <;> rfl
@[simp] theorem advanceCursor_sched (s : State) : (advanceCursor s).sched = s.sched :=
  by
  unfold advanceCursor; split <;> rfl
@[simp] theorem advanceCursor_tickFires (s : State) : (advanceCursor s).tickFires = s.tickFires :=
  by
  unfold advanceCursor; split <;> rfl
@[simp] theorem advanceCursor_hung (s : State) : (advanceCursor s).hung = s.hung :=
  by
  unfold advanceCursor; split <;> rfl
@[simp] theorem advanceCursor_draws (s : State) : (advanceCursor s).draws = s.draws :=
  by
  unfold advanceCursor; split <;> rfl

@[simp] theorem tickOutput_cfg (s : State) : (tickOutput s).cfg = s.cfg :=
  by
  unfold tickOutput; split <;> simp
@[simp] theorem tickOutput_img (s : State) : (tickOutput s).img = s.img :=
  by
  unfold tickOutput; split <;> simp
@[simp] theorem tickOutput_en (s : State) : (tickOutput s).en = s.en :=
  by
  unfold tickOutput; split <;> simp
@[simp] theorem tickOutput_gi (s : State) : (tickOutput s).gi = s.gi :=
  by
  unfold tickOutput; split <;> simp
@[simp] theorem tickOutput_lf (s : State) : (tickOutput s).lf = s.lf :=
  by
  unfold tickOutput; split <;> simp
@[simp] theorem tickOutput_row (s : State) : (tickOutput s).row = s.row :=
  by
  unfold tickOutput; split <;> simp
@[simp] theorem tickOutput_sidx (s : State) : (tickOutput s).sidx = s.sidx :=
  by
  unfold tickOutput; split <;> simp
@[simp] theorem tickOutput_buf (s : State) : (tickOutput s).buf = s.buf :=
  by
  unfold tickOutput; split <;> simp
@[simp] theorem tickOutput_drv (s : State) : (tickOutput s).drv = s.drv :=
  by
  unfold tickOutput; split <;> simp
@[simp] theorem tickOutput_act (s : State) : (tickOutput s).act = s.act :=
  by
  unfold tickOutput; split <;> simp
@[simp] theorem tickOutput_send (s : State) : (tickOutput s).send = s.send :=
  by
  unfold tickOutput; split <;> simp
@[simp] theorem tickOutput_cur (s : State) : (tickOutput s).cur = s.cur :=
  by
  unfold tickOutput; split <;> simp
@[simp] theorem tickOutput_fault (s : State) : (tickOutput s).fault = s.fault :=
  by
  unfold tickOutput; split <;> simp
@[simp] theorem tickOutput_cmds (s : State) : (tickOutput s).cmds = s.cmds :=
  by
  unfold tickOutput; split <;> simp
@[simp] theorem tickOutput_answers (s : State) : (tickOutput s).answers = s.answers :=
  by
  unfold tickOutput; split <;> simp
@[simp] theorem tickOutput_sched (s : State) : (tickOutput s).sched = s.sched :=
  by
  unfold tickOutput; split <;> simp
@[simp] theorem tickOutput_tickFires (s : State) : (tickOutput s).tickFires = s.tickFires :=
  by
  unfold tickOutput; split <;> simp
@[simp] theorem tickOutput_hung (s : State) : (tickOutput s).hung = s.hung :=
  by
  unfold tickOutput; split <;> simp
@[simp] theorem tickOutput_draws (s : State) : (tickOutput s).draws = s.draws :=
  by
  unfold tickOutput; split <;> simp

@[simp] theorem tickBody_cfg (s : State) : (tickBody s).cfg = s.cfg :=
  by
  unfold tickBody; split <;> simp
@[simp] theorem tickBody_img (s : State) : (tickBody s).img = s.img :=
  by
  unfold tickBody; split <;> simp
@[simp] theorem tickBody_en (s : State) : (tickBody s).en = s.en :=
  by
  unfold tickBody; split <;> simp
@[simp] theorem tickBody_gi (s : State) : (tickBody s).gi = s.gi :=
  by
  unfold tickBody; split <;> simp
@[simp] theorem tickBody_lf (s : State) : (tickBody s).lf = s.lf :=
  by
  unfold tickBody; split <;> simp
@[simp] theorem tickBody_row (s : State) : (tickBody s).row = s.row :=
  by
  unfold tickBody; split <;> simp
@[simp] theorem tickBody_sidx (s : State) : (tickBody s).sidx = s.sidx :=
  by
  unfold tickBody; split <;> simp
@[simp] theorem tickBody_buf (s : State) : (tickBody s).buf = s.buf :=
  by
  unfold tickBody; split <;> simp
@[simp] theorem tickBody_drv (s : State) : (tickBody s).drv = s.drv :=
  by
  unfold tickBody; split <;> simp
@[simp] theorem tickBody_act (s : State) : (tickBody s).act = s.act :=
  by
  unfold tickBody; split <;> simp
@[simp] theorem tickBody_fault (s : State) : (tickBody s).fault = s.fault :=
  by
  unfold tickBody; split <;> simp
@[simp] theorem tickBody_cmds (s : State) : (tickBody s).cmds = s.cmds :=
  by
  unfold tickBody; split <;> simp
@[simp] theorem tickBody_answers (s : State) : (tickBody s).answers = s.answers :=
  by
  unfold tickBody; split <;> simp
@[simp] theorem tickBody_sched (s : State) : (tickBody s).sched = s.sched :=
  by
  unfold tickBody; split <;> simp
@[simp] theorem tickBody_tickFires (s : State) : (tickBody s).tickFires = s.tickFires :=
  by
  unfold tickBody; split <;> simp
@[simp] theorem tickBody_hung (s : State) : (tickBody s).hung = s.hung :=
  by
  unfold tickBody; split <;> simp
@[simp] theorem tickBody_draws (s : State) : (tickBody s).draws = s.draws :=
  by
  unfold tickBody; split <;> simp

theorem tickBody_idle {s : State} (h : s.send = false) : tickBody s = record .idleTick s := by
  simp [tickBody, h]

/-- The events of the next `n` ticks of a frame in flight: slices, then quiet ticks. -/
def flightEvents (s : State) (n : Nat) : List Event :=
  (List.range n).flatMap fun i =>
    if s.cur + i < frameSize then sliceEvents s s.act.toNat (s.cur + i) else [.quietTick]

theorem flightEvents_succ (s : State) (n : Nat) :
    flightEvents s (n + 1) = flightEvents s n
      ++ (if s.cur + n < frameSize then sliceEvents s s.act.toNat (s.cur + n) else [.quietTick]) := by
  simp [flightEvents, List.range_succ]

theorem tickOutput_history (s : State) :
    (tickOutput s).history = s.history
      ++ (if s.cur < frameSize then sliceEvents s s.act.toNat s.cur else [.quietTick]) := by
  unfold tickOutput; split <;> simp

/-- What a tick puts into the history (R135). -/
theorem tickBody_history (s : State) :
    (tickBody s).history = s.history
      ++ (if s.send then
            (if s.cur < frameSize then sliceEvents s s.act.toNat s.cur else [.quietTick])
          else [.idleTick]) := by
  unfold tickBody
  split
  · rw [← tickOutput_history]; unfold advanceCursor; split <;> rfl
  · rfl

/-- The flag after a tick: cleared by the tick that reaches Done (R138). -/
theorem tickBody_send (s : State) :
    (tickBody s).send = (s.send && !decide (s.cur + 1 = frameSize + s.cfg.quietTicks)) := by
  unfold tickBody
  cases h : s.send
  · simp [h]
  · simp only [if_true, Bool.true_and]
    unfold advanceCursor
    simp only [tickOutput_cur, tickOutput_cfg]
    split <;> simp [*]

/-- The cursor after a tick (R138). -/
theorem tickBody_cur (s : State) :
    (tickBody s).cur = if s.send then
        (if s.cur + 1 = frameSize + s.cfg.quietTicks then 0 else s.cur + 1) else s.cur := by
  unfold tickBody
  cases h : s.send
  · simp
  · simp only [if_true]
    unfold advanceCursor
    simp only [tickOutput_cur, tickOutput_cfg]
    split <;> simp

/-- The pins after a tick: a slice moves the driven pins of the active instance, all else keeps its
level (R131, R135). -/
theorem lane_portWord_tickBody {s : State} (h : Shaped s) (q b : Nat) :
    lane ((tickBody s).portWord q) b
      = if s.send = true ∧ s.cur < frameSize ∧ lane (s.drvWord s.act.toNat q) b = true then
          lane (s.bufWord s.act.toNat q s.cur) b
        else lane (s.portWord q) b := by
  have ha : ∀ u : State, (advanceCursor u).portWord q = u.portWord q := by
    intro u; unfold advanceCursor; split <;> rfl
  unfold tickBody
  cases hs : s.send
  · simp [State.portWord]
  · simp only [if_true, true_and, ha]
    unfold tickOutput
    by_cases hc : s.cur < frameSize
    · simp only [hc, if_true, true_and]
      exact lane_portWord_sliceout h _ _ _ _
    · simp [hc, State.portWord]

theorem Shaped.tickBody {s : State} (h : Shaped s) : Shaped (tickBody s) := by
  have hc : ∀ {u : State}, Shaped u → Shaped (advanceCursor u) := fun hu =>
    hu.congr (by simp) (by simp) (by simp) (by simp) (by simp)
  unfold Machine.tickBody
  split
  · unfold tickOutput
    split
    · exact hc (h.sliceout ..)
    · exact hc (h.record _)
  · exact h.record _

/-- The cursor stays in its range through a tick (10_state.md R42 (b)). -/
theorem cur_tickBody_lt {s : State} (hc : s.cur < frameSize + s.cfg.quietTicks) :
    (tickBody s).cur < frameSize + s.cfg.quietTicks := by
  rw [tickBody_cur]; split
  · split <;> omega
  · exact hc

/-! ### A row of ticks -/

theorem ticks_add (m n : Nat) (s : State) : ticks (m + n) s = ticks n (ticks m s) := by
  induction m generalizing s with
  | zero => simp [ticks]
  | succ m ih => rw [Nat.succ_add]; exact ih _

theorem ticks_succ (n : Nat) (s : State) : ticks (n + 1) s = tickBody (ticks n s) := ticks_add n 1 s

@[simp] theorem ticks_cfg (n : Nat) (s : State) : (ticks n s).cfg = s.cfg :=
  by
  induction n with | zero => rfl | succ n ih => rw [ticks_succ]; simp [ih]
@[simp] theorem ticks_img (n : Nat) (s : State) : (ticks n s).img = s.img :=
  by
  induction n with | zero => rfl | succ n ih => rw [ticks_succ]; simp [ih]
@[simp] theorem ticks_en (n : Nat) (s : State) : (ticks n s).en = s.en :=
  by
  induction n with | zero => rfl | succ n ih => rw [ticks_succ]; simp [ih]
@[simp] theorem ticks_gi (n : Nat) (s : State) : (ticks n s).gi = s.gi :=
  by
  induction n with | zero => rfl | succ n ih => rw [ticks_succ]; simp [ih]
@[simp] theorem ticks_lf (n : Nat) (s : State) : (ticks n s).lf = s.lf :=
  by
  induction n with | zero => rfl | succ n ih => rw [ticks_succ]; simp [ih]
@[simp] theorem ticks_row (n : Nat) (s : State) : (ticks n s).row = s.row :=
  by
  induction n with | zero => rfl | succ n ih => rw [ticks_succ]; simp [ih]
@[simp] theorem ticks_sidx (n : Nat) (s : State) : (ticks n s).sidx = s.sidx :=
  by
  induction n with | zero => rfl | succ n ih => rw [ticks_succ]; simp [ih]
@[simp] theorem ticks_buf (n : Nat) (s : State) : (ticks n s).buf = s.buf :=
  by
  induction n with | zero => rfl | succ n ih => rw [ticks_succ]; simp [ih]
@[simp] theorem ticks_drv (n : Nat) (s : State) : (ticks n s).drv = s.drv :=
  by
  induction n with | zero => rfl | succ n ih => rw [ticks_succ]; simp [ih]
@[simp] theorem ticks_act (n : Nat) (s : State) : (ticks n s).act = s.act :=
  by
  induction n with | zero => rfl | succ n ih => rw [ticks_succ]; simp [ih]
@[simp] theorem ticks_fault (n : Nat) (s : State) : (ticks n s).fault = s.fault :=
  by
  induction n with | zero => rfl | succ n ih => rw [ticks_succ]; simp [ih]
@[simp] theorem ticks_cmds (n : Nat) (s : State) : (ticks n s).cmds = s.cmds :=
  by
  induction n with | zero => rfl | succ n ih => rw [ticks_succ]; simp [ih]
@[simp] theorem ticks_answers (n : Nat) (s : State) : (ticks n s).answers = s.answers :=
  by
  induction n with | zero => rfl | succ n ih => rw [ticks_succ]; simp [ih]
@[simp] theorem ticks_sched (n : Nat) (s : State) : (ticks n s).sched = s.sched :=
  by
  induction n with | zero => rfl | succ n ih => rw [ticks_succ]; simp [ih]
@[simp] theorem ticks_tickFires (n : Nat) (s : State) : (ticks n s).tickFires = s.tickFires :=
  by
  induction n with | zero => rfl | succ n ih => rw [ticks_succ]; simp [ih]
@[simp] theorem ticks_hung (n : Nat) (s : State) : (ticks n s).hung = s.hung :=
  by
  induction n with | zero => rfl | succ n ih => rw [ticks_succ]; simp [ih]
@[simp] theorem ticks_draws (n : Nat) (s : State) : (ticks n s).draws = s.draws :=
  by
  induction n with | zero => rfl | succ n ih => rw [ticks_succ]; simp [ih]

/-- Ticks read and write no schedule. -/
theorem ticks_setSched (n : Nat) (l : List Nat) (s : State) :
    ticks n (setSched l s) = setSched l (ticks n s) := by
  have hw : ∀ (m v : Nat → PortWord) (ps : List Nat) (u : State),
      ps.foldl (fun u p => wmb p (m p) (v p) u) (setSched l u)
        = setSched l (ps.foldl (fun u p => wmb p (m p) (v p) u) u) := by
    intro m v ps
    induction ps with
    | nil => intro u; rfl
    | cons p ps ih => intro u; exact ih (wmb p (m p) (v p) u)
  have ha : ∀ u : State, advanceCursor (setSched l u) = setSched l (advanceCursor u) := by
    intro u
    by_cases h : u.cur + 1 = frameSize + u.cfg.quietTicks <;> simp [advanceCursor, h] <;> rfl
  have ho : ∀ u : State, tickOutput (setSched l u) = setSched l (tickOutput u) := by
    intro u
    by_cases h : u.cur < frameSize
    · simp only [tickOutput, setSched_cur, setSched_act, h, if_true]; exact hw _ _ _ u
    · simp only [tickOutput, setSched_cur, h, if_false]; rfl
  have hb : ∀ u : State, tickBody (setSched l u) = setSched l (tickBody u) := by
    intro u
    cases h : u.send
    · simp only [tickBody, setSched_send, h, Bool.false_eq_true, if_false]; rfl
    · simp only [tickBody, setSched_send, h, if_true, ho, ha]
  induction n generalizing s with
  | zero => rfl
  | succ n ih => show ticks n (tickBody (setSched l s)) = _; rw [hb]; exact ih _


theorem Shaped.ticks {s : State} (h : Shaped s) (n : Nat) : Shaped (ticks n s) := by
  induction n with
  | zero => exact h
  | succ n ih => rw [ticks_succ]; exact ih.tickBody

theorem cur_ticks_lt (n : Nat) {s : State} (hc : s.cur < frameSize + s.cfg.quietTicks) :
    (ticks n s).cur < frameSize + s.cfg.quietTicks := by
  induction n with
  | zero => exact hc
  | succ n ih =>
    rw [ticks_succ]
    simpa using cur_tickBody_lt (s := ticks n s) (by simpa using ih)

/-- Idle ticks change nothing but the history (R135: "interrupt fires but does nothing"). -/
theorem ticks_idle (n : Nat) {s : State} (h : s.send = false) :
    ticks n s = { s with history := s.history ++ List.replicate n .idleTick } := by
  induction n generalizing s with
  | zero => simp [ticks]
  | succ n ih =>
    rw [show ticks (n + 1) s = ticks n (tickBody s) from rfl, tickBody_idle h, ih (by simpa using h)]
    simp [record, List.replicate_succ]

/-- The first ticks of a frame in flight, short of its end (R138). -/
theorem ticks_flight {s : State} (hs : s.send = true) (n : Nat)
    (hc : s.cur + n < frameSize + s.cfg.quietTicks) :
    (ticks n s).send = true ∧ (ticks n s).cur = s.cur + n
      ∧ (ticks n s).history = s.history ++ flightEvents s n := by
  induction n with
  | zero => exact ⟨hs, rfl, by simp [ticks, flightEvents]⟩
  | succ n ih =>
    obtain ⟨h1, h2, h3⟩ := ih (by omega)
    have hne : ¬ s.cur + n + 1 = frameSize + s.cfg.quietTicks := by omega
    rw [ticks_succ]
    refine ⟨by simp [tickBody_send, h1, h2, hne], by
      rw [tickBody_cur, h1, h2]; simp only [ticks_cfg, hne, if_true, if_false]; omega, ?_⟩
    rw [tickBody_history, h1, h2, h3, flightEvents_succ,
      sliceEvents_congr (s := s) (by simp) (by simp) (by simp)]
    simp

/-- The rest of a frame in flight takes exactly `ticksLeft` ticks and ends idle (R135). -/
theorem ticks_ticksLeft {s : State} (hs : s.send = true)
    (hc : s.cur < frameSize + s.cfg.quietTicks) :
    (ticks (ticksLeft s) s).send = false ∧ (ticks (ticksLeft s) s).cur = 0
      ∧ (ticks (ticksLeft s) s).history = s.history ++ flightEvents s (ticksLeft s) := by
  obtain ⟨n, hn⟩ : ∃ n, ticksLeft s = n + 1 := ⟨ticksLeft s - 1, by unfold ticksLeft; omega⟩
  have hn' : s.cur + n + 1 = frameSize + s.cfg.quietTicks := by unfold ticksLeft at hn; omega
  obtain ⟨h1, h2, h3⟩ := ticks_flight hs n (by omega)
  rw [hn, ticks_succ]
  refine ⟨by simp [tickBody_send, h1, h2, hn'], by simp [tickBody_cur, h1, h2, hn'], ?_⟩
  rw [tickBody_history, h1, h2, h3, flightEvents_succ,
    sliceEvents_congr (s := s) (by simp) (by simp) (by simp)]
  simp

/-- A frame in flight is not over before its last tick. -/
theorem ticksLeft_le_of_send {s : State} (hs : s.send = true)
    (hc : s.cur < frameSize + s.cfg.quietTicks) {n : Nat} (h : (ticks n s).send = false) :
    ticksLeft s ≤ n := by
  by_contra hlt
  obtain ⟨hf, -, -⟩ := ticks_flight hs n (by unfold ticksLeft at hlt; omega)
  exact absurd (hf.symm.trans h) (by simp)

/-- Ticks past the end of a frame in flight are idle. -/
theorem ticks_past {s : State} (hs : s.send = true) (hc : s.cur < frameSize + s.cfg.quietTicks)
    {n : Nat} (hn : ticksLeft s ≤ n) :
    ticks n s = { ticks (ticksLeft s) s with
      history := (ticks (ticksLeft s) s).history
        ++ List.replicate (n - ticksLeft s) .idleTick } := by
  obtain ⟨m, rfl⟩ := Nat.exists_eq_add_of_le hn
  rw [ticks_add, ticks_idle m (ticks_ticksLeft hs hc).1]
  simp

/-! ### The spin (R136) -/

/-- What the spin can do: end with `SEND = 0` after some ticks, or be held for ever after some ticks
with `SEND = 1`. It raises no fault. -/
theorem spin_cases (l : List Nat) (s : State) :
    (∃ n rest, spin l s = .ok (setSched rest (ticks n s)) ∧ (ticks n s).send = false) ∨
    (∃ n, spin l s = .held (setHung true (setSched [] (ticks n s))) ∧ (ticks n s).send = true) := by
  induction l generalizing s with
  | nil =>
    unfold spin spinFree
    split
    · next hsend =>
      split
      · split
        · exact .inr ⟨0, rfl, hsend⟩
        · next hd =>
          left
          refine ⟨ticksLeft s, [], ?_, ?_⟩
          · rw [← ticks_setSched]; rfl
          · simpa [ticks_setSched, ticksLeft] using hd
      · exact .inr ⟨0, rfl, hsend⟩
    · next hsend => exact .inl ⟨0, [], rfl, Bool.eq_false_iff.2 hsend⟩
  | cons m rest ih =>
    unfold spin
    split
    · rcases ih (ticks m s) with ⟨n, r, h, hd⟩ | ⟨n, h, hd⟩
      · exact .inl ⟨m + n, r, by rw [h, ticks_add], by rw [ticks_add]; exact hd⟩
      · exact .inr ⟨m + n, by rw [h, ticks_add], by rw [ticks_add]; exact hd⟩
    · next hsend => exact .inl ⟨m, rest, rfl, Bool.eq_false_iff.2 hsend⟩

/-- While the tick fires infinitely often the spin ends (60_exceptions.md R165). -/
theorem spin_ends (l : List Nat) {s : State} (hf : s.tickFires = true)
    (hc : s.cur < frameSize + s.cfg.quietTicks) : ∃ t, spin l s = .ok t := by
  induction l generalizing s with
  | nil =>
    unfold spin spinFree
    split
    · next hsend =>
      have h := (ticks_ticksLeft (s := setSched [] s) hsend hc).1
      simp only [setSched_tickFires, hf, if_true, h, Bool.false_eq_true, if_false]
      exact ⟨_, rfl⟩
    · exact ⟨_, rfl⟩
  | cons m rest ih =>
    unfold spin
    split
    · exact ih (by simpa using hf) (by simpa using cur_ticks_lt m hc)
    · exact ⟨_, rfl⟩

/-- The spin ends also when enough ticks are listed for the frame in flight (43_transport_driver.md R136). -/
theorem spin_ends_of_listed (l : List Nat) {s : State} (hs : s.send = true)
    (hc : s.cur < frameSize + s.cfg.quietTicks) (h : ticksLeft s ≤ l.sum) : ∃ t, spin l s = .ok t := by
  induction l generalizing s with
  | nil => simp [ticksLeft] at h; omega
  | cons n l ih =>
    unfold spin
    split
    · next hn =>
      have hlt : n < ticksLeft s := by
        by_contra hge
        rw [ticks_past hs hc (Nat.le_of_not_lt hge)] at hn
        exact absurd (hn.symm.trans (ticks_ticksLeft hs hc).1) (by simp)
      obtain ⟨h1, h2, -⟩ := ticks_flight hs n (by unfold ticksLeft at hlt; omega)
      refine ih h1 ?_ ?_
      · rw [h2, ticks_cfg]; unfold ticksLeft at hlt; omega
      · unfold ticksLeft at *; rw [h2, ticks_cfg]; rw [List.sum_cons] at h; omega
    · exact ⟨_, rfl⟩

/-- `HANDOFF` ends as its spin ends: armed, or held for ever. -/
theorem handoff_cases (s : State) :
    (∃ t, spin s.sched s = .ok t ∧ handoff s = .ok (arm t)) ∨
    (∃ t, spin s.sched s = .held t ∧ handoff s = .held t) := by
  unfold handoff
  rcases spin_cases s.sched s with ⟨n, r, h, -⟩ | ⟨n, h, -⟩
  · exact .inl ⟨_, h, by rw [h]; rfl⟩
  · exact .inr ⟨_, h, by rw [h]; rfl⟩

/-- The last two actions of `HANDOFF`, from `SEND = 0`: idle ticks may be recorded between them. -/
theorem arm_eq {s : State} (h : s.send = false) :
    arm s = { s with
      act := 1 - s.act, send := true, sched := s.sched.tail
      history := s.history ++ List.replicate (s.sched.headD 0) .idleTick } := by
  unfold arm ticksAtPlace
  rw [ticks_idle _ (by exact h)]
  rfl

@[simp] theorem arm_cfg (s : State) : (arm s).cfg = s.cfg := by simp [arm, ticksAtPlace]
@[simp] theorem arm_img (s : State) : (arm s).img = s.img := by simp [arm, ticksAtPlace]
@[simp] theorem arm_en (s : State) : (arm s).en = s.en := by simp [arm, ticksAtPlace]
@[simp] theorem arm_gi (s : State) : (arm s).gi = s.gi := by simp [arm, ticksAtPlace]
@[simp] theorem arm_lf (s : State) : (arm s).lf = s.lf := by simp [arm, ticksAtPlace]
@[simp] theorem arm_row (s : State) : (arm s).row = s.row := by simp [arm, ticksAtPlace]
@[simp] theorem arm_sidx (s : State) : (arm s).sidx = s.sidx := by simp [arm, ticksAtPlace]
@[simp] theorem arm_buf (s : State) : (arm s).buf = s.buf := by simp [arm, ticksAtPlace]
@[simp] theorem arm_drv (s : State) : (arm s).drv = s.drv := by simp [arm, ticksAtPlace]
@[simp] theorem arm_fault (s : State) : (arm s).fault = s.fault := by simp [arm, ticksAtPlace]
@[simp] theorem arm_cmds (s : State) : (arm s).cmds = s.cmds := by simp [arm, ticksAtPlace]
@[simp] theorem arm_answers (s : State) : (arm s).answers = s.answers := by simp [arm, ticksAtPlace]
@[simp] theorem arm_tickFires (s : State) : (arm s).tickFires = s.tickFires :=
  by simp [arm, ticksAtPlace]
@[simp] theorem arm_hung (s : State) : (arm s).hung = s.hung := by simp [arm, ticksAtPlace]
@[simp] theorem arm_draws (s : State) : (arm s).draws = s.draws := by simp [arm, ticksAtPlace]
@[simp] theorem arm_act (s : State) : (arm s).act = 1 - s.act := by simp [arm, ticksAtPlace]
@[simp] theorem arm_send (s : State) : (arm s).send = true := by simp [arm]
@[simp] theorem arm_sched (s : State) : (arm s).sched = s.sched.tail := by simp [arm, ticksAtPlace]

theorem Shaped.arm {s : State} (h : Shaped s) : Shaped (arm s) :=
  ((h.congr (t := setSched s.sched.tail (setAct (1 - s.act) s)) rfl rfl rfl rfl rfl).ticks
    (s.sched.headD 0)).congr rfl rfl rfl rfl rfl

end Sys2Proof.Machine
end

