-- ==== Sys2Proof/Laws/Scheduler.lean ====
section
/-! SUPPORT. What a composition can do: each strand is skipped, driven, or stops it; what the whole
loop leaves in the masks, the lanes and the rest of the state. Spec: 42_frame_scheduler.md R112 to
R116, R122. -/

namespace Sys2Proof.Machine

/-! ### What one strand does -/

/-- What a strand does in a composition. -/
inductive StrandPlan where
  /-- It takes no part. -/
  | skip
  /-- Its pin takes the frame. -/
  | drive (p b : Nat) (lf : LogicalFrame)
  /-- It raises a fault, `LF` holding the given frame. -/
  | fail (f : FaultRecord) (lf : LogicalFrame)

/-- A strand of a composition into instance `k`, run by its plan. -/
def runPlan (k : Nat) (plan : StrandPlan) (u : State) : Res :=
  match plan with
  | .skip => .ok u
  | .drive p b lf => .ok (driveLane k p b (levels lf) (setLf lf u))
  | .fail f lf => raise f (setLf lf u)

/-- The frame a strand takes in row `row`: the row number, its mapped pixel, the global intensity. -/
def rowFrame (s : State) (row : Nat) (st : Strand) : LogicalFrame :=
  let px := s.pixel (coordOf st row).1 (coordOf st row).2
  frameOf row px.r px.g px.b s.gi

/-- The plan of a strand that is to take a frame: its pin decides. -/
def pinPlan (c : Config) (st : Strand) (lf : LogicalFrame) : StrandPlan :=
  match pinMap c st.pin with
  | some (p, b) => .drive p b lf
  | none => .fail (.invalidPin st.pin) lf

/-- The plan of a strand in `COMPOSE(row)` (R112, R113); `lf` is what `LF` holds before it. -/
def composePlan (s : State) (row i : Nat) (st : Strand) (lf : LogicalFrame) : StrandPlan :=
  if s.active row i st then
    if (coordOf st row).1 < s.cfg.imgW ∧ (coordOf st row).2 < s.cfg.imgH then
      pinPlan s.cfg st (rowFrame s row st)
    else .fail (.badCoord (strandInfo i)) lf
  else .skip

/-- The plan of a strand in `SETINT` (R114). -/
def broadcastPlan (s : State) (i : Nat) (st : Strand) (lf : LogicalFrame) : StrandPlan :=
  if s.enabled i then pinPlan s.cfg st lf else .skip

/-- The registers a composition reads and does not write. -/
structure SameInputs (s u : State) : Prop where
  cfg : u.cfg = s.cfg
  en  : u.en = s.en
  img : u.img = s.img
  gi  : u.gi = s.gi

theorem composeStrand_eq {s u : State} (h : SameInputs s u) (k row i : Nat) (st : Strand) :
    composeStrand k row i st u = runPlan k (composePlan s row i st u.lf) (setSidx i u) := by
  have ha : u.active row i st = s.active row i st := by
    simp [State.active, State.enabled, h.en]
  have hp : ∀ x y, (setSidx i u).pixel x y = s.pixel x y := by
    intro x y; simp [State.pixel, h.img]
  unfold composeStrand composePlan
  rw [ha]
  split
  · unfold composeActive
    simp only [setSidx_cfg, h.cfg]
    split
    · simp only [hp, setSidx_gi, h.gi]
      unfold pinPlan expand
      simp only [encodeFrame_cfg, setSidx_cfg, h.cfg]
      cases pinMap s.cfg st.pin <;> rfl
    · rfl
  · rfl

theorem broadcastStrand_eq {s u : State} (h : SameInputs s u) (k i : Nat) (st : Strand) :
    broadcastStrand k i st u = runPlan k (broadcastPlan s i st u.lf) u := by
  have ha : u.enabled i = s.enabled i := by simp [State.enabled, h.en]
  unfold broadcastStrand broadcastPlan
  rw [ha]
  split
  · unfold pinPlan expand
    simp only [h.cfg]
    cases pinMap s.cfg st.pin <;> rfl
  · rfl

/-! ### What stays -/

/-- What a composition into instance `k` leaves unchanged (R112, "State written"; 10_state.md R42 (c)). -/
structure ComposeSame (k : Nat) (s t : State) : Prop extends SameInputs s t where
  row       : t.row = s.row
  act       : t.act = s.act
  send      : t.send = s.send
  cur       : t.cur = s.cur
  port      : t.port = s.port
  cmds      : t.cmds = s.cmds
  answers   : t.answers = s.answers
  history   : t.history = s.history
  sched     : t.sched = s.sched
  tickFires : t.tickFires = s.tickFires
  hung      : t.hung = s.hung
  otherDrv  : ∀ k', k' ≠ k → ∀ p, t.drvWord k' p = s.drvWord k' p
  otherBuf  : ∀ k', k' ≠ k → ∀ p τ, t.bufWord k' p τ = s.bufWord k' p τ

theorem ComposeSame.refl (k : Nat) (s : State) : ComposeSame k s s := by
  constructor <;> first | constructor <;> rfl | rfl | (intros; rfl)

theorem ComposeSame.trans {k : Nat} {s t u : State} (h : ComposeSame k s t)
    (h' : ComposeSame k t u) : ComposeSame k s u where
  cfg := h'.cfg.trans h.cfg
  en := h'.en.trans h.en
  img := h'.img.trans h.img
  gi := h'.gi.trans h.gi
  row := h'.row.trans h.row
  act := h'.act.trans h.act
  send := h'.send.trans h.send
  cur := h'.cur.trans h.cur
  port := h'.port.trans h.port
  cmds := h'.cmds.trans h.cmds
  answers := h'.answers.trans h.answers
  history := h'.history.trans h.history
  sched := h'.sched.trans h.sched
  tickFires := h'.tickFires.trans h.tickFires
  hung := h'.hung.trans h.hung
  otherDrv k' hk p := (h'.otherDrv k' hk p).trans (h.otherDrv k' hk p)
  otherBuf k' hk p τ := (h'.otherBuf k' hk p τ).trans (h.otherBuf k' hk p τ)

theorem ComposeSame.clearDrv (k : Nat) (s : State) : ComposeSame k s (clearDrv k s) := by
  constructor <;> first
    | constructor <;> rfl
    | rfl
    | (intro k' hk p; simp [drvWord_clearDrv, Ne.symm hk])

theorem ComposeSame.leaveSidx (k : Nat) (s : State) : ComposeSame k s (leaveSidx s) := by
  constructor <;> first | constructor <;> rfl | rfl | (intros; rfl)

theorem ComposeSame.setLf (k : Nat) (lf : LogicalFrame) (s : State) : ComposeSame k s (setLf lf s) := by
  constructor <;> first | constructor <;> rfl | rfl | (intros; rfl)

theorem ComposeSame.encodeFrame (k n : Nat) (r g b v : Byte) (s : State) :
    ComposeSame k s (encodeFrame n r g b v s) := ComposeSame.setLf ..

theorem ComposeSame.setFault (k : Nat) (f : FaultRecord) (s : State) :
    ComposeSame k s (setFault f s) := by
  constructor <;> first | constructor <;> rfl | rfl | (intros; rfl)

theorem ComposeSame.setSidx (k i : Nat) (s : State) : ComposeSame k s (setSidx i s) := by
  constructor <;> first | constructor <;> rfl | rfl | (intros; rfl)

theorem ComposeSame.driveLane (k p b : Nat) (ls : List Level) (s : State) :
    ComposeSame k s (driveLane k p b ls s) := by
  constructor <;> first
    | constructor <;> rfl
    | rfl
    | (intro k' hk p'; exact drvWord_driveLane_ne s (Ne.symm hk) ..)
    | (intro k' hk p' τ; exact bufWord_driveLane_ne s (Ne.symm hk) ..)

theorem runPlan_same (k : Nat) (plan : StrandPlan) (u : State) :
    ComposeSame k u (runPlan k plan u).state := by
  cases plan with
  | skip => exact .refl ..
  | drive p b lf => exact (ComposeSame.setLf ..).trans (.driveLane ..)
  | fail f lf => exact (ComposeSame.setLf ..).trans (.setFault ..)

/-! ### The loop, run by plans -/

/-- What the loop writes into its counter before strand `i`: `SIDX` in `COMPOSE`, nothing in `SETINT`
(10_state.md R26; entry 9). -/
inductive Counter where
  | sidx
  | unseen

/-- The state in which strand `i` is looked at. -/
def Counter.mark (c : Counter) (i : Nat) (u : State) : State :=
  match c with
  | .sidx => setSidx i u
  | .unseen => u

/-- At most `SIDX` differs. -/
theorem Counter.mark_eq (c : Counter) (i : Nat) (u : State) : ∃ n, c.mark i u = setSidx n u := by
  cases c
  · exact ⟨i, rfl⟩
  · exact ⟨u.sidx, rfl⟩

/-- Every strand of the loop run by its plan, which may look at what `LF` holds. -/
def planBody (c : Counter) (k : Nat) (plan : Nat → Strand → LogicalFrame → StrandPlan) (i : Nat)
    (st : Strand) (u : State) : Res := runPlan k (plan i st u.lf) (c.mark i u)

theorem planBody_same (c : Counter) (k : Nat) (plan : Nat → Strand → LogicalFrame → StrandPlan)
    (i : Nat) (st : Strand) (u : State) : ComposeSame k u (planBody c k plan i st u).state := by
  unfold planBody
  have h := runPlan_same k (plan i st u.lf) (c.mark i u)
  obtain ⟨n, hn⟩ := c.mark_eq i u
  rw [hn] at h ⊢
  exact (ComposeSame.setSidx ..).trans h

theorem forStrands_congr {c : Counter} {k : Nat} {body : Nat → Strand → State → Res} {s : State}
    {plan : Nat → Strand → LogicalFrame → StrandPlan}
    (h : ∀ i st u, SameInputs s u → body i st u = planBody c k plan i st u)
    (i : Nat) (l : List Strand) {u : State} (hu : SameInputs s u) :
    forStrands body i l u = forStrands (planBody c k plan) i l u := by
  induction l generalizing i u with
  | nil => rfl
  | cons st l ih =>
    unfold forStrands
    rw [h i st u hu]
    have hs := (planBody_same c k plan i st u).toSameInputs
    cases hr : planBody c k plan i st u with
    | ok v =>
      rw [hr] at hs
      exact ih (i + 1) ⟨hs.cfg.trans hu.cfg, hs.en.trans hu.en, hs.img.trans hu.img, hs.gi.trans hu.gi⟩
    | raised v => rfl
    | held v => rfl

/-- `COMPOSE` by plans. -/
theorem compose_eq (row : Nat) (s : State) :
    compose row s = (forStrands (planBody .sidx s.composing (composePlan s row)) 0 s.cfg.strands
      (clearDrv s.composing s)).andThen fun t => .ok (leaveSidx t) :=
  congrArg (Res.andThen · _) (forStrands_congr (c := .sidx) (s := s)
    (fun i st _ hu => composeStrand_eq hu _ row i st) _ _ ⟨rfl, rfl, rfl, rfl⟩)

/-- The composition of `SETINT` by plans. -/
theorem composeBroadcast_eq (value : Byte) (s : State) :
    composeBroadcast value s
      = forStrands (planBody .unseen s.composing (broadcastPlan s)) 0 s.cfg.strands
          (setLf (broadcastFrame s.cfg value) (clearDrv s.composing (setGi value s))) :=
  forStrands_congr (c := .unseen) (s := setGi value s) (fun i st _ hu => broadcastStrand_eq hu _ i st) _ _
    ⟨rfl, rfl, rfl, rfl⟩

/-- A loop over strands is never held, and leaves unchanged what a composition leaves unchanged. -/
theorem forStrands_same {c : Counter} {k : Nat} {plan : Nat → Strand → LogicalFrame → StrandPlan}
    (i : Nat) (l : List Strand) (u : State) :
    ((∃ t, forStrands (planBody c k plan) i l u = .ok t ∧ t.fault = u.fault) ∨
      ∃ t, forStrands (planBody c k plan) i l u = .raised t) ∧
    ComposeSame k u (forStrands (planBody c k plan) i l u).state := by
  induction l generalizing i u with
  | nil => exact ⟨.inl ⟨_, rfl, rfl⟩, .refl ..⟩
  | cons st l ih =>
    unfold forStrands
    have hs := planBody_same c k plan i st u
    obtain ⟨n, hn⟩ := c.mark_eq i u
    unfold planBody at hs ⊢
    rw [hn] at hs ⊢
    cases hp : plan i st u.lf with
    | skip =>
      rw [hp] at hs
      obtain ⟨h1, h2⟩ := ih (i + 1) (setSidx n u)
      exact ⟨h1, hs.trans h2⟩
    | drive p b lf =>
      rw [hp] at hs
      obtain ⟨h1, h2⟩ := ih (i + 1) (driveLane k p b (levels lf) (setLf lf (setSidx n u)))
      exact ⟨h1, hs.trans h2⟩
    | fail f lf =>
      rw [hp] at hs
      exact ⟨.inr ⟨_, rfl⟩, hs⟩

/-- The frame the last strand that drives pin `(p, b)` gives it, if one does. -/
def planFrame (plan : Nat → Strand → LogicalFrame → StrandPlan) (p b : Nat) (lf0 : LogicalFrame) :
    Nat → List Strand → Option LogicalFrame
  | _, [] => none
  | i, st :: rest =>
    match planFrame plan p b lf0 (i + 1) rest with
    | some lf => some lf
    | none =>
      match plan i st lf0 with
      | .drive p' b' lf => if p' = p ∧ b' = b then some lf else none
      | .skip => none
      | .fail _ _ => none

/-- The lanes of instance `k` in `t` are those of `u` overwritten by frames: a lane that takes a frame
holds its 80 levels and has its mask bit set, every other lane is as in `u`
(41_bit_expander.md R104, R105, R107). -/
def LanesFrom (k : Nat) (frames : Nat → Nat → Option LogicalFrame) (u t : State) : Prop :=
  ∀ p b, lane (t.drvWord k p) b = ((frames p b).isSome || lane (u.drvWord k p) b) ∧
    ∀ τ, τ < frameSize → lane (t.bufWord k p τ) b
      = match frames p b with
        | some lf => lev lf τ
        | none => lane (u.bufWord k p τ) b

theorem LanesFrom.refl (k : Nat) (u t : State) (hd : t.drv = u.drv) (hb : t.buf = u.buf) :
    LanesFrom k (fun _ _ => none) u t := by
  intro p b
  simp [State.drvWord, State.bufWord, hd, hb]

/-- One strand driven, then the frames of the strands after it. -/
theorem LanesFrom.drive {k p' b' : Nat} {lf : LogicalFrame} {u t : State} (hu : Shaped u)
    (hk : k < u.cfg.nbuf) (hp : p' < u.cfg.nPorts) (hb : b' < u.cfg.portWidth)
    {frames : Nat → Nat → Option LogicalFrame}
    (h : LanesFrom k frames (driveLane k p' b' (levels lf) u) t) :
    LanesFrom k (fun p b => match frames p b with
      | some lf => some lf
      | none => if p' = p ∧ b' = b then some lf else none) u t := by
  intro p b
  obtain ⟨h4, h5⟩ := h p b
  have hd := lane_drvWord_driveLane hu hk hp hb (levels lf) k p b
  refine ⟨?_, fun τ hτ => ?_⟩
  · rw [h4, hd]
    beta_reduce
    cases frames p b with
    | some _ => rfl
    | none =>
      by_cases hpb : p' = p ∧ b' = b
      · simp [hpb]
      · have : ¬ (p = p' ∧ b = b') := fun h => hpb ⟨h.1.symm, h.2.symm⟩
        simp only [hpb, this, true_and, decide_false, if_false, Option.isSome_none, Bool.false_or]
  · have hbuf := lane_bufWord_driveLane hu hk hp hb (levels_length lf) k p b hτ
    rw [h5 τ hτ]
    beta_reduce
    cases frames p b with
    | some _ => rfl
    | none =>
      simp only [hbuf]
      by_cases hpb : p' = p ∧ b' = b
      · simp only [hpb, and_self, if_true, levels_getD lf hτ]
      · have : ¬ (p = p' ∧ b = b') := fun h => hpb ⟨h.1.symm, h.2.symm⟩
        simp only [hpb, this, true_and, if_false]

/-- What the plans of a loop may depend on: not on `LF` beyond `Q`, and only recognised pins are
driven. `lf0` is a value of `LF` that stands for all that satisfy `Q`. -/
structure PlansWell (c : Config) (plan : Nat → Strand → LogicalFrame → StrandPlan)
    (lf0 : LogicalFrame) (Q : LogicalFrame → Prop) : Prop where
  same  : ∀ i st lf, Q lf → (∀ f lf', plan i st lf0 ≠ .fail f lf') → plan i st lf = plan i st lf0
  keeps : ∀ i st p b lf', plan i st lf0 = .drive p b lf' → Q lf'
  range : ∀ i st p b lf', plan i st lf0 = .drive p b lf' → p < c.nPorts ∧ b < c.portWidth

/-- A loop whose strands are all skipped or driven runs to its end, or to what follows them. -/
theorem forStrands_good {c : Config} {cn : Counter} {k : Nat} {plan : Nat → Strand → LogicalFrame → StrandPlan}
    {lf0 : LogicalFrame} {Q : LogicalFrame → Prop} (hw : PlansWell c plan lf0 Q)
    (i : Nat) (l rest : List Strand) {u : State} (hu : Shaped u) (hc : u.cfg = c) (hlf : Q u.lf)
    (hk : k < c.nbuf) (hok : ∀ j st, l[j]? = some st → ∀ f lf, plan (i + j) st lf0 ≠ .fail f lf) :
    ∃ t, forStrands (planBody cn k plan) i (l ++ rest) u
        = forStrands (planBody cn k plan) (i + l.length) rest t ∧ Shaped t ∧ Q t.lf ∧ t.cfg = c ∧
      t.fault = u.fault ∧ LanesFrom k (fun p b => planFrame plan p b lf0 i l) u t := by
  induction l generalizing i u with
  | nil => exact ⟨u, rfl, hu, hlf, hc, rfl, LanesFrom.refl k u u rfl rfl⟩
  | cons st l ih =>
    have hok' : ∀ j st', l[j]? = some st' → ∀ f lf, plan (i + 1 + j) st' lf0 ≠ .fail f lf := by
      intro j st' hj
      have := hok (j + 1) st' (by simpa using hj)
      rwa [show i + (j + 1) = i + 1 + j by omega] at this
    have hlen : i + (st :: l).length = i + 1 + l.length := by simp; omega
    have he : plan i st u.lf = plan i st lf0 := hw.same i st _ hlf (hok 0 st rfl)
    rw [hlen]
    show ∃ t, (planBody cn k plan i st u).andThen _ = _ ∧ _
    obtain ⟨n, hn⟩ := cn.mark_eq i u
    unfold planBody
    rw [hn]
    cases hp : plan i st lf0 with
    | skip =>
      rw [he, hp]
      obtain ⟨t, h1, h2, h3, h4, h5, h6⟩ :=
        ih (i + 1) (u := setSidx n u) (hu.congr rfl rfl rfl rfl rfl) hc hlf hok'
      refine ⟨t, h1, h2, h3, h4, h5, fun p b => ?_⟩
      have := h6 p b
      have hpf : planFrame plan p b lf0 i (st :: l) = planFrame plan p b lf0 (i + 1) l := by
        simp only [planFrame, hp]; cases planFrame plan p b lf0 (i + 1) l <;> rfl
      simp only [hpf]
      exact this
    | fail f lf => exact absurd hp (hok 0 st rfl f lf)
    | drive p' b' lf =>
      rw [he, hp]
      subst hc
      obtain ⟨hr1, hr2⟩ := hw.range i st p' b' lf hp
      have hsh : Shaped (setLf lf (setSidx n u)) := hu.congr rfl rfl rfl rfl rfl
      obtain ⟨t, h1, h2, h3, h4, h5, h6⟩ :=
        ih (i + 1) (u := driveLane k p' b' (levels lf) (setLf lf (setSidx n u)))
          (hsh.driveLane k p' b' (levels_length lf)) rfl (hw.keeps i st p' b' lf hp) hok'
      refine ⟨t, h1, h2, h3, h4, h5, fun p b => ?_⟩
      have := LanesFrom.drive hsh hk hr1 hr2 h6 p b
      simp only [planFrame, hp]
      exact this

/-- A loop whose strands are all skipped or driven runs to its end (R112, R114). -/
theorem forStrands_ok {c : Config} {cn : Counter} {k : Nat} {plan : Nat → Strand → LogicalFrame → StrandPlan}
    {lf0 : LogicalFrame} {Q : LogicalFrame → Prop} (hw : PlansWell c plan lf0 Q)
    (l : List Strand) {u : State} (hu : Shaped u) (hc : u.cfg = c) (hlf : Q u.lf)
    (hk : k < c.nbuf) (hok : ∀ j st, l[j]? = some st → ∀ f lf, plan j st lf0 ≠ .fail f lf) :
    ∃ t, forStrands (planBody cn k plan) 0 l u = .ok t ∧ Shaped t ∧ Q t.lf ∧ t.fault = u.fault ∧
      LanesFrom k (fun p b => planFrame plan p b lf0 0 l) u t := by
  obtain ⟨t, h1, h2, h3, h4, h5, h6⟩ := forStrands_good hw 0 l [] hu hc hlf hk (by simpa using hok)
  rw [List.append_nil] at h1
  exact ⟨t, h1, h2, h3, h5, h6⟩

/-- A loop stops at the first strand that fails: the strands before it have been driven, those after
it not (R112, R122). -/
theorem forStrands_fail {c : Config} {cn : Counter} {k : Nat} {plan : Nat → Strand → LogicalFrame → StrandPlan}
    {lf0 : LogicalFrame} {Q : LogicalFrame → Prop} (hw : PlansWell c plan lf0 Q)
    (l : List Strand) (st : Strand) (rest : List Strand) {u : State} (hu : Shaped u)
    (hc : u.cfg = c) (hlf : Q u.lf) (hk : k < c.nbuf)
    (hok : ∀ j st', l[j]? = some st' → ∀ f lf, plan j st' lf0 ≠ .fail f lf)
    {f : FaultRecord} (hf : ∀ lf, Q lf → ∃ lf', plan l.length st lf = .fail f lf') :
    ∃ t, forStrands (planBody cn k plan) 0 (l ++ st :: rest) u = .raised t ∧ Shaped t ∧
      t.fault = (if u.fault = .none then f else u.fault) ∧ (cn = .sidx → t.sidx = l.length) ∧
      LanesFrom k (fun p b => planFrame plan p b lf0 0 l) u t := by
  obtain ⟨t, h1, h2, h3, h4, h5, h6⟩ :=
    forStrands_good hw 0 l (st :: rest) hu hc hlf hk (by simpa using hok)
  obtain ⟨lf', hlf'⟩ := hf t.lf h3
  rw [Nat.zero_add] at h1
  obtain ⟨n, hn⟩ := cn.mark_eq l.length t
  refine ⟨setFault (if t.fault = .none then f else t.fault) (setLf lf' (setSidx n t)), ?_,
    h2.congr rfl rfl rfl rfl rfl, by simp [h5], fun hc => ?_, h6⟩
  · rw [h1]; unfold forStrands planBody; rw [hlf', hn]; rfl
  · subst hc
    have := congrArg State.sidx hn
    simpa [Counter.mark] using this.symm

/-! ### The plans of `COMPOSE` and `SETINT` -/

theorem pinPlan_cases (c : Config) (st : Strand) (lf : LogicalFrame) :
    (∃ p b, pinMap c st.pin = some (p, b) ∧ pinPlan c st lf = .drive p b lf) ∨
    (pinMap c st.pin = none ∧ pinPlan c st lf = .fail (.invalidPin st.pin) lf) := by
  unfold pinPlan
  cases h : pinMap c st.pin with
  | none => exact .inr ⟨rfl, rfl⟩
  | some pb => exact .inl ⟨pb.1, pb.2, rfl, rfl⟩

/-- The plans of `COMPOSE(row)` do not depend on `LF`, except for what a stopped row leaves in it. -/
theorem composePlan_well (s : State) (row : Nat) (lf0 : LogicalFrame) :
    PlansWell s.cfg (composePlan s row) lf0 (fun _ => True) where
  same i st lf _ hnf := by
    unfold composePlan at *
    split <;> try rfl
    next ha =>
      rw [if_pos ha] at hnf
      split <;> try rfl
      next hb => rw [if_neg hb] at hnf; exact absurd rfl (hnf _ _)
  keeps _ _ _ _ _ _ := trivial
  range i st p b lf' h := by
    unfold composePlan at h
    split at h
    · split at h
      · rcases pinPlan_cases s.cfg st (rowFrame s row st) with ⟨p', b', hp, he⟩ | ⟨-, he⟩
        · rw [he] at h; cases h; exact pinMap_range hp
        · rw [he] at h; cases h
      · cases h
    · cases h

/-- The plans of `SETINT` depend on the broadcast frame in `LF`, which the loop keeps. -/
theorem broadcastPlan_well (s : State) (lf0 : LogicalFrame) :
    PlansWell s.cfg (broadcastPlan s) lf0 (fun lf => lf = lf0) where
  same i st lf h _ := by rw [h]
  keeps i st p b lf' h := by
    unfold broadcastPlan at h
    split at h
    · rcases pinPlan_cases s.cfg st lf0 with ⟨p', b', hp, he⟩ | ⟨-, he⟩
      · rw [he] at h; cases h; rfl
      · rw [he] at h; cases h
    · cases h
  range i st p b lf' h := by
    unfold broadcastPlan at h
    split at h
    · rcases pinPlan_cases s.cfg st lf0 with ⟨p', b', hp, he⟩ | ⟨-, he⟩
      · rw [he] at h; cases h; exact pinMap_range hp
      · rw [he] at h; cases h
    · cases h

/-- What `COMPOSE` can do: end `ok` with `FAULT` as before, or stop with a fault; it is never held. It
leaves unchanged all but `DRV` and `BUF` of the composing instance, `LF`, `SIDX` and `FAULT`. -/
theorem compose_cases (row : Nat) (s : State) :
    ((∃ t, compose row s = .ok t ∧ t.fault = s.fault) ∨ ∃ t, compose row s = .raised t) ∧
    ComposeSame s.composing s (compose row s).state := by
  rw [compose_eq]
  obtain ⟨h1, h2⟩ := forStrands_same (c := .sidx) (k := s.composing) (plan := composePlan s row) 0
    s.cfg.strands (clearDrv s.composing s)
  have h3 := (ComposeSame.clearDrv ..).trans h2
  rcases h1 with ⟨t, h, hf⟩ | ⟨t, h⟩ <;> rw [h] at h3 ⊢
  · exact ⟨.inl ⟨_, rfl, hf⟩, h3.trans (.leaveSidx ..)⟩
  · exact ⟨.inr ⟨_, rfl⟩, h3⟩

/-- A loop that has no counter register leaves `SIDX` alone. -/
theorem forStrands_sidx {k : Nat} {plan : Nat → Strand → LogicalFrame → StrandPlan} (i : Nat)
    (l : List Strand) (u : State) :
    (forStrands (planBody .unseen k plan) i l u).state.sidx = u.sidx := by
  induction l generalizing i u with
  | nil => rfl
  | cons st l ih =>
    unfold forStrands planBody
    cases plan i st u.lf with
    | skip => exact ih ..
    | drive p b lf => exact ih ..
    | fail f lf => rfl

/-- What a broadcast composition can do; it writes `GI` besides (R114). -/
theorem composeBroadcast_cases (value : Byte) (s : State) :
    ((∃ t, composeBroadcast value s = .ok t ∧ t.fault = s.fault) ∨
      ∃ t, composeBroadcast value s = .raised t) ∧
    ComposeSame s.composing (setGi value s) (composeBroadcast value s).state := by
  rw [composeBroadcast_eq]
  obtain ⟨h1, h2⟩ := forStrands_same (c := .unseen) (k := s.composing) (plan := broadcastPlan s) 0
    s.cfg.strands
    (setLf (broadcastFrame s.cfg value) (clearDrv s.composing (setGi value s)))
  exact ⟨h1, ((ComposeSame.clearDrv ..).trans (.setLf ..)).trans h2⟩

/-- What the composition of `SEND1` can do (R116). -/
theorem composeSingle_cases (address pin r g b v : Byte) (s : State) :
    ((∃ t, composeSingle address pin r g b v s = .ok t ∧ t.fault = s.fault) ∨
      ∃ t, composeSingle address pin r g b v s = .raised t) ∧
    ComposeSame s.composing s (composeSingle address pin r g b v s).state := by
  unfold composeSingle
  rcases expand_cases s.composing pin
      (encodeFrame address.toNat r g b v (clearDrv s.composing s)).lf
      (encodeFrame address.toNat r g b v (clearDrv s.composing s)) with ⟨-, h⟩ | ⟨p, q, -, h⟩
  · simp only [h]
    exact ⟨.inr ⟨_, rfl⟩,
      ((ComposeSame.clearDrv ..).trans (.encodeFrame ..)).trans (.setFault ..)⟩
  · simp only [h]
    exact ⟨.inl ⟨_, rfl, rfl⟩,
      ((ComposeSame.clearDrv ..).trans (.encodeFrame ..)).trans (.driveLane ..)⟩

end Sys2Proof.Machine
end

