-- ==== Sys2Proof/Laws/Submit.lean ====
section
/-! SUPPORT. What handing a buffer over can do: what it leaves unchanged, when it is held, and what it
puts on each pin. Spec: 42_frame_scheduler.md R117; 43_transport_driver.md R132 to R136, R140. -/

namespace Sys2Proof.Machine

/-! ### The events of a frame in flight -/

theorem slicesEvents_succ (s : State) (k first n : Nat) :
    slicesEvents s k first (n + 1) = slicesEvents s k first n ++ sliceEvents s k (first + n) := by
  simp [slicesEvents, List.range_succ]

/-- What is left of a frame in flight: its slices, then its quiet ticks (R135). -/
theorem flightEvents_eq (s : State) (n : Nat) :
    flightEvents s n = slicesEvents s s.act.toNat s.cur (min n (frameSize - s.cur))
      ++ List.replicate (n - (frameSize - s.cur)) .quietTick := by
  induction n with
  | zero => simp [flightEvents, slicesEvents]
  | succ n ih =>
    rw [flightEvents_succ, ih]
    by_cases h : s.cur + n < frameSize
    · rw [if_pos h, show min (n + 1) (frameSize - s.cur) = n + 1 by omega,
        show min n (frameSize - s.cur) = n by omega, slicesEvents_succ,
        show n - (frameSize - s.cur) = 0 by omega, show n + 1 - (frameSize - s.cur) = 0 by omega]
      simp
    · rw [if_neg h, show min (n + 1) (frameSize - s.cur) = min n (frameSize - s.cur) by omega,
        show n + 1 - (frameSize - s.cur) = n - (frameSize - s.cur) + 1 by omega,
        List.replicate_succ', List.append_assoc]

/-! ### How a hand-off ends -/

/-- `HANDOFF` ends armed, after ticks that left `SEND = 0`, or is held after ticks that did not. -/
theorem handoff_forms (s : State) :
    (∃ n rest, handoff s = .ok (arm (setSched rest (ticks n s))) ∧ (ticks n s).send = false) ∨
    (∃ n, handoff s = .held (setHung true (setSched [] (ticks n s))) ∧ (ticks n s).send = true) := by
  unfold handoff
  rcases spin_cases s.sched s with ⟨n, rest, h, hd⟩ | ⟨n, h, hd⟩
  · exact .inl ⟨n, rest, by rw [h]; rfl, hd⟩
  · exact .inr ⟨n, by rw [h]; rfl, hd⟩

/-- A spin is held only when no tick will come: the timer has stopped, or the cursor is out of range. -/
theorem spin_held_stopped {l : List Nat} {s t : State} (h : spin l s = .held t)
    (hc : s.cur < frameSize + s.cfg.quietTicks) : t.tickFires = false := by
  rcases spin_cases l s with ⟨_, _, h', -⟩ | ⟨n, h', -⟩
  · rw [h] at h'; cases h'
  · cases hf : s.tickFires with
    | true =>
      obtain ⟨u, hu⟩ := spin_ends l hf hc
      rw [h] at hu; cases hu
    | false => rw [h] at h'; cases h'; simpa using hf

/-- What a hand-over leaves unchanged, whether it ends or is held (R117, R132, R134). -/
structure SubmitSame (s t : State) : Prop where
  cfg       : t.cfg = s.cfg
  img       : t.img = s.img
  en        : t.en = s.en
  gi        : t.gi = s.gi
  lf        : t.lf = s.lf
  row       : t.row = s.row
  sidx      : t.sidx = s.sidx
  buf       : t.buf = s.buf
  drv       : t.drv = s.drv
  fault     : t.fault = s.fault
  cmds      : t.cmds = s.cmds
  answers   : t.answers = s.answers
  tickFires : t.tickFires = s.tickFires
  draws     : t.draws = s.draws

/-- Everything `SUBMIT` can do: in `SYNC` mode put the buffer out, in `ISR` mode arm it or be held. -/
theorem submit_forms (s : State) :
    (s.cfg.mode = .sync ∧ submit s = .ok (txsync s)) ∨
    (s.cfg.mode = .isr ∧ ∃ n rest, submit s = .ok (arm (setSched rest (ticks n s))) ∧
      (ticks n s).send = false) ∨
    (s.cfg.mode = .isr ∧ ∃ n, submit s = .held (setHung true (setSched [] (ticks n s))) ∧
      (ticks n s).send = true) := by
  unfold submit
  cases hm : s.cfg.mode with
  | sync => exact .inl ⟨rfl, rfl⟩
  | isr =>
    rcases handoff_forms s with h | h
    · exact .inr (.inl ⟨rfl, h⟩)
    · exact .inr (.inr ⟨rfl, h⟩)

theorem submit_same (s : State) : SubmitSame s (submit s).state := by
  rcases submit_forms s with ⟨-, h⟩ | ⟨-, n, rest, h, -⟩ | ⟨-, n, h, -⟩ <;> rw [h] <;>
    constructor <;> simp [Res.state, txsync]

/-- A hand-over raises no fault. -/
theorem submit_ne_raised (s t : State) : submit s ≠ .raised t := by
  rcases submit_forms s with ⟨-, h⟩ | ⟨-, n, rest, h, -⟩ | ⟨-, n, h, -⟩ <;> rw [h] <;>
    exact fun h => by cases h

/-- While no hand-off can wait for ever a hand-over ends (60_exceptions.md R165). -/
theorem submit_ends {s : State} (hl : Live s) (hc : s.cur < frameSize + s.cfg.quietTicks) :
    ∃ t, submit s = .ok t := by
  rcases submit_forms s with ⟨-, h⟩ | ⟨-, n, rest, h, -⟩ | ⟨hm, n, h, -⟩
  · exact ⟨_, h⟩
  · exact ⟨_, h⟩
  · rcases hl with hl | hl
    · rw [hm] at hl; cases hl
    · obtain ⟨t, ht⟩ := spin_ends s.sched hl hc
      exact ⟨arm t, by simp [submit, hm, handoff, ht, Res.andThen]⟩

/-! ### What reaches a pin -/

theorem drivenLevels_append (p b : Nat) (h h' : List Event) :
    drivenLevels p b (h ++ h') = drivenLevels p b h ++ drivenLevels p b h' := by
  simp [drivenLevels, List.filterMap_append]

@[simp] theorem drivenLevels_nil (p b : Nat) : drivenLevels p b [] = [] := rfl

@[simp] theorem drivenLevels_idle (p b n : Nat) :
    drivenLevels p b (List.replicate n .idleTick) = [] := by
  unfold drivenLevels
  rw [List.filterMap_eq_nil_iff]
  intro e he
  rw [List.eq_of_mem_replicate he]

@[simp] theorem drivenLevels_quiet (p b n : Nat) :
    drivenLevels p b (List.replicate n .quietTick) = [] := by
  unfold drivenLevels
  rw [List.filterMap_eq_nil_iff]
  intro e he
  rw [List.eq_of_mem_replicate he]

/-- One slice drives a pin once if the pin is in the mask, and not at all if it is not (R131). -/
theorem drivenLevels_sliceEvents {s : State} (hs : Shaped s) (k t p b : Nat) :
    drivenLevels p b (sliceEvents s k t)
      = if lane (s.drvWord k p) b = true then [lane (s.bufWord k p t) b] else [] := by
  have key : ∀ n, drivenLevels p b
      ((List.range n).map fun p => Event.wmb p (s.drvWord k p) (s.bufWord k p t))
      = if p < n ∧ lane (s.drvWord k p) b = true then [lane (s.bufWord k p t) b] else [] := by
    intro n
    induction n with
    | zero => simp
    | succ n ih =>
      rw [List.range_succ, List.map_append, drivenLevels_append, ih]
      by_cases hp : p = n
      · subst hp
        cases hl : lane (s.drvWord k p) b <;> simp [drivenLevels, hl]
      · have hn : ¬ n = p := fun h => hp h.symm
        have : (p < n + 1) ↔ p < n := by omega
        simp [drivenLevels, hn, this]
  rw [sliceEvents, key]
  by_cases hp : p < s.cfg.nPorts
  · simp [hp]
  · simp [hs.drvWord_eq_zero k (Nat.le_of_not_lt hp)]

/-- The slices of an instance drive a pin of its mask to the levels of the pin's lane, in order. -/
theorem drivenLevels_slicesEvents {s : State} (hs : Shaped s) (k first n p b : Nat) :
    drivenLevels p b (slicesEvents s k first n)
      = if lane (s.drvWord k p) b = true then
          (List.range n).map fun i => lane (s.bufWord k p (first + i)) b
        else [] := by
  induction n with
  | zero => simp [slicesEvents]
  | succ n ih =>
    rw [slicesEvents_succ, drivenLevels_append, ih, drivenLevels_sliceEvents hs, List.range_succ,
      List.map_append]
    split <;> simp

/-- What pin `(p, b)` has been driven to once the frame in flight is out. -/
def wireLevels (s : State) (p b : Nat) : List Level := drivenLevels p b (clockedOut s).history

theorem clockedOut_history {s : State} (hc : s.cur < frameSize + s.cfg.quietTicks) :
    (clockedOut s).history = s.history ++ if s.send then flightEvents s (ticksLeft s) else [] := by
  unfold clockedOut
  cases h : s.send with
  | false => simp
  | true => simp [(ticks_ticksLeft h hc).2.2]

theorem slicesEvents_congr {s u : State} {k : Nat} (hc : u.cfg = s.cfg)
    (hd : ∀ p, u.drvWord k p = s.drvWord k p) (hb : ∀ p t, u.bufWord k p t = s.bufWord k p t)
    (first n : Nat) : slicesEvents u k first n = slicesEvents s k first n := by
  simp only [slicesEvents, sliceEvents, hc, hd, hb]

/-- The wire depends on the transport's registers and the active instance only. -/
theorem wireLevels_congr {s u : State} (hc : s.cur < frameSize + s.cfg.quietTicks)
    (hcfg : u.cfg = s.cfg) (hact : u.act = s.act) (hsend : u.send = s.send) (hcur : u.cur = s.cur)
    (hh : u.history = s.history) (hd : s.send = true → ∀ p, u.drvWord s.act.toNat p = s.drvWord s.act.toNat p)
    (hb : s.send = true → ∀ p t, u.bufWord s.act.toNat p t = s.bufWord s.act.toNat p t) (p b : Nat) :
    wireLevels u p b = wireLevels s p b := by
  unfold wireLevels
  rw [clockedOut_history hc, clockedOut_history (by rw [hcur, hcfg]; exact hc), hh, hsend]
  cases hs : s.send with
  | false => rfl
  | true =>
    rw [flightEvents_eq, flightEvents_eq, hact, hcur,
      slicesEvents_congr hcfg (hd hs) (hb hs), ticksLeft, ticksLeft, hcur, hcfg]

/-- Handing over puts the lane of each driven pin of the composing instance on the pin, after what was
in flight, and nothing on any other pin (R117, R132, R134, R135). -/
theorem submit_wire {s t : State} (hs : Shaped s) (hi : TransportInv s) (h : submit s = .ok t)
    (p b : Nat) :
    wireLevels t p b = wireLevels s p b ++
      if lane (s.drvWord s.composing p) b = true then
        (List.range frameSize).map fun τ => lane (s.bufWord s.composing p τ) b
      else [] := by
  have hc := hi.cursorRange
  have hzero : ∀ u : State, u.cfg = s.cfg → u.drv = s.drv → u.buf = s.buf → Shaped u →
      drivenLevels p b (slicesEvents u s.composing 0 frameSize)
        = if lane (s.drvWord s.composing p) b = true then
            (List.range frameSize).map fun τ => lane (s.bufWord s.composing p τ) b
          else [] := by
    intro u h1 h2 h3 hu
    rw [drivenLevels_slicesEvents hu]
    simp [State.drvWord, State.bufWord, h2, h3]
  rcases submit_forms s with ⟨hm, h'⟩ | ⟨hm, n, rest, h', hd⟩ | ⟨hm, n, h', -⟩ <;> rw [h] at h'
  · rw [Res.ok.injEq] at h'
    rw [h']
    have hk : s.composing = 0 := by simp [State.composing, hm]
    have hsend := (hi.syncZero hm).2.1
    have := hzero s rfl rfl rfl hs
    rw [hk] at this ⊢
    simp [wireLevels, clockedOut, txsync, hsend, drivenLevels_append, this]
  · rw [Res.ok.injEq] at h'
    rw [h']
    have hk : s.composing = (1 - s.act).toNat := by simp [State.composing, hm]
    have hcur : (ticks n s).cur = 0 := by
      cases hsend : s.send with
      | false => rw [ticks_idle n hsend]; exact hi.idleCursor hsend
      | true =>
        rw [ticks_past hsend hc (ticksLeft_le_of_send hsend hc hd)]
        exact (ticks_ticksLeft hsend hc).2.1
    have hhist : drivenLevels p b (ticks n s).history = wireLevels s p b := by
      unfold wireLevels clockedOut
      cases hsend : s.send with
      | false => rw [ticks_idle n hsend]; simp [drivenLevels_append]
      | true =>
        rw [ticks_past hsend hc (ticksLeft_le_of_send hsend hc hd)]
        simp [drivenLevels_append]
    have ha := arm_eq (s := setSched rest (ticks n s)) hd
    have hsh : Shaped (arm (setSched rest (ticks n s))) :=
      Shaped.arm ((hs.ticks n).congr rfl rfl rfl rfl rfl)
    have hcur' : (arm (setSched rest (ticks n s))).cur = 0 := by rw [ha]; exact hcur
    have hz := hzero _ (by simp) (by simp) (by simp) hsh
    unfold wireLevels
    rw [clockedOut_history (by rw [hcur']; simp [frameSize]), drivenLevels_append, arm_send,
      if_pos rfl, flightEvents_eq, drivenLevels_append, drivenLevels_quiet, List.append_nil, hcur',
      arm_act, setSched_act, ticks_act, ← hk,
      show min (ticksLeft (arm (setSched rest (ticks n s)))) (frameSize - 0) = frameSize by
        unfold ticksLeft; rw [hcur']; omega, hz]
    congr 1
    rw [ha]
    simpa [drivenLevels_append, wireLevels] using hhist
  · cases h'

end Sys2Proof.Machine
end

