-- ==== Sys2Proof/Laws/Keeps.lean ====
section
/-! SUPPORT. How to show that a host command keeps a property: it is enough that each of its parts does.
Spec: 42_frame_scheduler.md R111, R112, R114, R116. -/

namespace Sys2Proof.Machine

variable {P : State → Prop}

theorem Res.andThen_keeps {r : Res} {next : State → Res} (hr : P r.state)
    (hn : ∀ u, P u → P (next u).state) : P (r.andThen next).state := by
  cases r with
  | ok s => exact hn s hr
  | raised s => exact hr
  | held s => exact hr

/-- A loop over strands keeps what each strand's body keeps. -/
theorem forStrands_keeps {body : Nat → Strand → State → Res} (i : Nat) (l : List Strand)
    (hbody : ∀ j st u, l[j]? = some st → P u → P (body (i + j) st u).state)
    {u : State} (h : P u) : P (forStrands body i l u).state := by
  induction l generalizing i u with
  | nil => exact h
  | cons st l ih =>
    refine Res.andThen_keeps (hbody 0 st u rfl h) fun v hv => ih (i + 1) (fun j st' w hj hw => ?_) hv
    have := hbody (j + 1) st' w (by simpa using hj) hw
    rwa [show i + (j + 1) = i + 1 + j by omega] at this

/-- The passes of a render keep what each pass and the end of the loop keep. -/
theorem renderRows_keeps (hleave : ∀ u, P u → P (leaveRow u)) (n row : Nat)
    (hrow : ∀ j u, j < n → P u → P (renderRow (row + j) u).state)
    {u : State} (h : P u) : P (renderRows n row u).state := by
  induction n generalizing row u with
  | zero => exact hleave u h
  | succ n ih =>
    refine Res.andThen_keeps (hrow 0 u (by omega) h) fun v hv => ih (row + 1) (fun j w hj hw => ?_) hv
    have := hrow (j + 1) w (by omega) hw
    rwa [show row + (j + 1) = row + 1 + j by omega] at this

/-- One pass keeps what the counter, the composition and the hand-over keep. -/
theorem renderRow_keeps (row : Nat) (hset : ∀ u, P u → P (setRow row u))
    (hcompose : ∀ u, P u → P (compose row u).state) (hsubmit : ∀ u, P u → P (submit u).state)
    {u : State} (h : P u) : P (renderRow row u).state :=
  Res.andThen_keeps (hcompose _ (hset u h)) hsubmit

/-- A host command keeps what its body and the giving of an answer keep. -/
theorem runCommand_keeps {body : State → Res} (hanswer : ∀ a u, P u → P (giveAnswer a u))
    {s : State} (h : P s) (hbody : s.fault = .none → P (body s).state) : P (runCommand body s) := by
  unfold runCommand
  split
  · exact hanswer _ _ h
  · next hf =>
    have hb := hbody (by simpa [State.faulted] using hf)
    cases hr : body s with
    | ok t => rw [hr] at hb; exact hanswer _ _ hb
    | raised t => rw [hr] at hb; exact hanswer _ _ hb
    | held t => rw [hr] at hb; exact hb

/-- Ticks in a row keep what one tick keeps. -/
theorem ticks_keeps (ht : ∀ u, P u → P (tickBody u)) (n : Nat) {u : State} (h : P u) :
    P (ticks n u) := by
  induction n with
  | zero => exact h
  | succ n ih => rw [ticks_succ]; exact ht _ ih

/-- The slices of an instance keep what one port write of it keeps. -/
theorem sliceout_keeps {k t : Nat} {s : State}
    (hw : ∀ p u, p < s.cfg.nPorts → P u → P (wmb p (s.drvWord k p) (s.bufWord k p t) u)) (h : P s) :
    P (sliceout k t s) := by
  unfold sliceout
  have : ∀ l : List Nat, (∀ p ∈ l, p < s.cfg.nPorts) → ∀ u, P u →
      P (l.foldl (fun u p => wmb p (s.drvWord k p) (s.bufWord k p t) u) u) := by
    intro l
    induction l with
    | nil => exact fun _ u hu => hu
    | cons p l ih =>
      exact fun hl u hu => ih (fun q hq => hl q (List.mem_cons_of_mem p hq)) _
        (hw p u (hl p (List.mem_cons_self ..)) hu)
  exact this _ (fun p hp => List.mem_range.1 hp) s h

/-! ### A property that every elementary action keeps -/

/-- `P` is kept by every elementary action of the block: each register write, each write of a space, the
recording of an event, the taking of a fault, an answer. -/
structure KeptByActions (P : State → Prop) : Prop where
  answer : ∀ a u, P u → P (giveAnswer a u)
  gi     : ∀ v u, P u → P (setGi v u)
  en     : ∀ v u, P u → P (setEn v u)
  img    : ∀ v u, P u → P (setImg v u)
  lf     : ∀ v u, P u → P (setLf v u)
  row    : ∀ v u, P u → P (setRow v u)
  sidx   : ∀ v u, P u → P (setSidx v u)
  draw   : ∀ u, P u → P (drawn u)
  fault  : ∀ f u, P u → P (setFault (if u.fault = .none then f else u.fault) u)
  clear  : ∀ k u, P u → P (clearDrv k u)
  drive  : ∀ k p b ls u, P u → P (driveLane k p b ls u)
  write  : ∀ p m v u, P u → P (wmb p m v u)
  idle   : ∀ u, P u → P (record .idleTick u)
  quiet  : ∀ u, P u → P (record .quietTick u)
  act    : ∀ v u, P u → P (setAct v u)
  send   : ∀ v u, P u → P (setSend v u)
  cur    : ∀ v u, P u → P (setCur v u)
  sched  : ∀ v u, P u → P (setSched v u)
  hung   : ∀ v u, P u → P (setHung v u)

theorem KeptByActions.sliceout (h : KeptByActions P) (k t : Nat) {u : State} (hu : P u) :
    P (sliceout k t u) :=
  sliceout_keeps (P := P) (fun _ _ _ hv => h.write _ _ _ _ hv) hu

theorem KeptByActions.tickBody (h : KeptByActions P) {u : State} (hu : P u) : P (tickBody u) := by
  unfold Machine.tickBody
  split
  · have ho : P (tickOutput u) := by
      unfold tickOutput
      split
      · exact h.sliceout _ _ hu
      · exact h.quiet _ hu
    unfold advanceCursor
    split
    · exact h.cur _ _ (h.send _ _ ho)
    · exact h.cur _ _ ho
  · exact h.idle _ hu

theorem KeptByActions.ticks (h : KeptByActions P) (n : Nat) {u : State} (hu : P u) : P (ticks n u) :=
  ticks_keeps (P := P) (fun _ => h.tickBody) n hu

theorem KeptByActions.txsync (h : KeptByActions P) {u : State} (hu : P u) : P (txsync u) := by
  unfold Machine.txsync
  generalize frameSize = n
  induction n with
  | zero => exact hu
  | succ n ih => exact h.sliceout _ _ ih

theorem KeptByActions.handoff (h : KeptByActions P) {u : State} (hu : P u) : P (handoff u).state := by
  rcases handoff_forms u with ⟨n, r, h', -⟩ | ⟨n, h', -⟩ <;> rw [h']
  · exact h.send _ _ (h.ticks _ (h.sched _ _ (h.act _ _ (h.sched _ _ (h.ticks _ hu)))))
  · exact h.hung _ _ (h.sched _ _ (h.ticks _ hu))

theorem KeptByActions.submit (h : KeptByActions P) {u : State} (hu : P u) : P (submit u).state := by
  unfold Machine.submit
  cases u.cfg.mode with
  | sync => simp only [Res.state]; exact h.txsync hu
  | isr => exact h.handoff hu

theorem KeptByActions.expand (h : KeptByActions P) (k : Nat) (pin : Byte) (lf : LogicalFrame)
    {u : State} (hu : P u) : P (expand k pin lf u).state := by
  rcases expand_cases k pin lf u with ⟨-, h'⟩ | ⟨p, b, -, h'⟩ <;> rw [h']
  · exact h.fault _ _ hu
  · exact h.drive _ _ _ _ _ hu

theorem KeptByActions.plan (h : KeptByActions P) (k : Nat) (plan : StrandPlan) {u : State}
    (hu : P u) : P (runPlan k plan u).state := by
  cases plan with
  | skip => exact hu
  | drive p b lf => exact h.drive _ _ _ _ _ (h.lf _ _ hu)
  | fail f lf => exact h.fault _ _ (h.lf _ _ hu)

theorem KeptByActions.compose (h : KeptByActions P) (row : Nat) {u : State} (hu : P u) :
    P (compose row u).state := by
  rw [compose_eq]
  exact Res.andThen_keeps (P := P) (forStrands_keeps (P := P) _ _
    (fun _ _ _ _ hv => h.plan _ _ (h.sidx _ _ hv)) (h.clear _ _ hu))
    fun _ hv => h.draw _ (h.sidx _ _ hv)

theorem KeptByActions.render (h : KeptByActions P) {u : State} (hu : P u) : P (render u).state :=
  renderRows_keeps (P := P) (fun _ hv => h.draw _ (h.row _ _ hv)) _ _
    (fun _ _ _ hv => renderRow_keeps (P := P) _ (fun _ => h.row _ _) (fun _ => h.compose _)
      (fun _ => h.submit) hv) hu

theorem KeptByActions.setIntensity (h : KeptByActions P) (v : Byte) {u : State} (hu : P u) :
    P (setIntensity v u).state := by
  refine Res.andThen_keeps (P := P) ?_ fun _ => h.submit
  rw [composeBroadcast_eq]
  exact forStrands_keeps (P := P) _ _ (fun _ _ _ _ hv => h.plan _ _ hv) (h.lf _ _ (h.clear _ _ (h.gi _ _ hu)))

theorem KeptByActions.sendSingle (h : KeptByActions P) (a pin r g b v : Byte) {u : State} (hu : P u) :
    P (sendSingle a pin r g b v u).state :=
  Res.andThen_keeps (P := P) (h.expand _ _ _ (h.lf _ _ (h.clear _ _ hu))) fun _ => h.submit

/-- A property that every elementary action keeps is kept by every operation. -/
theorem KeptByActions.exec (h : KeptByActions P) {i : Instr} {s t : State} (hs : P s)
    (he : exec i s = .next t) : P t := by
  cases i with
  | render => cases he; exact runCommand_keeps (P := P) h.answer hs fun _ => h.render hs
  | setint v => cases he; exact runCommand_keeps (P := P) h.answer hs fun _ => h.setIntensity v hs
  | send1 => cases he; exact runCommand_keeps (P := P) h.answer hs fun _ => h.sendSingle _ _ _ _ _ _ hs
  | wrpix =>
    cases he
    split
    · exact h.answer _ _ hs
    · unfold writePixel
      split
      · exact h.answer _ _ (h.img _ _ hs)
      · exact h.answer _ _ hs
  | wren =>
    cases he
    split
    · exact h.answer _ _ hs
    · unfold writeEnable
      split
      · exact h.answer _ _ (h.en _ _ hs)
      · exact h.answer _ _ hs
  | enc => cases he; exact h.lf _ _ hs
  | exp =>
    simp only [Machine.exec, execExp] at he
    split at he
    · cases he; exact h.expand _ _ _ hs
    · cases he
  | compose => cases he; exact h.compose _ hs
  | wmb =>
    simp only [Machine.exec, execWmb] at he
    split at he
    · cases he; exact h.write _ _ _ _ hs
    · cases he
  | sliceout =>
    simp only [Machine.exec, execSliceout] at he
    split at he
    · split at he
      · cases he; exact h.sliceout _ _ hs
      · cases he
    · cases he
  | txsync =>
    simp only [Machine.exec, execTxsync] at he
    split at he
    · rw [Host.Outcome.next.injEq] at he; rw [← he]; exact h.txsync hs
    · cases he
  | handoff =>
    simp only [Machine.exec, execHandoff] at he
    split at he
    · cases he; exact h.handoff hs
    · cases he
  | tick =>
    simp only [Machine.exec, execTick] at he
    split at he
    · cases he; exact h.tickBody hs
    · cases he
  | submit => cases he; exact h.submit hs

end Sys2Proof.Machine
end

