-- ==== Sys2Proof/Laws/Framed.lean ====
section
/-! SUPPORT. What a composition and a hand-over do to the shape of the state and to the lanes that hold
Physical Frames. Spec: 41_bit_expander.md R102, R105, R107; 42_frame_scheduler.md R112, R114, R116. -/

namespace Sys2Proof.Machine

/-! ### Frames in lanes -/

theorem Framed.congr {s t : State} (h : Framed s) (hd : t.drv = s.drv) (hb : t.buf = s.buf) :
    Framed t := by
  intro k p b
  simp only [State.drvWord, State.bufWord, hd, hb]
  exact h k p b

theorem Framed.clearDrv {u : State} (h : Framed u) (k : Nat) : Framed (clearDrv k u) := by
  intro k' p b hl
  rw [drvWord_clearDrv] at hl
  split at hl
  · simp at hl
  · exact h k' p b hl

/-- `EXP` on a recognised pin leaves a frame in the lane (R105). -/
theorem Framed.driveLane {u : State} (h : Framed u) (hs : Shaped u) {k p b : Nat}
    (hk : k < u.cfg.nbuf) (hp : p < u.cfg.nPorts) (hb : b < u.cfg.portWidth) (lf : LogicalFrame) :
    Framed (driveLane k p b (levels lf) u) := by
  intro k' p' b' hl
  rw [lane_drvWord_driveLane hs hk hp hb] at hl
  by_cases e : k' = k ∧ p' = p ∧ b' = b
  · refine ⟨lf, fun t ht => ?_⟩
    rw [lane_bufWord_driveLane hs hk hp hb (levels_length lf) _ _ _ ht, if_pos e, levels_getD lf ht]
  · simp only [e, decide_false, Bool.false_or] at hl
    obtain ⟨lf', h'⟩ := h k' p' b' hl
    refine ⟨lf', fun t ht => ?_⟩
    rw [lane_bufWord_driveLane hs hk hp hb (levels_length lf) _ _ _ ht, if_neg e, h' t ht]

/-! ### The pins a composition drives -/

/-- A plan that drives a pin drives the strand's own, which is recognised (R112). -/
theorem composePlan_drive {s : State} {row i : Nat} {st : Strand} {lf lf' : LogicalFrame} {p b : Nat}
    (h : composePlan s row i st lf = .drive p b lf') : pinMap s.cfg st.pin = some (p, b) := by
  unfold composePlan at h
  split at h
  · split at h
    · rcases pinPlan_cases s.cfg st (rowFrame s row st) with ⟨p', b', hp, he⟩ | ⟨-, he⟩
      · rw [he] at h; cases h; exact hp
      · rw [he] at h; cases h
    · cases h
  · cases h

/-- A plan that drives a pin drives the strand's own, which is recognised (R114). -/
theorem broadcastPlan_drive {s : State} {i : Nat} {st : Strand} {lf lf' : LogicalFrame} {p b : Nat}
    (h : broadcastPlan s i st lf = .drive p b lf') : pinMap s.cfg st.pin = some (p, b) := by
  unfold broadcastPlan at h
  split at h
  · rcases pinPlan_cases s.cfg st lf with ⟨p', b', hp, he⟩ | ⟨-, he⟩
    · rw [he] at h; cases h; exact hp
    · rw [he] at h; cases h
  · cases h

/-! ### What every composition keeps -/

/-- A property of the spaces that a composition into instance `k` keeps: it does not depend on `LF`,
`SIDX`, `FAULT` or the draws, and clearing the masks of `k` and driving a pin of the table in `k` keep
it. -/
structure KeptByLanes (c : Config) (k : Nat) (P : State → Prop) : Prop where
  lf    : ∀ v u, P u → P (setLf v u)
  sidx  : ∀ i u, i < c.strandCount → P u → P (setSidx i u)
  leave : ∀ u, P u → P (leaveSidx u)
  fault : ∀ f u, P u → P (setFault f u)
  clear : ∀ u, P u → P (clearDrv k u)
  drive : ∀ (i : Nat) (st : Strand) p b lf u, c.strands[i]? = some st → pinMap c st.pin = some (p, b) → P u →
    P (driveLane k p b (levels lf) u)

variable {P : State → Prop}

theorem KeptByLanes.loop {c : Config} {k : Nat} (h : KeptByLanes c k P)
    {cn : Counter} {plan : Nat → Strand → LogicalFrame → StrandPlan}
    (hp : ∀ i st lf p b lf', plan i st lf = .drive p b lf' → pinMap c st.pin = some (p, b))
    {u : State} (hu : P u) : P (forStrands (planBody cn k plan) 0 c.strands u).state := by
  refine forStrands_keeps (P := P) _ _ (fun j st v hj hv => ?_) hu
  rw [Nat.zero_add]
  have hm : P (cn.mark j v) := by
    cases cn
    · exact h.sidx _ _ (List.getElem?_eq_some_iff.1 hj).1 hv
    · exact hv
  unfold planBody
  cases e : plan j st v.lf with
  | skip => exact hm
  | drive p b lf => exact h.drive j st p b lf _ hj (hp _ _ _ _ _ _ e) (h.lf _ _ hm)
  | fail f lf => exact h.fault _ _ (h.lf _ _ hm)

theorem KeptByLanes.compose {s : State} (h : KeptByLanes s.cfg s.composing P) (row : Nat) (hs : P s) :
    P (compose row s).state := by
  rw [compose_eq]
  exact Res.andThen_keeps (P := P)
    (h.loop (fun _ _ _ _ _ _ e => composePlan_drive e) (h.clear _ hs)) h.leave

theorem KeptByLanes.composeBroadcast {s : State} (h : KeptByLanes s.cfg s.composing P) (v : Byte)
    (hs : P (setGi v s)) : P (composeBroadcast v s).state := by
  rw [composeBroadcast_eq]
  exact h.loop (fun _ _ _ _ _ _ e => broadcastPlan_drive e) (h.lf _ _ (h.clear _ hs))

/-! ### The shape and the frames, through compositions and hand-overs -/

/-- The shape, the frames and the configuration together. -/
structure Sound (c : Config) (u : State) : Prop where
  cfg    : u.cfg = c
  shaped : Shaped u
  framed : Framed u

theorem Sound.congr {c : Config} {u v : State} (h : Sound c u) (h1 : v.cfg = u.cfg)
    (h2 : v.buf = u.buf) (h3 : v.drv = u.drv) (h4 : v.port = u.port) (h5 : v.en = u.en) :
    Sound c v :=
  ⟨h1.trans h.cfg, h.shaped.congr h1 h2 h3 h4 h5, h.framed.congr h3 h2⟩

theorem sound_kept {c : Config} {k : Nat} (hk : k < c.nbuf) : KeptByLanes c k (Sound c) where
  lf _ _ h := h.congr rfl rfl rfl rfl rfl
  sidx _ _ _ h := h.congr rfl rfl rfl rfl rfl
  leave _ h := h.congr rfl rfl rfl rfl rfl
  fault _ _ h := h.congr rfl rfl rfl rfl rfl
  clear _ h := ⟨h.cfg, h.shaped.clearDrv k, h.framed.clearDrv k⟩
  drive i st p b lf u _ hp h := by
    obtain ⟨r1, r2⟩ := pinMap_range hp
    refine ⟨h.cfg, h.shaped.driveLane k p b (levels_length lf), ?_⟩
    refine h.framed.driveLane h.shaped ?_ ?_ ?_ lf <;> rw [h.cfg] <;> assumption

theorem Shaped.submit {u : State} (h : Shaped u) : Shaped (submit u).state := by
  rcases submit_forms u with ⟨-, h'⟩ | ⟨-, n, r, h', -⟩ | ⟨-, n, h', -⟩ <;> rw [h']
  · simp only [Res.state]; exact h.slicesOut ..
  · exact Shaped.arm ((h.ticks n).congr rfl rfl rfl rfl rfl)
  · exact (h.ticks n).congr rfl rfl rfl rfl rfl

theorem Sound.submit {c : Config} {u : State} (h : Sound c u) : Sound c (submit u).state :=
  ⟨(submit_same u).cfg.trans h.cfg, h.shaped.submit,
    h.framed.congr (submit_same u).drv (submit_same u).buf⟩

theorem Sound.compose {c : Config} {u : State} (h : Sound c u) (row : Nat) :
    Sound c (compose row u).state := by
  have hc := h.cfg
  subst hc
  exact (sound_kept (composing_lt u)).compose row h

theorem Sound.composeBroadcast {c : Config} {u : State} (h : Sound c u) (v : Byte) :
    Sound c (composeBroadcast v u).state := by
  have hc := h.cfg
  subst hc
  exact (sound_kept (composing_lt u)).composeBroadcast v (h.congr rfl rfl rfl rfl rfl)

theorem Sound.composeSingle {c : Config} {u : State} (h : Sound c u) (a pin r g b v : Byte) :
    Sound c (composeSingle a pin r g b v u).state := by
  have hc := h.cfg
  subst hc
  have h0 : Sound u.cfg (encodeFrame a.toNat r g b v (clearDrv u.composing u)) :=
    ((sound_kept (composing_lt u)).clear _ h).congr rfl rfl rfl rfl rfl
  unfold Machine.composeSingle
  rcases expand_cases u.composing pin (encodeFrame a.toNat r g b v (clearDrv u.composing u)).lf
    (encodeFrame a.toNat r g b v (clearDrv u.composing u)) with ⟨-, e⟩ | ⟨p, n, hp, e⟩ <;>
    simp only [e]
  · exact h0.congr rfl rfl rfl rfl rfl
  · obtain ⟨r1, r2⟩ := pinMap_range hp
    exact ⟨rfl, h0.shaped.driveLane _ p n (levels_length _),
      h0.framed.driveLane h0.shaped (composing_lt u) r1 r2 _⟩

end Sys2Proof.Machine
end

