-- ==== Sys2Proof/Laws/Actions.lean ====
section
/-! SUPPORT. What the atomic actions of each part of a command do together: what that part does in one
step of `exec`. Spec: 00_scope.md R18; 43_transport_driver.md R137; entry 20. -/

namespace Sys2Proof.Machine

/-! ### Lists -/

theorem modify_eq_set {α : Type} (l : List α) (i : Nat) (f : α → α) (d : α) :
    l.modify i f = l.set i (f (l.getD i d)) := by
  apply List.ext_getElem?
  intro j
  simp only [List.getElem?_modify, List.getElem?_set, List.getD_eq_getElem?_getD]
  by_cases h : i = j
  · subst h
    by_cases hi : i < l.length <;> simp [hi]
  · simp [h]

theorem modify_congr_mem {α : Type} {l : List α} {i : Nat} {f g : α → α}
    (h : ∀ x ∈ l, f x = g x) : l.modify i f = l.modify i g := by
  apply List.ext_getElem?
  intro j
  simp only [List.getElem?_modify]
  cases hx : l[j]? with
  | none => rfl
  | some x => by_cases hij : i = j <;> simp [hij, h x (List.mem_of_getElem? hx)]

/-- Elements written one after another, each to the same value. -/
theorem foldl_set_replicate {α : Type} (v : α) (l : List α) :
    (List.range l.length).foldl (fun ms p => ms.set p v) l = List.replicate l.length v := by
  have key : ∀ n j, ((List.range n).foldl (fun ms p => ms.set p v) l)[j]?
      = if j < n ∧ j < l.length then some v else l[j]? := by
    intro n
    induction n with
    | zero => simp
    | succ n ih =>
      intro j
      have hlen : ((List.range n).foldl (fun ms p => ms.set p v) l).length = l.length := by
        clear ih
        induction n with
        | zero => rfl
        | succ n ih => simp [List.range_succ, ih]
      rw [List.range_succ, List.foldl_append]
      simp only [List.foldl_cons, List.foldl_nil, List.getElem?_set, hlen, ih]
      by_cases h : n = j
      · subst h; by_cases hl : n < l.length <;> simp [hl]
      · simp only [h, if_false]
        by_cases hl : j < l.length <;> simp [hl]
        · congr 1; simp; omega
  apply List.ext_getElem?
  intro j
  rw [key, List.getElem?_replicate]
  by_cases hj : j < l.length <;> simp [hj]

/-- Elements rewritten one after another, each from what it held. -/
theorem foldl_set_zipWith {α β : Type} (f : α → β → α) (d : α) (ys : List β) (e : β) (l : List α)
    (h : l.length = ys.length) :
    (List.range l.length).foldl (fun ws t => ws.set t (f (ws.getD t d) (ys.getD t e))) l
      = List.zipWith f l ys := by
  have key : ∀ n j, ((List.range n).foldl (fun ws t => ws.set t (f (ws.getD t d) (ys.getD t e))) l)[j]?
      = if j < n then (l[j]?).map fun x => f x (ys.getD j e) else l[j]? := by
    intro n
    induction n with
    | zero => simp
    | succ n ih =>
      intro j
      rw [List.range_succ, List.foldl_append]
      simp only [List.foldl_cons, List.foldl_nil, ← modify_eq_set (f := fun x => f x (ys.getD n e)),
        List.getElem?_modify, ih]
      by_cases h : n = j
      · subst h; simp
      · simp only [h, if_false]
        by_cases hj : j < n
        · simp [hj, show j < n + 1 by omega]
        · simp [hj, show ¬ j < n + 1 by omega]
  apply List.ext_getElem?
  intro j
  rw [key, List.getElem?_zipWith]
  by_cases hj : j < l.length
  · have hy : j < ys.length := by omega
    simp [hj, hy]
  · simp [hj]

/-! ### Ways of running the actions -/

theorem mainAction_cons (s : State) (a : Action) (todo : List Action) :
    mainAction ⟨s, a :: todo⟩ = ⟨(a.run s).state, (a.run s).first ++ a.rest todo⟩ := rfl

/-- Every action but the two before which ticks matter (43_transport_driver.md R137 (b), (c)). -/
def Action.free : Action → Bool
  | .readSend => false
  | .raiseSend => false
  | _ => true

/-- What is left of the work of a command that a fault has ended. -/
abbrev answerOnly (todo : List Action) : List Action := todo.filter fun b => b = .finish

/-- A way of running the main path's actions: which moments it leads to, from which moments it never
gets to the end of the command, and in which state `exec` says that it is held. -/
structure Walk where
  reach    : Moment → Moment → Prop
  stuck    : Moment → Prop
  kept     : Moment → State → Prop
  refl     : ∀ m, reach m m
  trans    : ∀ {m m' m''}, reach m m' → reach m' m'' → reach m m''
  stuck_of : ∀ {m m'}, reach m m' → stuck m' → stuck m
  kept_of  : ∀ {m m' t}, reach m m' → kept m' t → kept m t
  act      : ∀ s (a : Action) todo, a.free = true → reach ⟨s, a :: todo⟩ (mainAction ⟨s, a :: todo⟩)

/-- The walk from `m` ends as the operation did, with `todo` still to be done. -/
def Walk.Ends (w : Walk) (m : Moment) (r : Res) (todo : List Action) : Prop :=
  w.stuck m ∨
    match r with
    | .ok t => w.reach m ⟨t, todo⟩
    | .raised t => w.reach m ⟨t, answerOnly todo⟩
    | .held t => w.kept m t

variable {w : Walk}

theorem Walk.Ends.of_reach {m m' : Moment} {r : Res} {todo : List Action} (h : w.reach m m')
    (he : w.Ends m' r todo) : w.Ends m r todo := by
  rcases he with he | he
  · exact .inl (w.stuck_of h he)
  · right
    cases r with
    | ok t => exact w.trans h he
    | raised t => exact w.trans h he
    | held t => exact w.kept_of h he

theorem Walk.Ends.act {s : State} {a : Action} {rest todo : List Action} {r : Res}
    (ha : a.free = true) (h : w.Ends (mainAction ⟨s, a :: rest⟩) r todo) :
    w.Ends ⟨s, a :: rest⟩ r todo := h.of_reach (w.act s a rest ha)

theorem Walk.ends_ok (w : Walk) (t : State) (todo : List Action) : w.Ends ⟨t, todo⟩ (.ok t) todo :=
  .inr (w.refl _)

/-- Two parts of a command in a row. -/
theorem Walk.Ends.andThen {m : Moment} {r : Res} {next : State → Res} (inner : List Action)
    {todo : List Action} (hin : answerOnly inner = []) (h : w.Ends m r (inner ++ todo))
    (hn : ∀ t, r = .ok t → w.Ends ⟨t, inner ++ todo⟩ (next t) todo) :
    w.Ends m (r.andThen next) todo := by
  rcases h with h | h
  · exact .inl h
  · cases r with
    | ok t => exact (hn t rfl).of_reach h
    | raised t =>
      right
      have : answerOnly (inner ++ todo) = answerOnly todo :=
        (List.filter_append ..).trans (congrArg (· ++ answerOnly todo) hin)
      simpa only [Res.andThen, this] using h
    | held t => exact .inr h

/-- A part of a command that ends `ok`, then the next. -/
theorem Walk.Ends.ok {m : Moment} {t : State} {todo todo' : List Action} {r : Res}
    (h : w.Ends m (.ok t) todo') (hn : w.Ends ⟨t, todo'⟩ r todo) : w.Ends m r todo := by
  rcases h with h | h
  · exact .inl h
  · exact hn.of_reach h

/-! ### Compositions -/

/-- The clearing of the masks (42_frame_scheduler.md R112). -/
theorem Walk.clear (w : Walk) {s : State} (hs : Shaped s) (k : Nat) (todo : List Action) :
    w.reach ⟨s, clearActions s.cfg k ++ todo⟩ ⟨clearDrv k s, todo⟩ := by
  have key : ∀ (l : List Nat) (u : State),
      w.reach ⟨u, (l.map fun p => Action.writeMask k p 0) ++ todo⟩
        ⟨{ u with drv := u.drv.modify k fun ms => l.foldl (fun ms p => ms.set p 0) ms }, todo⟩ := by
    intro l
    induction l with
    | nil =>
      intro u
      have : u.drv.modify k (fun ms => ms) = u.drv := List.modify_id ..
      simp only [List.map_nil, List.nil_append, List.foldl_nil, this]
      exact w.refl _
    | cons p l ih =>
      intro u
      refine w.trans (w.act u (.writeMask k p 0) _ rfl) ?_
      have := ih (setMask k p 0 u)
      simp only [setMask_drv, List.modify_modify_eq] at this
      exact this
  have h := key (List.range s.cfg.nPorts) s
  have he : (s.drv.modify k fun ms => (List.range s.cfg.nPorts).foldl (fun ms p => ms.set p 0) ms)
      = s.drv.modify k fun _ => List.replicate s.cfg.nPorts 0 := by
    refine modify_congr_mem fun ms hm => ?_
    rw [← hs.drvPorts ms hm]
    exact foldl_set_replicate 0 ms
  rw [he] at h
  exact h

/-- The 80 read-modify-writes of a lane (41_bit_expander.md R100; 20_memory.md R58). -/
theorem Walk.lane (w : Walk) {s : State} (hs : Shaped s) (k p bit : Nat) (lf : LogicalFrame)
    (todo : List Action) :
    w.reach
      ⟨s, ((List.range frameSize).map fun t => Action.readWord k p bit t (lev lf t)) ++ todo⟩
      ⟨{ s with buf := s.buf.modify k fun ports => ports.modify p fun words =>
          List.zipWith (fun old level => setLane s.cfg.portWidth bit level old) words (levels lf) },
        todo⟩ := by
  have key : ∀ (l : List Nat) (u : State), (∀ t ∈ l, t < frameSize) → u.cfg = s.cfg →
      w.reach ⟨u, (l.map fun t => Action.readWord k p bit t (lev lf t)) ++ todo⟩
        ⟨{ u with buf := u.buf.modify k fun ports => ports.modify p fun words =>
            l.foldl (fun ws t => ws.set t (
              setLane s.cfg.portWidth bit ((levels lf).getD t false) (ws.getD t 0))) words },
          todo⟩ := by
    intro l
    induction l with
    | nil =>
      intro u _ _
      have h1 : ∀ ports : List (List PortWord), ports.modify p (fun ws => ws) = ports :=
        fun ports => List.modify_id ..
      have h2 : u.buf.modify k (fun ports => ports) = u.buf := List.modify_id ..
      simp only [List.map_nil, List.nil_append, List.foldl_nil, h1, h2]
      exact w.refl _
    | cons t l ih =>
      intro u hl hc
      refine w.trans (w.act u (.readWord k p bit t (lev lf t)) _ rfl) ?_
      refine w.trans (w.act u (.writeWord k p t _) _ rfl) ?_
      have := ih (setWord k p t (setLane u.cfg.portWidth bit (lev lf t) (u.bufWord k p t)) u)
        (fun x hx => hl x (List.mem_cons_of_mem _ hx)) hc
      have he : (setWord k p t (setLane u.cfg.portWidth bit (lev lf t) (u.bufWord k p t)) u).buf
          = u.buf.modify k fun ports => ports.modify p fun ws => ws.set t
              (setLane s.cfg.portWidth bit ((levels lf).getD t false) (ws.getD t 0)) := by
        rw [setWord_buf, levels_getD lf (hl t (List.mem_cons_self ..)), hc,
          modify_eq_set (d := ([] : List (List PortWord))),
          modify_eq_set (l := u.buf) (d := ([] : List (List PortWord))),
          modify_eq_set (d := ([] : List PortWord)),
          modify_eq_set (l := u.buf.getD k []) (d := ([] : List PortWord))]
        rfl
      simp only [he, List.modify_modify_eq] at this
      have hf : ∀ f g : List PortWord → List PortWord,
          (fun l : List (List PortWord) => l.modify p f) ∘ (fun l : List (List PortWord) => l.modify p g)
            = fun l => l.modify p (f ∘ g) := by
        intro f g; funext l; exact List.modify_modify_eq ..
      rw [hf] at this
      exact this
  have h := key (List.range frameSize) s (fun t ht => List.mem_range.1 ht) rfl
  have he : (s.buf.modify k fun ports => ports.modify p fun words =>
        (List.range frameSize).foldl (fun ws t => ws.set t
          (setLane s.cfg.portWidth bit ((levels lf).getD t false) (ws.getD t 0))) words)
      = s.buf.modify k fun ports => ports.modify p fun words =>
          List.zipWith (fun old level => setLane s.cfg.portWidth bit level old) words (levels lf) := by
    refine modify_congr_mem fun ports hp => modify_congr_mem fun words hw => ?_
    have hl := hs.bufSlices ports hp words hw
    have := foldl_set_zipWith (fun old level => setLane s.cfg.portWidth bit level old) 0 (levels lf)
      false words (by rw [hl, levels_length])
    rw [hl] at this
    exact this
  rw [he] at h
  exact h

/-- `EXP(k, pin, LF)` (41_bit_expander.md R100, R103). -/
theorem Walk.expand (w : Walk) {s : State} (hs : Shaped s) (k : Nat) (pin : Byte)
    (todo : List Action) : w.Ends ⟨s, .readLf k pin :: todo⟩ (expand k pin s.lf s) todo := by
  refine .act rfl ?_
  rw [mainAction_cons]
  simp only [Action.run, actedThen, Action.rest]
  unfold Machine.expand expandActions
  cases hp : pinMap s.cfg pin with
  | none => exact .inr (w.act s (.raise (.invalidPin pin)) todo rfl)
  | some pb =>
    refine .act rfl (.act rfl ?_)
    refine .of_reach (w.lane (s := setMask k pb.1 _ s) ?_ k pb.1 pb.2 s.lf todo) ?_
    · refine ⟨hs.bufInstances, hs.bufPorts, hs.bufSlices, hs.bufWords, ?_, ?_, ?_, hs.portCount,
        hs.portWords, hs.enCount⟩
      · simpa using hs.drvInstances
      · exact forall_mem_modify hs.drvPorts fun ms hm => by simpa using hs.drvPorts ms hm
      · refine forall_mem_modify hs.drvWords fun ms hm x hx => ?_
        rcases List.mem_or_eq_of_mem_set hx with hx | hx
        · exact hs.drvWords ms hm x hx
        · rw [hx]; exact setLane_lt ..
    · refine .inr ?_
      have he : (driveLane k pb.1 pb.2 (levels s.lf) s).drv
          = (setMask k pb.1 (setLane s.cfg.portWidth pb.2 true (s.drvWord k pb.1)) s).drv := by
        rw [driveLane_drv, setMask_drv, modify_eq_set (d := ([] : List PortWord)),
          modify_eq_set (l := s.drv) (d := ([] : List PortWord)),
          modify_eq_set (d := (0 : PortWord))]
        rfl
      have : driveLane k pb.1 pb.2 (levels s.lf) s
          = { setMask k pb.1 (setLane s.cfg.portWidth pb.2 true (s.drvWord k pb.1)) s with
              buf := (driveLane k pb.1 pb.2 (levels s.lf) s).buf } := by
        ext1 <;> first | rfl | exact he
      simp only
      rw [this]
      exact w.refl _

theorem Res.andThen_assoc (r : Res) (f g : State → Res) :
    (r.andThen f).andThen g = r.andThen fun t => (f t).andThen g := by cases r <;> rfl

theorem Shaped.expand {s : State} (h : Shaped s) (k : Nat) (pin : Byte) (lf : LogicalFrame) :
    Shaped (Machine.expand k pin lf s).state := by
  rcases expand_cases k pin lf s with ⟨-, e⟩ | ⟨p, b, -, e⟩ <;> rw [e]
  · exact h.congr rfl rfl rfl rfl rfl
  · exact h.driveLane k p b (levels_length lf)

theorem Shaped.setLf {s : State} (h : Shaped s) (lf : LogicalFrame) : Shaped (setLf lf s) :=
  h.congr rfl rfl rfl rfl rfl

theorem Shaped.composeStrand {s : State} (h : Shaped s) (k row i : Nat) (st : Strand) :
    Shaped (Machine.composeStrand k row i st s).state := by
  have h' : Shaped (setSidx i s) := h.congr rfl rfl rfl rfl rfl
  unfold Machine.composeStrand composeActive
  split
  · split
    · exact (h'.setLf _).expand ..
    · exact h'.congr rfl rfl rfl rfl rfl
  · exact h'

theorem Shaped.compose {s : State} (h : Shaped s) (row : Nat) :
    Shaped (Machine.compose row s).state :=
  Res.andThen_keeps (P := Shaped)
    (forStrands_keeps (P := Shaped) _ _ (fun _ _ _ _ hu => hu.composeStrand ..) (h.clearDrv _))
    fun _ hu => hu.congr rfl rfl rfl rfl rfl

theorem Shaped.broadcastStrand {s : State} (h : Shaped s) (k i : Nat) (st : Strand) :
    Shaped (Machine.broadcastStrand k i st s).state := by
  unfold Machine.broadcastStrand
  split
  · exact h.expand ..
  · exact h

/-- One strand of a row (42_frame_scheduler.md R112, R113). -/
theorem Walk.rowStrand (w : Walk) {s : State} (hs : Shaped s) (k row i : Nat) (st : Strand)
    (todo : List Action) :
    w.Ends ⟨s, .nextStrand k row i st :: todo⟩ (composeStrand k row i st s) todo := by
  refine .act rfl (.act rfl ?_)
  simp only [mainAction_cons, Action.run, actedThen, Action.rest]
  unfold composeStrand composeActive
  rw [show (setSidx i s).active row i st = s.active row i st from rfl]
  split
  · split
    · have hs' : Shaped (setSidx i s) := hs.congr rfl rfl rfl rfl rfl
      exact .act rfl (.act rfl (.act rfl (w.expand (hs'.setLf _) k st.pin todo)))
    · exact .inr (w.act _ (.raise _) todo rfl)
  · exact w.ends_ok _ _

@[simp] theorem answerOnly_rowActions (k row i : Nat) (l : List Strand) :
    answerOnly (rowActions k row i l) = [] := by
  induction l generalizing i with
  | nil => rfl
  | cons st l ih => exact ih (i + 1)

@[simp] theorem answerOnly_broadcastActions (k i : Nat) (l : List Strand) :
    answerOnly (broadcastActions k i l) = [] := by
  induction l generalizing i with
  | nil => rfl
  | cons st l ih => exact ih (i + 1)

/-- The strands of a row (R112). -/
theorem Walk.rowStrands (w : Walk) (k row i : Nat) (l : List Strand) {s : State} (hs : Shaped s)
    (todo : List Action) :
    w.Ends ⟨s, rowActions k row i l ++ todo⟩
      ((forStrands (composeStrand k row) i l s).andThen fun t => .ok (leaveSidx t)) todo := by
  induction l generalizing i s with
  | nil => exact .act rfl (w.ends_ok _ _)
  | cons st l ih =>
    unfold forStrands
    rw [Res.andThen_assoc]
    refine .andThen (rowActions k row (i + 1) l) (answerOnly_rowActions ..)
      (w.rowStrand hs k row i st _) fun t ht => ih (i + 1) ?_
    have := hs.composeStrand k row i st
    rwa [ht] at this

/-- The strands of a broadcast (R114). -/
theorem Walk.broadcastStrands (w : Walk) (k i : Nat) (l : List Strand) {s : State} (hs : Shaped s)
    (todo : List Action) :
    w.Ends ⟨s, broadcastActions k i l ++ todo⟩ (forStrands (broadcastStrand k) i l s) todo := by
  induction l generalizing i s with
  | nil => exact w.ends_ok _ _
  | cons st l ih =>
    refine .andThen (broadcastActions k (i + 1) l) (answerOnly_broadcastActions ..) (.act rfl ?_)
      fun t ht => ih (i + 1) ?_
    · simp only [mainAction_cons, Action.run, actedThen, Action.rest]
      unfold broadcastStrand
      split
      · exact w.expand hs k st.pin _
      · exact w.ends_ok _ _
    · have := hs.broadcastStrand k i st
      rwa [ht] at this

/-- `COMPOSE(row)` (R112). -/
theorem Walk.compose (w : Walk) {s : State} (hs : Shaped s) (row : Nat) (todo : List Action) :
    w.Ends ⟨s, .startRow row :: todo⟩ (compose row s) todo := by
  refine .act rfl ?_
  simp only [mainAction_cons, Action.run, actedThen, Action.rest, List.append_assoc]
  exact .of_reach (w.clear hs _ _) (w.rowStrands _ row 0 _ (hs.clearDrv _) todo)

/-- The composition of `SETINT` after the write of `GI` is in it (R114). -/
theorem Walk.composeBroadcast (w : Walk) {s : State} (hs : Shaped s) (v : Byte)
    (todo : List Action) :
    w.Ends ⟨s, .writeGi v :: .startBroadcast v :: todo⟩ (composeBroadcast v s) todo := by
  refine .act rfl (.act rfl ?_)
  simp only [mainAction_cons, Action.run, actedThen, acted, Action.rest, List.append_assoc]
  have hg : Shaped (setGi v s) := hs.congr rfl rfl rfl rfl rfl
  exact .of_reach (w.clear hg _ _)
    (.act rfl (w.broadcastStrands _ 0 _ ((hg.clearDrv _).setLf _) todo))

/-- The composition of `SEND1` (R116). -/
theorem Walk.composeSingle (w : Walk) {s : State} (hs : Shaped s) (a pin r g b v : Byte)
    (todo : List Action) :
    w.Ends ⟨s, .startSingle a pin r g b v :: todo⟩ (composeSingle a pin r g b v s) todo := by
  refine .act rfl ?_
  simp only [mainAction_cons, Action.run, actedThen, Action.rest, List.append_assoc]
  exact .of_reach (w.clear hs _ _)
    (.act rfl (w.expand ((hs.clearDrv _).setLf _) _ pin todo))

/-! ### Hand-overs -/

/-- One port write read and written in three actions (43_transport_driver.md R130). -/
theorem setPort_portWord (p : Nat) (mask bits : PortWord) (s : State) :
    setPort p (s.portWord p) mask bits s = wmb p mask bits s := by
  unfold setPort wmb State.portWord
  rw [modify_eq_set (d := 0)]

/-- `SLICEOUT(k, t)` (R131). -/
theorem Walk.slice (w : Walk) (s : State) (k t : Nat) (todo : List Action) :
    w.reach ⟨s, sliceActions s.cfg k t ++ todo⟩ ⟨sliceout k t s, todo⟩ := by
  have key : ∀ (l : List Nat) (u : State), u.drv = s.drv → u.buf = s.buf →
      w.reach ⟨u, (l.map fun p => Action.readSliceMask k t p) ++ todo⟩
        ⟨l.foldl (fun u p => wmb p (s.drvWord k p) (s.bufWord k p t) u) u, todo⟩ := by
    intro l
    induction l with
    | nil => intro u _ _; exact w.refl _
    | cons p l ih =>
      intro u hd hb
      refine w.trans (w.act u (.readSliceMask k t p) _ rfl) ?_
      refine w.trans (w.act u (.readSliceWord k t p _) _ rfl) ?_
      refine w.trans (w.act u (.readPort p _ _) _ rfl) ?_
      refine w.trans (w.act u (.writePort p _ _ _) _ rfl) ?_
      have := ih (setPort p (u.portWord p) (u.drvWord k p) (u.bufWord k p t) u) hd hb
      rw [setPort_portWord] at this
      have h1 : u.drvWord k p = s.drvWord k p := by unfold State.drvWord; rw [hd]
      have h2 : u.bufWord k p t = s.bufWord k p t := by unfold State.bufWord; rw [hb]
      simp only [mainAction_cons, Action.run, acted, Action.rest, setPort_portWord]
      rw [h1, h2] at this ⊢
      exact this
  exact key _ s rfl rfl

/-- The first `n` slices of an instance, in order (R132). -/
theorem Walk.slices (w : Walk) (k n : Nat) (s : State) (todo : List Action) :
    w.reach ⟨s, ((List.range n).flatMap fun t => sliceActions s.cfg k t) ++ todo⟩
      ⟨slicesOut k n s, todo⟩ := by
  induction n generalizing todo with
  | zero => exact w.refl _
  | succ n ih =>
    rw [List.range_succ, List.flatMap_append, List.append_assoc]
    refine w.trans (ih _) ?_
    simp only [List.flatMap_cons, List.flatMap_nil, List.append_nil]
    have := w.slice (slicesOut k n s) k n todo
    rwa [slicesOut_cfg] at this

/-- The walk follows `HANDOFF` as `exec` runs it (R134, R136). -/
def Walk.Hands (w : Walk) : Prop :=
  ∀ s todo, s.cfg.mode = .isr → w.Ends ⟨s, .readSend :: todo⟩ (handoff s) todo

/-- `SUBMIT` (42_frame_scheduler.md R117). -/
theorem Walk.submit (hh : w.Hands) (s : State) (todo : List Action) :
    w.Ends ⟨s, submitActions s.cfg ++ todo⟩ (submit s) todo := by
  unfold submitActions Machine.submit
  cases hm : s.cfg.mode with
  | sync => exact .inr (w.slices 0 frameSize s todo)
  | isr => exact hh s todo hm

/-! ### Host commands -/

@[simp] theorem answerOnly_submitActions (c : Config) : answerOnly (submitActions c) = [] := by
  unfold submitActions
  cases c.mode with
  | sync =>
    rw [answerOnly, List.filter_eq_nil_iff]
    intro a ha
    simp only [sliceActions, List.mem_flatMap, List.mem_map] at ha
    obtain ⟨_, _, _, _, rfl⟩ := ha
    simp
  | isr => rfl

/-- The rows of a render (42_frame_scheduler.md R111). -/
theorem Walk.rows (hh : w.Hands) (n row : Nat) {s : State} (hs : Shaped s) (todo : List Action) :
    w.Ends ⟨s, .nextRow n row :: todo⟩ (renderRows n row s) todo := by
  induction n generalizing row s with
  | zero => exact .act rfl (w.ends_ok _ _)
  | succ n ih =>
    refine .act rfl ?_
    unfold renderRows renderRow
    rw [Res.andThen_assoc]
    have hrow : Shaped (setRow row s) := hs.congr rfl rfl rfl rfl rfl
    simp only [mainAction_cons, Action.run, actedThen, Action.rest, List.cons_append]
    refine .andThen (submitActions s.cfg ++ [.nextRow n (row + 1)])
      (by rw [answerOnly, List.filter_append]; simp)
      (w.compose hrow row _) fun t ht => ?_
    have hc : t.cfg = s.cfg := by
      have := (compose_cases row (setRow row s)).2.cfg
      rwa [ht] at this
    have ht' : Shaped t := by
      have := hrow.compose row
      rwa [ht] at this
    refine .andThen [.nextRow n (row + 1)] rfl ?_ fun u hu => ih (row + 1) ?_
    · rw [List.append_assoc, ← hc]
      exact w.submit hh t _
    · have := ht'.submit
      rwa [hu] at this

/-- What an operation says of `FAULT` by how it ends: `ok` leaves it, a fault has set it
(60_exceptions.md R150). -/
def Telling (s : State) : Res → Prop
  | .ok t => t.fault = s.fault
  | .raised t => t.fault ≠ .none
  | .held _ => True

theorem Telling.congr {s s' : State} {r : Res} (h : Telling s r) (hf : s'.fault = s.fault) :
    Telling s' r := by
  cases r with
  | ok t => exact Eq.trans h hf.symm
  | raised t => exact h
  | held t => trivial

theorem Telling.andThen {s : State} {r : Res} {next : State → Res} (h : Telling s r)
    (hn : ∀ t, Telling t (next t)) : Telling s (r.andThen next) := by
  cases r with
  | ok t => exact (hn t).congr (Eq.symm h)
  | raised t => exact h
  | held t => trivial

theorem telling_raise {f : FaultRecord} (hf : f ≠ .none) (s : State) : Telling s (raise f s) := by
  show (setFault (if s.fault = .none then f else s.fault) s).fault ≠ .none
  by_cases h : s.fault = .none <;> simp [h, hf]

theorem telling_expand (k : Nat) (pin : Byte) (lf : LogicalFrame) (s : State) :
    Telling s (expand k pin lf s) := by
  unfold expand
  split
  · exact telling_raise (by simp) s
  · exact rfl

theorem telling_forStrands {body : Nat → Strand → State → Res}
    (hb : ∀ i st s, Telling s (body i st s)) (i : Nat) (l : List Strand) (s : State) :
    Telling s (forStrands body i l s) := by
  induction l generalizing i s with
  | nil => exact rfl
  | cons st l ih => exact (hb i st s).andThen (ih (i + 1))

theorem telling_composeStrand (k row i : Nat) (st : Strand) (s : State) :
    Telling s (composeStrand k row i st s) := by
  unfold composeStrand composeActive
  split
  · split
    · exact (telling_expand ..).congr rfl
    · exact (telling_raise (by simp) _).congr rfl
  · exact rfl

theorem telling_broadcastStrand (k i : Nat) (st : Strand) (s : State) :
    Telling s (broadcastStrand k i st s) := by
  unfold broadcastStrand
  split
  · exact telling_expand ..
  · exact rfl

theorem telling_compose (row : Nat) (s : State) : Telling s (compose row s) :=
  ((telling_forStrands (telling_composeStrand _ row) ..).congr (s := clearDrv s.composing s) rfl).andThen
    fun _ => rfl

theorem telling_submit (s : State) : Telling s (submit s) := by
  cases h : submit s with
  | ok t => have := (submit_same s).fault; rw [h] at this; exact this
  | raised t => exact absurd h (submit_ne_raised s t)
  | held t => trivial

theorem telling_renderRows (n row : Nat) (s : State) : Telling s (renderRows n row s) := by
  induction n generalizing row s with
  | zero => exact rfl
  | succ n ih =>
    exact (((telling_compose row _).congr (s := setRow row s) rfl).andThen telling_submit).andThen
      (ih (row + 1))

/-- The walk ends the command in the state that `exec` gives. -/
def Walk.Done (w : Walk) (m : Moment) (t : State) : Prop :=
  w.stuck m ∨ w.reach m ⟨t, []⟩ ∨ w.kept m t

theorem Walk.Done.of_reach {m m' : Moment} {t : State} (h : w.reach m m') (hd : w.Done m' t) :
    w.Done m t := by
  rcases hd with hd | hd | hd
  · exact .inl (w.stuck_of h hd)
  · exact .inr (.inl (w.trans h hd))
  · exact .inr (.inr (w.kept_of h hd))

/-- The end of a host command and its answer (42_frame_scheduler.md R123). -/
theorem Walk.finish {s : State} {m : Moment} {r : Res} (hf : s.fault = .none) (ht : Telling s r)
    (h : w.Ends m r [.finish]) : w.Done m (finishCommand r) := by
  have last : ∀ t, w.reach ⟨t, [.finish]⟩
      ⟨giveAnswer (if t.fault = .none then .ok else .fault t.fault) t, []⟩ :=
    fun t => w.act t .finish [] rfl
  rcases h with h | h
  · exact .inl h
  · cases r with
    | ok t =>
      refine .inr (.inl (w.trans h ?_))
      have := last t
      rwa [if_pos (Eq.trans ht hf)] at this
    | raised t =>
      refine .inr (.inl (w.trans h ?_))
      have := last t
      rwa [if_neg ht] at this
    | held t => exact .inr (.inr h)

/-- A host command, refused while a fault is recorded (R120). -/
theorem Walk.runCommand {s : State} {i : Instr} {body : State → Res}
    (ht : Telling s (body s)) (h : w.Ends ⟨s, bodyActions s.cfg i⟩ (body s) [.finish]) :
    w.Done ⟨s, [.readFault i]⟩ (runCommand body s) := by
  unfold Machine.runCommand
  refine .of_reach (w.act s (.readFault i) [] rfl) ?_
  simp only [mainAction_cons, Action.run, actedThen, Action.rest, List.append_nil]
  split
  · exact .inr (.inl (w.act s (.refuse .faulted) [] rfl))
  · next hf => exact Walk.finish (by simpa [State.faulted] using hf) ht h

/-- Every host command, action by action, ends as `exec` says (00_scope.md R18;
43_transport_driver.md R137). -/
theorem Walk.command (hh : w.Hands) {s : State} (hs : Shaped s) {i : Instr} (hi : i.isHost = true) :
    ∃ t, exec i s = .next t ∧ w.Done ⟨s, [.readFault i]⟩ t := by
  cases i with
  | render => exact ⟨_, rfl, Walk.runCommand (telling_renderRows ..) (Walk.rows hh _ 0 hs _)⟩
  | setint v =>
    refine ⟨_, rfl, Walk.runCommand (Telling.andThen ?_ telling_submit) ?_⟩
    · exact (telling_forStrands (telling_broadcastStrand _) ..).congr rfl
    · refine .andThen (submitActions s.cfg) (answerOnly_submitActions _) (w.composeBroadcast hs v _)
        fun t ht => ?_
      have hc := (composeBroadcast_cases v s).2.cfg
      rw [ht] at hc
      rw [show s.cfg = t.cfg from hc.symm]
      exact Walk.submit hh t _
  | send1 a pin r g b v =>
    refine ⟨_, rfl, Walk.runCommand (Telling.andThen ?_ telling_submit) ?_⟩
    · exact (telling_expand ..).congr rfl
    · refine .andThen (submitActions s.cfg) (answerOnly_submitActions _)
        (w.composeSingle hs a pin r g b v _) fun t ht => ?_
      have hc := (composeSingle_cases a pin r g b v s).2.cfg
      rw [ht] at hc
      rw [show s.cfg = t.cfg from hc.symm]
      exact Walk.submit hh t _
  | wrpix x y r g b =>
    refine ⟨_, rfl, .of_reach (w.act s (.readFault _) [] rfl) ?_⟩
    simp only [mainAction_cons, Action.run, actedThen, Action.rest, List.append_nil, bodyActions]
    split
    · exact .inr (.inl (w.act s (.refuse .faulted) [] rfl))
    · next hf =>
      unfold writePixel
      split
      · exact .of_reach (w.act s _ _ rfl) (Walk.finish (r := .ok (setImg _ s))
          (by simpa [State.faulted] using hf) rfl (w.ends_ok _ _))
      · exact .inr (.inl (w.act s (.refuse .badOperand) [] rfl))
  | wren n v =>
    refine ⟨_, rfl, .of_reach (w.act s (.readFault _) [] rfl) ?_⟩
    simp only [mainAction_cons, Action.run, actedThen, Action.rest, List.append_nil, bodyActions]
    split
    · exact .inr (.inl (w.act s (.refuse .faulted) [] rfl))
    · next hf =>
      unfold writeEnable
      split
      · exact .of_reach (w.act s _ _ rfl) (Walk.finish (r := .ok (setEn _ s))
          (by simpa [State.faulted] using hf) rfl (w.ends_ok _ _))
      · exact .inr (.inl (w.act s (.refuse .badOperand) [] rfl))
  | enc => cases hi
  | exp => cases hi
  | compose => cases hi
  | wmb => cases hi
  | sliceout => cases hi
  | txsync => cases hi
  | handoff => cases hi
  | tick => cases hi
  | submit => cases hi

/-- What the main path does first with a word of the command stream: it looks at `FAULT`, or refuses a
reserved code (42_frame_scheduler.md R120). -/
def wordActions (w : CommandWord) : List Action :=
  match decode w with
  | .command i => [.readFault i]
  | .unknownCommand _ => [.refuse .unknownCommand]

/-- Every command word, action by action, ends as the step that takes it says. -/
theorem Walk.word (hh : w.Hands) {s : State} (hs : Shaped s) (c : CommandWord) :
    ∃ t, runWord c s = .next t ∧ w.Done ⟨s, wordActions c⟩ t := by
  unfold runWord wordActions
  cases hd : decode c with
  | command i => exact Walk.command hh hs (isHost_of_decode hd)
  | unknownCommand op => exact ⟨_, rfl, .inr (.inl (w.act s (.refuse .unknownCommand) [] rfl))⟩

end Sys2Proof.Machine
end

