-- ==== Sys2Proof/Laws/Step.lean ====
section
/-! SUPPORT. What a step can be: a tick, a wait, a refusal of a reserved code, or a host command.
Spec: 43_transport_driver.md R137 (a); 42_frame_scheduler.md R120. -/

namespace Sys2Proof.Machine

theorem isr_of_tickDue {s : State} (h : s.tickDue = true) : s.cfg.mode = .isr := by
  simp only [State.tickDue, Bool.and_eq_true, decide_eq_true_eq] at h
  exact h.1

/-- Taking a tick of the schedule writes the schedule only. -/
theorem takeTick_eq (s : State) : ∃ l, takeTick s = setSched l s := by
  unfold takeTick
  split
  · exact ⟨s.sched, rfl⟩
  · exact ⟨_, rfl⟩

/-- A host command ends with a next state. -/
theorem exec_of_isHost {i : Instr} (h : i.isHost = true) (s : State) : ∃ t, exec i s = .next t := by
  cases i <;> first | exact ⟨_, rfl⟩ | cases h

/-- Everything a step can be. -/
theorem step_cases (s : State) :
    (s.tickDue = true ∧ s.cfg.mode = .isr ∧ step s = .next (tickBody (takeTick s))) ∨
    (s.tickDue = false ∧ (s.hung = true ∨ s.cmds = []) ∧ step s = .next (passPlace s)) ∨
    (∃ w rest, s.tickDue = false ∧ s.hung = false ∧ s.cmds = w :: rest ∧
      ((∃ i, decode w = .command i ∧ step s = exec i (passPlace (setCmds rest s))) ∨
        ∃ op, decode w = .unknownCommand op ∧
          step s = .next (refuse .unknownCommand (passPlace (setCmds rest s))))) := by
  unfold step
  cases ht : s.tickDue with
  | true =>
    left
    obtain ⟨l, hl⟩ := takeTick_eq s
    have hm := isr_of_tickDue ht
    refine ⟨rfl, hm, ?_⟩
    simp [exec, execTick, hl, hm]
  | false =>
    right
    rw [if_neg (by simp)]
    unfold mainMove
    cases hh : s.hung with
    | true => left; exact ⟨rfl, .inl rfl, rfl⟩
    | false =>
      rw [if_neg (by simp)]
      cases hc : s.cmds with
      | nil => left; exact ⟨rfl, .inr rfl, rfl⟩
      | cons w rest =>
        right
        refine ⟨w, rest, rfl, rfl, rfl, ?_⟩
        unfold runWord
        cases hd : decode w with
        | command i => exact .inl ⟨i, rfl, by simp [hd]⟩
        | unknownCommand op => exact .inr ⟨op, rfl, by simp [hd]⟩

end Sys2Proof.Machine
end

