-- ==== Sys2Proof/Laws/Agents.lean ====
section
/-! SUPPORT. Runs of the two agents against runs of `step`: a step is a run of atomic actions, and ticks
between atomic actions can be put off to the places of 43_transport_driver.md R137. Spec: 00_scope.md
R17, R18; entries 5, 20. -/

namespace Sys2Proof.Machine

/-! ### What no action looks at -/

/-- The actions neither read nor write the schedule. -/
theorem run_setSched (l : List Nat) (s : State) (a : Action) :
    a.run (setSched l s) = ⟨setSched l (a.run s).state, (a.run s).first⟩ := by
  cases a <;> first | rfl | skip
  case nextRow n row => cases n <;> rfl

/-- The actions write no configuration. -/
theorem run_cfg (s : State) (a : Action) : (a.run s).state.cfg = s.cfg := by
  cases a <;> first | rfl | skip
  case nextRow n row => cases n <;> rfl

/-- At the level of the actions no main path is held: it spins. -/
theorem run_hung (s : State) (a : Action) : (a.run s).state.hung = s.hung := by
  cases a <;> first | rfl | skip
  case nextRow n row => cases n <;> rfl

theorem tickBody_setSched (l : List Nat) (s : State) :
    tickBody (setSched l s) = setSched l (tickBody s) := ticks_setSched 1 l s

theorem agentRun_append (as bs : List Agent) (m : Moment) :
    agentRun (as ++ bs) m = agentRun bs (agentRun as m) := List.foldl_append ..

theorem agentRun_ticks {s : State} (hm : s.cfg.mode = .isr) (n : Nat) (todo : List Action) :
    agentRun (List.replicate n .tick) ⟨s, todo⟩ = ⟨ticks n s, todo⟩ := by
  induction n generalizing s with
  | zero => rfl
  | succ n ih =>
    have : agentStep .tick ⟨s, todo⟩ = ⟨tickBody s, todo⟩ := by simp [agentStep, hm]
    show agentRun (List.replicate n .tick) (agentStep .tick ⟨s, todo⟩) = _
    rw [this]
    exact ih (by simpa using hm)

theorem takeCommand_hung (s : State) : (takeCommand s).state.hung = s.hung := by
  unfold takeCommand; split <;> rfl

theorem agentStep_hung (a : Agent) (m : Moment) : (agentStep a m).state.hung = m.state.hung := by
  cases a with
  | mainPath =>
    show (mainAction m).state.hung = _
    unfold mainAction
    split
    · exact takeCommand_hung _
    · exact run_hung ..
  | tick =>
    cases hm : m.state.cfg.mode <;> simp [agentStep, hm]

theorem agentRun_hung (as : List Agent) (m : Moment) :
    (agentRun as m).state.hung = m.state.hung := by
  induction as generalizing m with
  | nil => rfl
  | cons a as ih => exact (ih _).trans (agentStep_hung a m)

/-! ### A step is a run of atomic actions -/

/-- Runs of the agents, which look at no schedule. -/
def agentWalk : Walk where
  reach m m' := m'.state.hung = m.state.hung ∧
    ∃ as, ∀ l, agentRun as ⟨setSched l m.state, m.todo⟩ = ⟨setSched l m'.state, m'.todo⟩
  stuck _ := False
  kept m t := t.hung = true ∧ t.send = true ∧ (m.state.hung = false →
    ∃ as rest, ∀ l, agentRun as ⟨setSched l m.state, m.todo⟩
      = ⟨setSched l (setHung false t), .readSend :: rest⟩)
  refl m := ⟨rfl, [], fun _ => rfl⟩
  trans := fun ⟨h, as, ha⟩ ⟨h', bs, hb⟩ =>
    ⟨h'.trans h, as ++ bs, fun l => by rw [agentRun_append, ha, hb]⟩
  stuck_of _ h := h
  kept_of := fun ⟨h, as, ha⟩ ⟨h1, h2, h3⟩ => ⟨h1, h2, fun hf => by
    obtain ⟨bs, rest, hb⟩ := h3 (h.trans hf)
    exact ⟨as ++ bs, rest, fun l => by rw [agentRun_append, ha, hb]⟩⟩
  act s a todo _ := ⟨run_hung s a, [.mainPath], fun l => by
    show mainAction ⟨setSched l s, a :: todo⟩ = _
    rw [mainAction_cons, run_setSched]
    rfl⟩

theorem agentWalk_hands : agentWalk.Hands := by
  intro s todo hm
  right
  have hm' : ∀ l, (setSched l s).cfg.mode = .isr := fun _ => hm
  rcases handoff_forms s with ⟨n, rest, h, hd⟩ | ⟨n, h, hd⟩ <;> rw [h]
  · refine ⟨by simp, List.replicate n .tick ++ [.mainPath, .mainPath]
      ++ List.replicate (rest.headD 0) .tick ++ [.mainPath], fun l => ?_⟩
    rw [agentRun_append, agentRun_append, agentRun_append, agentRun_ticks (hm' l), ticks_setSched]
    have h2 : agentRun [.mainPath, .mainPath] ⟨setSched l (ticks n s), .readSend :: todo⟩
        = ⟨setAct (1 - s.act) (setSched l (ticks n s)), .raiseSend :: todo⟩ := by
      simp [agentRun, agentStep, mainAction_cons, Action.run, actedThen, Action.rest, hd]
    rw [h2, agentRun_ticks (by simpa using hm)]
    have h3 : setAct (1 - s.act) (setSched l (ticks n s))
        = setSched l (setAct (1 - s.act) (ticks n s)) := rfl
    rw [h3, ticks_setSched]
    have h4 : arm (setSched rest (ticks n s))
        = setSched rest.tail (setSend true (ticks (rest.headD 0) (setAct (1 - s.act) (ticks n s)))) := by
      have : setSched rest.tail (setAct (1 - (setSched rest (ticks n s)).act) (setSched rest (ticks n s)))
          = setSched rest.tail (setAct (1 - s.act) (ticks n s)) := by simp; rfl
      unfold arm ticksAtPlace
      simp only [setAct_sched, setSched_sched]
      rw [this, ticks_setSched]
      rfl
    rw [h4]
    rfl
  · refine ⟨rfl, hd, fun hf => ⟨List.replicate n .tick, todo, fun l => ?_⟩⟩
    rw [agentRun_ticks (hm' l), ticks_setSched]
    have : setHung false (setHung true (setSched [] (ticks n s))) = setSched [] (ticks n s) := by
      have hh : (ticks n s).hung = false := by simpa using hf
      ext1 <;> first | rfl | exact hh.symm
    rw [this]
    rfl

end Sys2Proof.Machine
end

