-- ==== Sys2Proof/Laws/Delay.lean ====
section
/-! SUPPORT. Ticks can be put off: between two atomic actions a tick may be moved to the next place of
43_transport_driver.md R137, so every run of the two agents from a moment between commands to another ends
where a run of `step` ends. Spec: R137; 00_scope.md R18; entries 5, 20. -/

namespace Sys2Proof.Machine

/-! ### What a tick reads -/

/-- Two states that look the same to a tick (43_transport_driver.md R135). -/
structure TickSame (u v : State) : Prop where
  cfg     : v.cfg = u.cfg
  act     : v.act = u.act
  send    : v.send = u.send
  cur     : v.cur = u.cur
  port    : v.port = u.port
  history : v.history = u.history
  drv     : ∀ p, v.drvWord u.act.toNat p = u.drvWord u.act.toNat p
  buf     : ∀ p t, v.bufWord u.act.toNat p t = u.bufWord u.act.toNat p t

theorem foldl_wmb_port (m v : Nat → PortWord) (ps : List Nat) (u : State) :
    (ps.foldl (fun u p => wmb p (m p) (v p) u) u).port
      = ps.foldl (fun port p =>
          port.modify p fun old => mergeMasked u.cfg.portWidth old (m p) (v p)) u.port := by
  induction ps generalizing u with
  | nil => rfl
  | cons p ps ih => exact ih (wmb p (m p) (v p) u)

/-- A tick writes the latches, the history, the flag and the cursor (R135). -/
theorem tickBody_eq (s : State) :
    tickBody s = { s with
      port := (tickBody s).port, history := (tickBody s).history
      send := (tickBody s).send, cur := (tickBody s).cur } := by
  ext1 <;> first | rfl | simp

/-- A tick does the same to two states that look the same to it. -/
theorem tickBody_of_same {u v : State} (h : TickSame u v) :
    tickBody v = { v with
      port := (tickBody u).port, history := (tickBody u).history
      send := (tickBody u).send, cur := (tickBody u).cur } := by
  have hp : ∀ w : State, (tickBody w).port
      = if w.send = true ∧ w.cur < frameSize then
          (sliceout w.act.toNat w.cur w).port else w.port := by
    intro w
    unfold tickBody
    cases hs : w.send with
    | false => rfl
    | true =>
      simp only [if_true, true_and, advanceCursor_port]
      unfold tickOutput
      split <;> rfl
  have hd : ∀ p, v.drvWord v.act.toNat p = u.drvWord u.act.toNat p := by
    intro p; rw [h.act]; exact h.drv p
  have hb : ∀ p t, v.bufWord v.act.toNat p t = u.bufWord u.act.toNat p t := by
    intro p t; rw [h.act]; exact h.buf p t
  rw [tickBody_eq v]
  have e1 : (tickBody v).port = (tickBody u).port := by
    rw [hp, hp, h.send, h.cur, h.port]
    unfold sliceout
    rw [foldl_wmb_port, foldl_wmb_port]
    simp only [hd, hb, h.cfg, h.port]
  have e2 : (tickBody v).history = (tickBody u).history := by
    rw [tickBody_history, tickBody_history, h.send, h.cur, h.history]
    unfold sliceEvents
    simp only [hd, hb, h.cfg]
  have e3 : (tickBody v).send = (tickBody u).send := by
    rw [tickBody_send, tickBody_send, h.send, h.cur, h.cfg]
  have e4 : (tickBody v).cur = (tickBody u).cur := by
    rw [tickBody_cur, tickBody_cur, h.send, h.cur, h.cfg]
  rw [e1, e2, e3, e4]

/-! ### Which actions a tick may follow instead of precede -/

/-- The actions of a composition into instance `k`. -/
def Action.inner (k : Nat) : Action → Prop
  | .nextStrand k' _ _ _ => k' = k
  | .leaveStrands => True
  | .readEnable k' _ _ _ => k' = k
  | .readPixel k' _ _ => k' = k
  | .readGi k' _ _ _ => k' = k
  | .writeLf _ => True
  | .readLf k' _ => k' = k
  | .readMask k' _ _ => k' = k
  | .writeMask k' _ _ => k' = k
  | .readWord k' _ _ _ _ => k' = k
  | .writeWord k' _ _ _ => k' = k
  | .readEnableAll k' _ _ => k' = k
  | .raise _ => True
  | _ => False

/-- The actions of a host command outside its compositions, in `ISR` mode. -/
def Action.outer : Action → Prop
  | .readFault i => i.isHost = true
  | .refuse _ => True
  | .finish => True
  | .nextRow _ _ => True
  | .startRow _ => True
  | .writeGi _ => True
  | .startBroadcast _ => True
  | .startSingle _ _ _ _ _ _ => True
  | .writePixel _ _ _ => True
  | .writeEnable _ _ => True
  | .readSend => True
  | .raiseSend => True
  | _ => False

/-- What the main path still has to do in `ISR` mode: the rest of a composition into the composing
instance, then what follows it; or the swap, with `SEND = 0`, and what follows that. -/
def Ready (s : State) (todo : List Action) : Prop :=
  (∃ inner outer, todo = inner ++ outer ∧ (∀ a ∈ inner, a.inner s.composing) ∧
    ∀ a ∈ outer, a.outer) ∨
  (∃ outer, todo = .flipAct :: outer ∧ s.send = false ∧ ∀ a ∈ outer, a.outer)

theorem Ready.of_outer {s : State} {todo : List Action} (h : ∀ a ∈ todo, a.outer) : Ready s todo :=
  .inl ⟨[], todo, rfl, by simp, h⟩

theorem Ready.tickBody {s : State} {todo : List Action} (h : Ready s todo) :
    Ready (tickBody s) todo := by
  rcases h with ⟨inner, outer, rfl, h1, h2⟩ | ⟨outer, rfl, h1, h2⟩
  · exact .inl ⟨inner, outer, rfl, by simpa [State.composing] using h1, h2⟩
  · exact .inr ⟨outer, rfl, by rw [tickBody_send, h1]; rfl, h2⟩

theorem outer_submitActions {c : Config} (hm : c.mode = .isr) : ∀ a ∈ submitActions c, a.outer := by
  unfold submitActions
  rw [hm]
  intro a ha
  obtain rfl := List.mem_singleton.1 ha
  trivial

theorem outer_bodyActions {c : Config} (hm : c.mode = .isr) {i : Instr} (hi : i.isHost = true) :
    ∀ a ∈ bodyActions c i, a.outer := by
  have hs := outer_submitActions hm
  cases i with
  | render =>
    intro a ha
    simp only [bodyActions, List.mem_cons, List.not_mem_nil, or_false] at ha
    rcases ha with rfl | rfl <;> trivial
  | setint v =>
    intro a ha
    simp only [bodyActions, List.mem_cons, List.mem_append, List.not_mem_nil, or_false] at ha
    rcases ha with rfl | rfl | ha | rfl
    exacts [trivial, trivial, hs a ha, trivial]
  | send1 =>
    intro a ha
    simp only [bodyActions, List.mem_cons, List.mem_append, List.not_mem_nil, or_false] at ha
    rcases ha with rfl | ha | rfl
    exacts [trivial, hs a ha, trivial]
  | wrpix =>
    intro a ha
    simp only [bodyActions] at ha
    split at ha <;> simp only [List.mem_cons, List.not_mem_nil, or_false] at ha
    · rcases ha with rfl | rfl <;> trivial
    · subst ha; trivial
  | wren =>
    intro a ha
    simp only [bodyActions] at ha
    split at ha <;> simp only [List.mem_cons, List.not_mem_nil, or_false] at ha
    · rcases ha with rfl | rfl <;> trivial
    · subst ha; trivial
  | enc => cases hi
  | exp => cases hi
  | compose => cases hi
  | wmb => cases hi
  | sliceout => cases hi
  | txsync => cases hi
  | handoff => cases hi
  | tick => cases hi
  | submit => cases hi

theorem inner_clearActions (c : Config) (k : Nat) : ∀ a ∈ clearActions c k, a.inner k := by
  intro a ha
  simp only [clearActions, List.mem_map] at ha
  obtain ⟨p, -, rfl⟩ := ha
  rfl

theorem inner_rowActions (k row i : Nat) (l : List Strand) :
    ∀ a ∈ rowActions k row i l, a.inner k := by
  induction l generalizing i with
  | nil => intro a ha; obtain rfl := List.mem_singleton.1 ha; trivial
  | cons st l ih =>
    intro a ha
    rcases List.mem_cons.1 ha with rfl | ha
    · rfl
    · exact ih _ a ha

theorem inner_broadcastActions (k i : Nat) (l : List Strand) :
    ∀ a ∈ broadcastActions k i l, a.inner k := by
  induction l generalizing i with
  | nil => intro a ha; cases ha
  | cons st l ih =>
    intro a ha
    rcases List.mem_cons.1 ha with rfl | ha
    · rfl
    · exact ih _ a ha

theorem inner_expandActions (c : Config) (k : Nat) (pin : Byte) (lf : LogicalFrame) :
    ∀ a ∈ expandActions c k pin lf, a.inner k := by
  intro a ha
  unfold expandActions at ha
  split at ha
  · obtain rfl := List.mem_singleton.1 ha; trivial
  · rcases List.mem_cons.1 ha with rfl | ha
    · rfl
    · obtain ⟨t, -, rfl⟩ := List.mem_map.1 ha; rfl

/-- What an action of a composition puts first is of the same composition, and it writes no register
that says which instance is composing. -/
theorem inner_run {s : State} {a : Action} (h : a.inner s.composing) :
    (∀ b ∈ (a.run s).first, b.inner s.composing) ∧ (a.run s).state.composing = s.composing ∧
    a.free = true := by
  cases a <;> try exact h.elim
  case nextStrand => exact ⟨by simpa [Action.run, actedThen, Action.inner] using h, rfl, rfl⟩
  case leaveStrands => exact ⟨by simp [Action.run, acted], rfl, rfl⟩
  case readEnable k row i st =>
    refine ⟨?_, rfl, rfl⟩
    simp only [Action.run, actedThen]
    split
    · split
      · simpa [Action.inner] using h
      · simp [Action.inner]
    · simp
  case readPixel => exact ⟨by simpa [Action.run, actedThen, Action.inner] using h, rfl, rfl⟩
  case readGi => exact ⟨by simpa [Action.run, actedThen, Action.inner] using h, rfl, rfl⟩
  case writeLf => exact ⟨by simp [Action.run, acted], rfl, rfl⟩
  case readLf k pin =>
    obtain rfl : k = s.composing := h
    exact ⟨inner_expandActions _ _ _ _, rfl, rfl⟩
  case readMask => exact ⟨by simpa [Action.run, actedThen, Action.inner] using h, rfl, rfl⟩
  case writeMask => exact ⟨by simp [Action.run, acted], rfl, rfl⟩
  case readWord => exact ⟨by simpa [Action.run, actedThen, Action.inner] using h, rfl, rfl⟩
  case writeWord => exact ⟨by simp [Action.run, acted], rfl, rfl⟩
  case readEnableAll k i st =>
    refine ⟨?_, rfl, rfl⟩
    simp only [Action.run, actedThen]
    split
    · simpa [Action.inner] using h
    · simp
  case raise => exact ⟨by simp [Action.run, acted], rfl, rfl⟩

/-- What an action outside the compositions puts first, in `ISR` mode. -/
theorem outer_run {s : State} (hm : s.cfg.mode = .isr) {a : Action} (h : a.outer)
    {outer : List Action} (ho : ∀ b ∈ outer, b.outer) :
    Ready (a.run s).state ((a.run s).first ++ outer) ∧ ∀ todo, a.rest todo = todo := by
  have hs := outer_submitActions hm
  have front : ∀ (l : List Action), (∀ b ∈ l, b.outer) → ∀ b ∈ l ++ outer, b.outer := by
    intro l hl b hb
    rcases List.mem_append.1 hb with hb | hb
    exacts [hl b hb, ho b hb]
  cases a <;> try exact h.elim
  case readFault i =>
    refine ⟨.of_outer (front _ ?_), fun _ => rfl⟩
    simp only [Action.run, actedThen]
    split
    · intro b hb; obtain rfl := List.mem_singleton.1 hb; trivial
    · exact outer_bodyActions hm h
  case refuse => exact ⟨.of_outer ho, fun _ => rfl⟩
  case finish => exact ⟨.of_outer ho, fun _ => rfl⟩
  case nextRow n row =>
    cases n with
    | zero => exact ⟨.of_outer ho, fun _ => rfl⟩
    | succ n =>
      refine ⟨.of_outer (front _ ?_), fun _ => rfl⟩
      intro b hb
      simp only [Action.run, actedThen, List.mem_cons, List.mem_append, List.not_mem_nil,
        or_false] at hb
      rcases hb with rfl | hb | rfl
      exacts [trivial, hs b hb, trivial]
  case startRow row =>
    refine ⟨.inl ⟨_, outer, rfl, ?_, ho⟩, fun _ => rfl⟩
    intro b hb
    rcases List.mem_append.1 hb with hb | hb
    exacts [inner_clearActions _ _ b hb, inner_rowActions _ _ _ _ b hb]
  case writeGi => exact ⟨.of_outer ho, fun _ => rfl⟩
  case startBroadcast v =>
    refine ⟨.inl ⟨_, outer, rfl, ?_, ho⟩, fun _ => rfl⟩
    intro b hb
    rcases List.mem_append.1 hb with hb | hb
    · exact inner_clearActions _ _ b hb
    · rcases List.mem_cons.1 hb with rfl | hb
      exacts [trivial, inner_broadcastActions _ _ _ b hb]
  case startSingle =>
    refine ⟨.inl ⟨_, outer, rfl, ?_, ho⟩, fun _ => rfl⟩
    intro b hb
    rcases List.mem_append.1 hb with hb | hb
    · exact inner_clearActions _ _ b hb
    · simp only [List.mem_cons, List.not_mem_nil, or_false] at hb
      rcases hb with rfl | rfl
      exacts [trivial, rfl]
  case writePixel => exact ⟨.of_outer ho, fun _ => rfl⟩
  case writeEnable => exact ⟨.of_outer ho, fun _ => rfl⟩
  case readSend =>
    refine ⟨?_, fun _ => rfl⟩
    simp only [Action.run, actedThen]
    cases hsend : s.send with
    | true =>
      refine .of_outer (front _ fun b hb => ?_)
      obtain rfl := List.mem_singleton.1 hb
      trivial
    | false => exact .inr ⟨outer, by simp, hsend, ho⟩
  case raiseSend => exact ⟨.of_outer ho, fun _ => rfl⟩

/-- Only a fault drops what was still to be done (60_exceptions.md R150). -/
theorem rest_cases (a : Action) : (∃ f, a = .raise f) ∨ ∀ todo, a.rest todo = todo := by
  cases a <;> first | exact .inl ⟨_, rfl⟩ | exact .inr fun _ => rfl

/-- The main path's actions in `ISR` mode stay of the kinds they are. -/
theorem Ready.run {s : State} (hm : s.cfg.mode = .isr) {a : Action} {todo : List Action}
    (h : Ready s (a :: todo)) : Ready (a.run s).state ((a.run s).first ++ a.rest todo) := by
  rcases h with ⟨inner, outer, he, h1, h2⟩ | ⟨outer, he, h1, h2⟩
  · cases inner with
    | nil =>
      rw [List.nil_append] at he
      subst he
      obtain ⟨h3, h4⟩ := outer_run hm (h2 a (List.mem_cons_self ..))
        (fun b hb => h2 b (List.mem_cons_of_mem _ hb))
      rw [h4]
      exact h3
    | cons b inner =>
      rw [List.cons_append, List.cons.injEq] at he
      obtain ⟨rfl, rfl⟩ := he
      obtain ⟨h3, h4, -⟩ := inner_run (h1 a (List.mem_cons_self ..))
      have h5 : ∀ b ∈ inner, b.inner s.composing := fun b hb => h1 b (List.mem_cons_of_mem _ hb)
      left
      rcases rest_cases a with ⟨f, rfl⟩ | hr
      · refine ⟨[], answerOnly (inner ++ outer), rfl, by simp, fun b hb => ?_⟩
        have := List.of_mem_filter hb
        simp only [decide_eq_true_eq] at this
        subst this
        trivial
      · refine ⟨(a.run s).first ++ inner, outer, by rw [hr, List.append_assoc], ?_, h2⟩
        rw [h4]
        intro b hb
        rcases List.mem_append.1 hb with hb | hb
        exacts [h3 b hb, h5 b hb]
  · rw [List.cons.injEq] at he
    obtain ⟨rfl, rfl⟩ := he
    refine .of_outer fun b hb => ?_
    rcases List.mem_cons.1 hb with rfl | hb
    exacts [trivial, h2 b hb]

/-- A tick before a free action of the main path and a tick after it leave the same state, and the main
path goes on in the same way (R137). -/
theorem run_tickBody {s : State} (hm : s.cfg.mode = .isr) {a : Action} {todo : List Action}
    (hr : Ready s (a :: todo)) (hf : a.free = true) :
    a.run (tickBody s) = ⟨tickBody (a.run s).state, (a.run s).first⟩ := by
  -- an action that neither reads nor writes what a tick does
  have key : (∀ P H S C, a.run { s with port := P, history := H, send := S, cur := C }
        = ⟨{ (a.run s).state with port := P, history := H, send := S, cur := C }, (a.run s).first⟩) →
      TickSame s (a.run s).state →
      a.run (tickBody s) = ⟨tickBody (a.run s).state, (a.run s).first⟩ := by
    intro h1 h2
    rw [tickBody_of_same h2, tickBody_eq s]
    exact h1 _ _ _ _
  have hk := composing_ne_act hm
  have same : ∀ t : State, t.cfg = s.cfg → t.act = s.act → t.send = s.send → t.cur = s.cur →
      t.port = s.port → t.history = s.history → t.drv = s.drv → t.buf = s.buf → TickSame s t :=
    fun t h1 h2 h3 h4 h5 h6 h7 h8 => ⟨h1, h2, h3, h4, h5, h6,
      fun p => by simp only [State.drvWord, h7], fun p t => by simp only [State.bufWord, h8]⟩
  have hcase : a.inner s.composing ∨ a.outer ∨ (a = .flipAct ∧ s.send = false) := by
    rcases hr with ⟨inner, outer, he, h1, h2⟩ | ⟨outer, he, h1, -⟩
    · cases inner with
      | nil =>
        rw [List.nil_append] at he
        exact .inr (.inl (h2 a (he ▸ List.mem_cons_self ..)))
      | cons b inner =>
        rw [List.cons_append, List.cons.injEq] at he
        exact .inl (he.1 ▸ h1 b (List.mem_cons_self ..))
    · rw [List.cons.injEq] at he
      exact .inr (.inr ⟨he.1, h1⟩)
  clear hr
  rcases hcase with h | h | ⟨rfl, hs⟩
  · cases a <;> try exact h.elim
    case writeMask k p word =>
      obtain rfl : k = s.composing := h
      refine key (fun _ _ _ _ => rfl) ⟨rfl, rfl, rfl, rfl, rfl, rfl, fun q => ?_, fun _ _ => rfl⟩
      unfold State.drvWord
      rw [show (Action.run s (.writeMask s.composing p word)).state.drv = _ from setMask_drv ..,
        getD_modify]
      simp [hk]
    case writeWord k p t word =>
      obtain rfl : k = s.composing := h
      refine key (fun _ _ _ _ => rfl) ⟨rfl, rfl, rfl, rfl, rfl, rfl, fun _ => rfl, fun q τ => ?_⟩
      unfold State.bufWord
      rw [show (Action.run s (.writeWord s.composing p t word)).state.buf = _ from setWord_buf ..,
        getD_modify]
      simp [hk]
    all_goals exact key (fun _ _ _ _ => rfl) (same _ rfl rfl rfl rfl rfl rfl rfl rfl)
  · cases a <;> try exact h.elim
    case readSend => cases hf
    case raiseSend => cases hf
    case nextRow n row =>
      cases n <;> exact key (fun _ _ _ _ => rfl) (same _ rfl rfl rfl rfl rfl rfl rfl rfl)
    all_goals exact key (fun _ _ _ _ => rfl) (same _ rfl rfl rfl rfl rfl rfl rfl rfl)
  · show (⟨setAct (1 - (tickBody s).act) (tickBody s), [.raiseSend]⟩ : Move)
      = ⟨tickBody (setAct (1 - s.act) s), [.raiseSend]⟩
    rw [tickBody_idle hs, tickBody_idle (s := setAct (1 - s.act) s) hs]
    rfl

theorem run_ticks {s : State} (hm : s.cfg.mode = .isr) {a : Action} {todo : List Action}
    (h : Ready s (a :: todo)) (hf : a.free = true) (n : Nat) :
    a.run (ticks n s) = ⟨ticks n (a.run s).state, (a.run s).first⟩ := by
  induction n generalizing s with
  | zero => rfl
  | succ n ih =>
    show a.run (ticks n (tickBody s)) = ⟨ticks n (tickBody _), _⟩
    rw [ih (s := tickBody s) (by simpa using hm) h.tickBody, run_tickBody hm h hf]

/-! ### The run in which ticks fall at the places only -/

/-- One action of the main path, after the ticks listed for its place if there is a place before it; it
stays where it is when there is nothing left to do. -/
def placed (m : Moment) : Moment :=
  match m.todo with
  | [] => m
  | a :: _ => if a.free then mainAction m else mainAction ⟨ticksAtPlace m.state, m.todo⟩

theorem placed_free (s : State) {a : Action} (todo : List Action) (h : a.free = true) :
    placed ⟨s, a :: todo⟩ = mainAction ⟨s, a :: todo⟩ := by simp [placed, h]

theorem placed_place (s : State) {a : Action} (todo : List Action) (h : a.free = false) :
    placed ⟨s, a :: todo⟩ = mainAction ⟨ticksAtPlace s, a :: todo⟩ := by simp [placed, h]

theorem iterate_fixed {m : Moment} (h : placed m = m) (k : Nat) : placed^[k] m = m :=
  Function.iterate_fixed h k

/-- Runs in which ticks fall at the places only; they get stuck where a spin has used the list up. -/
def placedWalk : Walk where
  reach m m' := ∃ k, placed^[k] m = m'
  stuck m := ∃ k, (placed^[k] m).todo ≠ [] ∧ placed (placed^[k] m) = placed^[k] m
  kept m _ := ∃ k, (placed^[k] m).todo ≠ [] ∧ placed (placed^[k] m) = placed^[k] m
  refl _ := ⟨0, rfl⟩
  trans := fun ⟨k, h⟩ ⟨k', h'⟩ => ⟨k' + k, by rw [Function.iterate_add_apply, h, h']⟩
  stuck_of := fun ⟨k, h⟩ ⟨k', h'⟩ => ⟨k' + k, by rw [Function.iterate_add_apply, h]; exact h'⟩
  kept_of := fun ⟨k, h⟩ ⟨k', h'⟩ => ⟨k' + k, by rw [Function.iterate_add_apply, h]; exact h'⟩
  act s a todo hf := ⟨1, placed_free s todo hf⟩

theorem placedWalk_spin (l : List Nat) (s : State) (todo : List Action) :
    placedWalk.Ends ⟨setSched l s, .readSend :: todo⟩
      ((spin l s).andThen fun t => .ok (arm t)) todo := by
  have last : ∀ u : State, u.send = false →
      placedWalk.reach (mainAction ⟨u, .readSend :: todo⟩) ⟨arm u, todo⟩ := by
    intro u hu
    refine ⟨2, ?_⟩
    simp only [mainAction_cons, Action.run, actedThen, Action.rest, hu, Bool.false_eq_true,
      if_false]
    rfl
  induction l generalizing s with
  | nil =>
    unfold spin spinFree
    rw [setSched_send]
    have hp : placed ⟨setSched [] s, .readSend :: todo⟩
        = mainAction ⟨setSched [] s, .readSend :: todo⟩ := rfl
    cases hs : s.send with
    | true =>
      left
      refine ⟨0, by simp, ?_⟩
      show placed ⟨setSched [] s, .readSend :: todo⟩ = _
      rw [hp, mainAction_cons]
      simp [Action.run, actedThen, Action.rest, hs]
    | false =>
      right
      exact placedWalk.trans ⟨1, hp⟩ (last _ hs)
  | cons n l ih =>
    have hp : placed ⟨setSched (n :: l) s, .readSend :: todo⟩
        = mainAction ⟨setSched l (ticks n s), .readSend :: todo⟩ := by
      rw [placed_place _ _ rfl, ← ticks_setSched]
      rfl
    unfold spin
    cases hs : (ticks n s).send with
    | true =>
      refine .of_reach ⟨1, hp⟩ ?_
      have := ih (ticks n s)
      simpa [mainAction_cons, Action.run, actedThen, Action.rest, hs] using this
    | false =>
      right
      exact placedWalk.trans ⟨1, hp⟩ (last _ hs)

theorem placedWalk_hands : placedWalk.Hands := fun s todo _ => placedWalk_spin s.sched s todo

/-- A placed run that gets to the end of a command gets to where `exec` ends it. -/
theorem placed_word {s : State} (hs : Shaped s) (c : CommandWord) {k : Nat} {v : State}
    (h : placed^[k] ⟨s, wordActions c⟩ = ⟨v, []⟩) : runWord c s = .next v := by
  obtain ⟨t, ht, hd⟩ := Walk.word placedWalk_hands hs c
  have late : ∀ {m : Moment} {j : Nat}, placed m = m → placed^[j] ⟨s, wordActions c⟩ = m →
      ⟨v, []⟩ = m := by
    intro m j hm hj
    have h1 : placed^[j + k] ⟨s, wordActions c⟩ = ⟨v, []⟩ := by
      rw [Function.iterate_add_apply, h]; exact iterate_fixed rfl j
    have h2 : placed^[k + j] ⟨s, wordActions c⟩ = m := by
      rw [Function.iterate_add_apply, hj]; exact iterate_fixed hm k
    rw [← h1, ← h2, Nat.add_comm]
  rcases hd with ⟨j, hj, hm⟩ | ⟨j, hj⟩ | ⟨j, hj, hm⟩
  · rw [← late hm rfl] at hj; exact absurd rfl hj
  · have := late (m := ⟨t, []⟩) rfl hj
    rw [ht, (Moment.mk.inj this).1]
  · rw [← late hm rfl] at hj; exact absurd rfl hj

/-! ### Runs of the step -/

theorem run_add (M : Host.Core) (m n : Nat) {s t : M.State} (h : M.run m s = .next t) :
    M.run (m + n) s = M.run n t := by
  induction m generalizing s with
  | zero => cases h; rw [Nat.zero_add]
  | succ m ih =>
    rw [Nat.succ_add]
    rw [Host.Core.run] at h ⊢
    cases hs : M.step s with
    | next u => rw [hs] at h; exact ih h
    | fault r => rw [hs] at h; cases h
    | refused r => rw [hs] at h; cases h

theorem run_succ (M : Host.Core) (n : Nat) {s t : M.State} (h : M.step s = .next t) :
    M.run (n + 1) s = M.run n t := by
  rw [Nat.add_comm]
  exact run_add M 1 n (by unfold Host.Core.run; rw [h]; rfl)

/-- The ticks listed before a command are steps. -/
theorem coreRun_ticks {u : State} (hm : u.cfg.mode = .isr) (d : Nat) (l : List Nat) :
    core.run d (setSched (d :: l) u) = .next (setSched (0 :: l) (ticks d u)) := by
  induction d generalizing u with
  | zero => rfl
  | succ d ih =>
    have hstep : core.step (setSched ((d + 1) :: l) u) = .next (setSched (d :: l) (tickBody u)) := by
      show step (setSched ((d + 1) :: l) u) = _
      have hd : (setSched ((d + 1) :: l) u).tickDue = true := by simp [State.tickDue, hm]
      have ht : takeTick (setSched ((d + 1) :: l) u) = setSched (d :: l) u := rfl
      unfold step
      rw [if_pos hd, ht]
      simp only [exec, execTick, setSched_cfg, hm, tickBody_setSched]
      rfl
    exact (run_succ core d hstep).trans (ih (by simpa using hm))

/-- The step that takes a command. -/
theorem step_word {u : State} (hh : u.hung = false) {c : CommandWord} {rest : List CommandWord}
    (hc : u.cmds = c :: rest) (l : List Nat) :
    core.step (setSched (0 :: l) u) = runWord c (setSched l (setCmds rest u)) := by
  show step _ = _
  have hd : (setSched (0 :: l) u).tickDue = false := by simp [State.tickDue]
  unfold step
  rw [hd, if_neg (by simp)]
  unfold mainMove
  simp only [setSched_hung, hh, setSched_cmds, hc, Bool.false_eq_true, if_false]
  rfl

theorem coreRun_word {u : State} (hm : u.cfg.mode = .sync → d = 0) (hh : u.hung = false)
    {c : CommandWord} {rest : List CommandWord} (hc : u.cmds = c :: rest) (l : List Nat) {t : State}
    (h : runWord c (setSched l (setCmds rest (ticks d u))) = .next t) :
    core.run (d + 1) (setSched (d :: l) u) = .next t := by
  have h1 : core.run d (setSched (d :: l) u) = .next (setSched (0 :: l) (ticks d u)) := by
    cases hmode : u.cfg.mode with
    | isr => exact coreRun_ticks hmode d l
    | sync => rw [hm hmode]; rfl
  refine (run_add core d 1 h1).trans (run_succ core 0 ?_)
  exact (step_word (u := ticks d u) (by simpa using hh) (by simpa using hc) l).trans h

theorem Shaped.setSched {s : State} (h : Shaped s) (l : List Nat) : Shaped (setSched l s) :=
  h.congr rfl rfl rfl rfl rfl

/-- A command leaves the shape of the state. -/
theorem Shaped.runWord {s t : State} (h : Shaped s) {c : CommandWord}
    (he : Machine.runWord c s = .next t) : Shaped t := by
  have ans : ∀ a u, Shaped u → Shaped (giveAnswer a u) := fun _ _ hu => hu.congr rfl rfl rfl rfl rfl
  unfold Machine.runWord at he
  cases hd : decode c with
  | unknownCommand op => rw [hd] at he; cases he; exact ans _ _ h
  | command i =>
    rw [hd] at he
    have hi := isHost_of_decode hd
    cases i with
    | render =>
      cases he
      refine runCommand_keeps (P := Shaped) ans h fun _ => renderRows_keeps (P := Shaped)
        (fun _ hu => hu.congr rfl rfl rfl rfl rfl) _ _ (fun _ _ _ hu => renderRow_keeps (P := Shaped) _
          (fun _ hu => hu.congr rfl rfl rfl rfl rfl) (fun _ hu => hu.compose _) (fun _ hu => hu.submit) hu) h
    | setint v =>
      cases he
      refine runCommand_keeps (P := Shaped) ans h fun _ =>
        Res.andThen_keeps (P := Shaped) (forStrands_keeps (P := Shaped) _ _
          (fun _ _ _ _ hu => hu.broadcastStrand ..) (Shaped.setLf (Shaped.clearDrv ?_ _) _))
          fun _ hu => hu.submit
      exact h.congr rfl rfl rfl rfl rfl
    | send1 =>
      cases he
      exact runCommand_keeps (P := Shaped) ans h fun _ =>
        Res.andThen_keeps (P := Shaped) (((h.clearDrv _).setLf _).expand ..) fun _ hu => hu.submit
    | wrpix =>
      cases he
      split
      · exact ans _ _ h
      · unfold writePixel
        split
        · exact ans _ _ (h.congr rfl rfl rfl rfl rfl)
        · exact ans _ _ h
    | wren =>
      cases he
      split
      · exact ans _ _ h
      · unfold writeEnable
        split
        · refine ans _ _ ⟨h.bufInstances, h.bufPorts, h.bufSlices, h.bufWords, h.drvInstances,
            h.drvPorts, h.drvWords, h.portCount, h.portWords, ?_⟩
          simpa using h.enCount
        · exact ans _ _ h
    | enc => cases hi
    | exp => cases hi
    | compose => cases hi
    | wmb => cases hi
    | sliceout => cases hi
    | txsync => cases hi
    | handoff => cases hi
    | tick => cases hi
    | submit => cases hi

/-! ### Every run of the agents is one with the ticks put off -/

/-- Between commands: a run of the step leads to the moment, but for `d` ticks put off. -/
def Between (s : State) (m : Moment) : Prop :=
  ∃ n l u d, m = ⟨setSched s.sched (ticks d u), []⟩ ∧ (u.cfg.mode = .sync → d = 0) ∧ Shaped u ∧
    u.hung = false ∧ ∀ l', core.run n (setSched (l ++ l') s) = .next (setSched l' u)

/-- In the middle of a command: a run of the step leads to the command, and a placed run from there to the
moment, but for `d` ticks put off. -/
def Inside (s : State) (m : Moment) : Prop :=
  ∃ n l u c q k v d, m.state = setSched s.sched (ticks d v) ∧ (v.cfg.mode = .sync → d = 0) ∧
    (v.cfg.mode = .isr → Ready v m.todo) ∧ v.hung = false ∧ Shaped u ∧
    (∀ l' t, runWord c (setSched l' u) = .next t →
      core.run n (setSched (l ++ l') s) = .next t) ∧
    ∀ l', placed^[k] ⟨setSched (q ++ l') u, wordActions c⟩ = ⟨setSched l' v, m.todo⟩

/-- At the end of the command. -/
theorem Inside.between {s : State} {m : Moment} (h : Inside s m) (he : m.todo = []) :
    Between s m := by
  obtain ⟨n, l, u, c, q, k, v, d, h1, h2, -, h4, h5, h6, h7⟩ := h
  have hw : ∀ l', runWord c (setSched (q ++ l') u) = .next (setSched l' v) := fun l' =>
    placed_word (h5.setSched _) c (by rw [h7, he])
  refine ⟨n, l ++ q, v, d, ?_, h2, ?_, h4, fun l' => ?_⟩
  · cases m; cases he; cases h1; rfl
  · have := Shaped.runWord (h5.setSched _) (hw [])
    exact this.congr rfl rfl rfl rfl rfl
  · rw [List.append_assoc]
    exact h6 _ _ (hw l')

/-- A tick is put off. -/
theorem agentStep_tick {s : State} (σ : List Nat) {d : Nat} (hd : s.cfg.mode = .sync → d = 0)
    (todo : List Action) :
    ∃ d', agentStep .tick ⟨setSched σ (ticks d s), todo⟩ = ⟨setSched σ (ticks d' s), todo⟩ ∧
      (s.cfg.mode = .sync → d' = 0) := by
  cases hm : s.cfg.mode with
  | sync => exact ⟨d, by simp [agentStep, hm], fun _ => hd hm⟩
  | isr =>
    refine ⟨d + 1, ?_, fun h => by cases h⟩
    rw [ticks_succ, ← tickBody_setSched]
    simp [agentStep, hm]

/-- The main path takes a command, or finds none. -/
theorem Between.main {s : State} {m : Moment} (h : Between s m) :
    Between s (mainAction m) ∨ Inside s (mainAction m) := by
  obtain ⟨n, l, u, d, rfl, h2, h3, h4, h5⟩ := h
  show Between s (takeCommand _) ∨ Inside s (takeCommand _)
  unfold takeCommand
  simp only [setSched_cmds, ticks_cmds]
  cases hc : u.cmds with
  | nil => exact .inl ⟨n, l, u, d, rfl, h2, h3, h4, h5⟩
  | cons c rest =>
    right
    refine ⟨n + (d + 1), l ++ [d], setCmds rest (ticks d u), c, [], 0, setCmds rest (ticks d u), 0, rfl,
      fun _ => rfl, fun hm => ?_, by simpa using h4, (h3.ticks d).congr rfl rfl rfl rfl rfl,
      fun l' t ht => ?_, fun l' => rfl⟩
    · refine .of_outer fun a ha => ?_
      cases hd : decode c with
      | command i =>
        simp only [hd, List.mem_singleton] at ha
        subst ha
        exact isHost_of_decode hd
      | unknownCommand op =>
        simp only [hd, List.mem_singleton] at ha
        subst ha
        trivial
    · rw [List.append_assoc]
      exact (run_add core n (d + 1) (h5 ([d] ++ l'))).trans (coreRun_word h2 h4 hc l' ht)

/-- The main path takes an action of its command. -/
theorem Inside.main {s : State} {m : Moment} (h : Inside s m) (hne : m.todo ≠ []) :
    Inside s (mainAction m) := by
  obtain ⟨n, l, u, c, q, k, v, d, h1, h2, h3, h4, h5, h6, h7⟩ := h
  obtain ⟨σ, todo'⟩ := m
  cases todo' with
  | nil => exact absurd rfl hne
  | cons a todo =>
    have h1 : σ = setSched s.sched (ticks d v) := h1
    subst h1
    cases hf : a.free with
    | true =>
      have hrun : a.run (ticks d v) = ⟨ticks d (a.run v).state, (a.run v).first⟩ := by
        cases hm : v.cfg.mode with
        | sync => rw [h2 hm]; rfl
        | isr => exact run_ticks hm (h3 hm) hf d
      refine ⟨n, l, u, c, q, k + 1, (a.run v).state, d, ?_, ?_, fun hm => ?_, ?_, h5, h6,
        fun l' => ?_⟩
      · rw [mainAction_cons, run_setSched, hrun]
      · rw [run_cfg]; exact h2
      · rw [run_cfg] at hm
        rw [mainAction_cons, run_setSched, hrun]
        exact (h3 hm).run hm
      · rw [run_hung]; exact h4
      · rw [Function.iterate_succ_apply', h7, placed_free _ _ hf, mainAction_cons, mainAction_cons,
          run_setSched, run_setSched, hrun]
    | false =>
      refine ⟨n, l, u, c, q ++ [d], k + 1, (a.run (ticks d v)).state, 0, ?_, fun _ => rfl,
        fun hm => ?_, ?_, h5, h6, fun l' => ?_⟩
      · rw [mainAction_cons, run_setSched]; rfl
      · rw [run_cfg, ticks_cfg] at hm
        rw [mainAction_cons, run_setSched]
        refine Ready.run (by simpa using hm) ?_
        have : ∀ j, Ready (ticks j v) (a :: todo) := by
          intro j
          induction j with
          | zero => exact h3 hm
          | succ j ih => rw [ticks_succ]; exact ih.tickBody
        exact this d
      · rw [run_hung]; simpa using h4
      · rw [Function.iterate_succ_apply', List.append_assoc, h7, placed_place _ _ hf]
        have : ticksAtPlace (setSched ([d] ++ l') v) = setSched l' (ticks d v) := by
          rw [← ticks_setSched]; rfl
        rw [this, mainAction_cons, mainAction_cons, run_setSched, run_setSched]

/-- A moment that a run of the step, and of the placed actions, leads to, but for ticks put off. -/
def Followed (s : State) (m : Moment) : Prop := Between s m ∨ (Inside s m ∧ m.todo ≠ [])

theorem Inside.followed {s : State} {m : Moment} (h : Inside s m) : Followed s m := by
  by_cases he : m.todo = []
  · exact .inl (h.between he)
  · exact .inr ⟨h, he⟩

theorem Followed.agentStep {s : State} {m : Moment} (h : Followed s m) (a : Agent) :
    Followed s (agentStep a m) := by
  cases a with
  | mainPath =>
    rcases h with h | ⟨h, hne⟩
    · rcases h.main with h | h
      · exact .inl h
      · exact h.followed
    · exact (h.main hne).followed
  | tick =>
    rcases h with ⟨n, l, u, d, rfl, h2, h3⟩ | ⟨⟨n, l, u, c, q, k, v, d, h1, h2, h3⟩, hne⟩
    · obtain ⟨d', he, hd'⟩ := agentStep_tick s.sched h2 []
      rw [he]
      exact .inl ⟨n, l, u, d', rfl, hd', h3⟩
    · obtain ⟨σ, todo⟩ := m
      have h1 : σ = setSched s.sched (ticks d v) := h1
      subst h1
      obtain ⟨d', he, hd'⟩ := agentStep_tick s.sched h2 todo
      rw [he]
      exact .inr ⟨⟨n, l, u, c, q, k, v, d', rfl, hd', h3⟩, hne⟩

theorem agentRun_followed {s : State} (hs : Shaped s) (hh : s.hung = false) (as : List Agent) :
    Followed s (agentRun as ⟨s, []⟩) := by
  have key : ∀ (as : List Agent) m, Followed s m → Followed s (agentRun as m) := by
    intro as
    induction as with
    | nil => exact fun _ h => h
    | cons a as ih => exact fun m h => ih _ (h.agentStep a)
  exact key as _ (.inl ⟨0, [], s, 0, rfl, fun _ => rfl, hs, hh, fun _ => rfl⟩)

end Sys2Proof.Machine
end

