-- ==== Sys2Proof/Laws/Encoder.lean ====
section
/-! SUPPORT. The value of a Logical Frame. Spec: 40_protocol_encoder.md R90, R92. -/

namespace Sys2Proof.Machine

theorem toNat_topNibble (c : Byte) : (topNibble c).toNat = c.toNat / 16 := by
  unfold topNibble
  rw [BitVec.extractLsb'_toNat]
  have := c.isLt
  simp [Nat.shiftRight_eq_div_pow]
  omega

/-- A Logical Frame as the sum of its fields (R90). -/
theorem toNat_frameOf (index : Nat) (r g b v : Byte) :
    (frameOf index r g b v).toNat = index % 64 * 2 ^ 20 + v.toNat * 2 ^ 12 + b.toNat / 16 * 2 ^ 8
      + g.toNat / 16 * 2 ^ 4 + r.toNat / 16 := by
  unfold frameOf
  simp only [BitVec.toNat_append, toNat_topNibble]
  have h1 := r.isLt
  have h2 := g.isLt
  have h3 := b.isLt
  have h4 := v.isLt
  have hor : ∀ (k a c : Nat), c < 2 ^ k → a <<< k ||| c = a * 2 ^ k + c := by
    intro k a c h
    rw [Nat.shiftLeft_eq, Nat.mul_comm, Nat.two_pow_add_eq_or_of_lt h]
  rw [hor _ _ _ (by omega), hor _ _ _ (by omega), hor _ _ _ (by omega), hor _ _ _ (by omega),
    BitVec.toNat_ofNat]
  omega

end Sys2Proof.Machine
end

