-- ==== Sys2Proof/Laws/Invariant.lean ====
section
/-! SUPPORT. The invariants of 10_state.md R42 through ticks, compositions, hand-overs and answers. -/

namespace Sys2Proof.Machine

/-! ### The transport's registers -/

theorem TransportInv.congr {u v : State} (h : TransportInv u) (hc : v.cfg = u.cfg)
    (ha : v.act = u.act) (hs : v.send = u.send) (hcu : v.cur = u.cur) : TransportInv v := by
  refine ⟨?_, ?_, ?_⟩ <;> simp only [hc, ha, hs, hcu]
  exacts [h.idleCursor, h.cursorRange, h.syncZero]

theorem TransportInv.tickBody {u : State} (h : TransportInv u) : TransportInv (tickBody u) := by
  refine ⟨fun hs => ?_, by simpa using cur_tickBody_lt h.cursorRange, fun hm => ?_⟩
  · rw [tickBody_send] at hs
    rw [tickBody_cur]
    cases hsend : u.send with
    | false => simp [h.idleCursor hsend]
    | true =>
      rw [hsend] at hs
      simp only [Bool.true_and, Bool.not_eq_eq_eq_not, Bool.not_false, decide_eq_true_eq] at hs
      simp [hs]
  · rw [tickBody_cfg] at hm
    obtain ⟨a, b, c⟩ := h.syncZero hm
    rw [tickBody_idle b]
    exact ⟨a, b, c⟩

theorem TransportInv.ticks {u : State} (h : TransportInv u) (n : Nat) : TransportInv (ticks n u) :=
  ticks_keeps (P := TransportInv) (fun _ => TransportInv.tickBody) n h

theorem TransportInv.submit {s : State} (h : TransportInv s) : TransportInv (submit s).state := by
  rcases submit_forms s with ⟨-, h'⟩ | ⟨hm, n, r, h', hd⟩ | ⟨-, n, h', -⟩ <;> rw [h'] <;>
    simp only [Res.state]
  · exact h.congr (by simp [txsync]) (by simp [txsync]) (by simp [txsync]) (by simp [txsync])
  · refine ⟨by simp, ?_, by simp [hm]⟩
    rw [arm_eq (by exact hd)]
    simpa using cur_ticks_lt n h.cursorRange
  · exact (h.ticks n).congr rfl rfl rfl rfl

/-- A main path held for ever waits for a `SEND` that no tick will clear. -/
abbrev HeldWaits (s : State) : Prop :=
  s.hung = true → s.send = true ∧ s.sched = [] ∧ s.tickFires = false

theorem HeldWaits.submit {s : State} (h : TransportInv s) (hw : HeldWaits s) :
    HeldWaits (submit s).state := by
  rcases submit_forms s with ⟨-, h'⟩ | ⟨hm, n, r, h', -⟩ | ⟨hm, n, h', hd⟩
  · rw [h']
    intro hh
    simp only [Res.state, txsync, slicesOut_hung, slicesOut_send, slicesOut_sched,
      slicesOut_tickFires] at hh ⊢
    exact hw hh
  · intro hh
    rw [h'] at hh
    simp only [Res.state, arm_hung, setSched_hung, ticks_hung] at hh
    obtain ⟨h1, h2, h3⟩ := hw hh
    have : Machine.submit s = .held (setHung true (setSched [] s)) := by
      simp [Machine.submit, hm, handoff, h2, spin, spinFree, h1, h3, hold, Res.andThen]
    rw [this] at h'
    cases h'
  · intro _
    have e : Machine.submit s = handoff s := by simp [Machine.submit, hm]
    rw [h']
    rw [e] at h'
    rcases handoff_cases s with ⟨t, h1, h2⟩ | ⟨t, h1, h2⟩ <;> rw [h2] at h' <;> cases h'
    exact ⟨hd, rfl, spin_held_stopped h1 h.cursorRange⟩

/-! ### Recognised pins -/

/-- Every bit of a mask belongs to a pin that `PINMAP` recognises (R42 (d)). -/
abbrev MasksRecognised (u : State) : Prop :=
  ∀ k p b, lane (u.drvWord k p) b = true → Recognised u.cfg p b

/-- Every high latch belongs to a pin that `PINMAP` recognises (R42 (e)). -/
abbrev LatchesRecognised (u : State) : Prop :=
  ∀ p b, lane (u.portWord p) b = true → Recognised u.cfg p b

theorem latches_tickBody {u : State} (hs : Shaped u) (hd : MasksRecognised u)
    (h : LatchesRecognised u) : LatchesRecognised (tickBody u) := by
  intro p b hl
  rw [tickBody_cfg]
  rw [lane_portWord_tickBody hs] at hl
  split at hl
  · next hc => exact hd _ _ _ hc.2.2
  · exact h p b hl

theorem latches_ticks {u : State} (hs : Shaped u) (hd : MasksRecognised u)
    (h : LatchesRecognised u) (n : Nat) : LatchesRecognised (ticks n u) :=
  (ticks_keeps (P := fun u => Shaped u ∧ MasksRecognised u ∧ LatchesRecognised u)
    (fun u ⟨a, b, c⟩ => ⟨a.tickBody, by simpa [MasksRecognised, State.drvWord] using b,
      latches_tickBody a b c⟩) n ⟨hs, hd, h⟩).2.2

/-! ### The whole invariant -/

theorem Inv.congr {u v : State} (h : Inv u) (h1 : Shaped v) (h2 : TransportInv v) (h3 : HeldWaits v)
    (hc : v.cfg = u.cfg) (hi : v.img = u.img) (hd : v.drv = u.drv) (hp : v.port = u.port)
    (hr : v.row = u.row) (hx : v.sidx = u.sidx) : Inv v := by
  refine ⟨h1, h2, ?_, ?_, ?_, ?_, ?_, ?_, h3⟩
  · rw [hi]; exact h.imgCanonical
  · unfold ImageInBounds; rw [hi, hc]; exact h.imgInBounds
  · simp only [State.drvWord, hd, hc]; exact h.drvRecognised
  · simp only [State.portWord, hp, hc]; exact h.portRecognised
  · rw [hr, hc]; exact h.rowRange
  · rw [hx, hc]; exact h.sidxRange

theorem Inv.answer {u : State} (h : Inv u) (a : Answer) : Inv (giveAnswer a u) :=
  h.congr (h.toShaped.congr rfl rfl rfl rfl rfl) (h.toTransportInv.congr rfl rfl rfl rfl)
    h.hungWaits rfl rfl rfl rfl rfl rfl

theorem Inv.setCmds {u : State} (h : Inv u) (c : List CommandWord) : Inv (setCmds c u) :=
  h.congr (h.toShaped.congr rfl rfl rfl rfl rfl) (h.toTransportInv.congr rfl rfl rfl rfl)
    h.hungWaits rfl rfl rfl rfl rfl rfl

theorem Inv.setSched {u : State} (h : Inv u) {l : List Nat} (hl : u.hung = true → l = []) :
    Inv (setSched l u) :=
  h.congr (h.toShaped.congr rfl rfl rfl rfl rfl) (h.toTransportInv.congr rfl rfl rfl rfl)
    (fun hh => ⟨(h.hungWaits hh).1, hl hh, (h.hungWaits hh).2.2⟩) rfl rfl rfl rfl rfl rfl

theorem Inv.setRow {u : State} (h : Inv u) {row : Nat} (hr : row ≤ maxlen u.cfg) :
    Inv (setRow row u) :=
  { h with
    toShaped := h.toShaped.congr rfl rfl rfl rfl rfl
    toTransportInv := h.toTransportInv.congr rfl rfl rfl rfl
    rowRange := hr }

theorem Inv.leaveRow {u : State} (h : Inv u) : Inv (leaveRow u) :=
  { h with
    toShaped := h.toShaped.congr rfl rfl rfl rfl rfl
    toTransportInv := h.toTransportInv.congr rfl rfl rfl rfl
    rowRange := Nat.le_of_lt_succ (Nat.mod_lt _ (Nat.succ_pos _)) }

theorem Inv.tickBody {u : State} (h : Inv u) (hh : u.hung = false) : Inv (tickBody u) where
  toShaped := h.toShaped.tickBody
  toTransportInv := h.toTransportInv.tickBody
  imgCanonical := by simpa using h.imgCanonical
  imgInBounds := by simpa [ImageInBounds] using h.imgInBounds
  drvRecognised := by simpa [State.drvWord] using h.drvRecognised
  portRecognised := latches_tickBody h.toShaped h.drvRecognised h.portRecognised
  rowRange := by simpa using h.rowRange
  sidxRange := by simpa using h.sidxRange
  hungWaits := by simp [hh]

/-- A hand-over keeps the invariants, also one that is held for ever. -/
theorem Inv.submit {u : State} (h : Inv u) : Inv (submit u).state := by
  have hs := submit_same u
  have hport : LatchesRecognised (Machine.submit u).state := by
    intro p b hl
    rw [hs.cfg]
    rcases submit_forms u with ⟨-, h'⟩ | ⟨-, n, r, h', hd⟩ | ⟨-, n, h', -⟩ <;> rw [h'] at hl <;>
      simp only [Res.state] at hl
    · have e := lane_portWord_slicesOut h.toShaped 0 (frameSize - 1) p b
      rw [show frameSize - 1 + 1 = frameSize from rfl] at e
      rw [txsync, e] at hl
      split at hl
      · next hd => exact h.drvRecognised _ _ _ hd
      · exact h.portRecognised _ _ hl
    · rw [arm_eq (by exact hd)] at hl
      have := latches_ticks h.toShaped h.drvRecognised h.portRecognised n p b hl
      rwa [ticks_cfg] at this
    · have := latches_ticks h.toShaped h.drvRecognised h.portRecognised n p b hl
      rwa [ticks_cfg] at this
  refine ⟨h.toShaped.submit, h.toTransportInv.submit, ?_, ?_, ?_, hport, ?_, ?_,
    HeldWaits.submit h.toTransportInv h.hungWaits⟩
  · rw [hs.img]; exact h.imgCanonical
  · unfold ImageInBounds; rw [hs.img, hs.cfg]; exact h.imgInBounds
  · simp only [State.drvWord, hs.drv, hs.cfg]; exact h.drvRecognised
  · rw [hs.row, hs.cfg]; exact h.rowRange
  · rw [hs.sidx, hs.cfg]; exact h.sidxRange

theorem Inv.driveLane {u : State} (h : Inv u) {k p b : Nat} {pin : Byte} (hk : k < u.cfg.nbuf)
    (hp : pinMap u.cfg pin = some (p, b)) (lf : LogicalFrame) :
    Inv (driveLane k p b (levels lf) u) := by
  obtain ⟨r1, r2⟩ := pinMap_range hp
  refine { h with
    toShaped := h.toShaped.driveLane _ _ _ (levels_length lf)
    toTransportInv := h.toTransportInv.congr rfl rfl rfl rfl
    drvRecognised := fun k' p' b' hl => ?_ }
  rw [lane_drvWord_driveLane h.toShaped hk r1 r2] at hl
  by_cases e : k' = k ∧ p' = p ∧ b' = b
  · obtain ⟨rfl, rfl, rfl⟩ := e
    exact ⟨pin, hp⟩
  · simp only [e, decide_false, Bool.false_or] at hl
    exact h.drvRecognised _ _ _ hl

theorem Inv.clearDrv {u : State} (h : Inv u) (k : Nat) : Inv (clearDrv k u) :=
  { h with
    toShaped := h.toShaped.clearDrv k
    toTransportInv := h.toTransportInv.congr rfl rfl rfl rfl
    drvRecognised := fun k' p b hl => by
      rw [drvWord_clearDrv] at hl
      split at hl
      · simp at hl
      · exact h.drvRecognised _ _ _ hl }

/-- Every composition keeps the invariants. -/
theorem inv_kept {c : Config} {k : Nat} (hk : k < c.nbuf) :
    KeptByLanes c k (fun u => u.cfg = c ∧ Inv u) where
  lf v u h := ⟨h.1, h.2.congr (h.2.toShaped.congr rfl rfl rfl rfl rfl)
    (h.2.toTransportInv.congr rfl rfl rfl rfl) h.2.hungWaits rfl rfl rfl rfl rfl rfl⟩
  sidx i u hi h := ⟨h.1, { h.2 with
    toShaped := h.2.toShaped.congr rfl rfl rfl rfl rfl
    toTransportInv := h.2.toTransportInv.congr rfl rfl rfl rfl
    sidxRange := by show i ≤ u.cfg.strandCount; rw [h.1]; omega }⟩
  leave u h := ⟨h.1, { h.2 with
    toShaped := h.2.toShaped.congr rfl rfl rfl rfl rfl
    toTransportInv := h.2.toTransportInv.congr rfl rfl rfl rfl
    sidxRange := Nat.le_of_lt_succ (Nat.mod_lt _ (Nat.succ_pos _)) }⟩
  fault f u h := ⟨h.1, h.2.congr (h.2.toShaped.congr rfl rfl rfl rfl rfl)
    (h.2.toTransportInv.congr rfl rfl rfl rfl) h.2.hungWaits rfl rfl rfl rfl rfl rfl⟩
  clear u h := ⟨h.1, h.2.clearDrv k⟩
  drive i st p b lf u _ hp h :=
    ⟨h.1, h.2.driveLane (by rw [h.1]; exact hk) (by rw [h.1]; exact hp) lf⟩

theorem Inv.compose {u : State} (h : Inv u) (row : Nat) : Inv (compose row u).state :=
  ((inv_kept (composing_lt u)).compose row ⟨rfl, h⟩).2

theorem Inv.composeBroadcast {u : State} (h : Inv u) (v : Byte) :
    Inv (composeBroadcast v u).state :=
  ((inv_kept (composing_lt u)).composeBroadcast v ⟨rfl,
    h.congr (h.toShaped.congr rfl rfl rfl rfl rfl) (h.toTransportInv.congr rfl rfl rfl rfl)
      h.hungWaits rfl rfl rfl rfl rfl rfl⟩).2

theorem Inv.composeSingle {u : State} (h : Inv u) (a pin r g b v : Byte) :
    Inv (composeSingle a pin r g b v u).state := by
  have hk := inv_kept (composing_lt u)
  have h0 : Inv (encodeFrame a.toNat r g b v (Machine.clearDrv u.composing u)) :=
    (hk.lf _ _ (hk.clear _ ⟨rfl, h⟩)).2
  unfold Machine.composeSingle
  rcases expand_cases u.composing pin
    (encodeFrame a.toNat r g b v (Machine.clearDrv u.composing u)).lf
    (encodeFrame a.toNat r g b v (Machine.clearDrv u.composing u)) with ⟨-, e⟩ | ⟨p, n, hp, e⟩ <;>
    simp only [e]
  · exact h0.congr (h0.toShaped.congr rfl rfl rfl rfl rfl) (h0.toTransportInv.congr rfl rfl rfl rfl)
      h0.hungWaits rfl rfl rfl rfl rfl rfl
  · exact h0.driveLane (composing_lt u) hp _

end Sys2Proof.Machine
end

