-- ==== Sys2Proof/Laws/PerInstr.lean ====
section
/-! SUPPORT. Every operation's place in the operation map: a host command has a command word and a code
0x01 to 0x05, an internal operation has no word and a trace tag 0x10 to 0x18.
Spec: 30_encoding.md R77 to R79. -/

namespace Sys2Proof.Laws

/-- Host commands, and they alone, have a command word; codes and tags keep apart (R77 to R79). -/
def OpByte.Statement (i : Instr) : Prop :=
  (encode i).isSome = i.isHost ∧
  (if i.isHost then 0x01 ≤ i.tag.toNat ∧ i.tag.toNat ≤ 0x05
    else 0x10 ≤ i.tag.toNat ∧ i.tag.toNat ≤ 0x18)

theorem OpByte.render : OpByte.Statement .render := ⟨rfl, by simp [Instr.isHost, Instr.tag]⟩
theorem OpByte.setint (value : Byte) : OpByte.Statement (.setint value) := ⟨rfl, by simp [Instr.isHost, Instr.tag]⟩
theorem OpByte.send1 (address pin r g b intensity : Byte) :
    OpByte.Statement (.send1 address pin r g b intensity) := ⟨rfl, by simp [Instr.isHost, Instr.tag]⟩
theorem OpByte.wrpix (x y r g b : Byte) : OpByte.Statement (.wrpix x y r g b) :=
  ⟨rfl, by simp [Instr.isHost, Instr.tag]⟩
theorem OpByte.wren (s : Byte) (v : Bool) : OpByte.Statement (.wren s v) := ⟨rfl, by simp [Instr.isHost, Instr.tag]⟩
theorem OpByte.enc (index : Nat) (r g b intensity : Byte) :
    OpByte.Statement (.enc index r g b intensity) := ⟨rfl, by simp [Instr.isHost, Instr.tag]⟩
theorem OpByte.exp (k : Nat) (pin : Byte) (lf : LogicalFrame) :
    OpByte.Statement (.exp k pin lf) := ⟨rfl, by simp [Instr.isHost, Instr.tag]⟩
theorem OpByte.compose (row : Nat) : OpByte.Statement (.compose row) := ⟨rfl, by simp [Instr.isHost, Instr.tag]⟩
theorem OpByte.wmb (p : Nat) (mask bits : PortWord) : OpByte.Statement (.wmb p mask bits) :=
  ⟨rfl, by simp [Instr.isHost, Instr.tag]⟩
theorem OpByte.sliceout (k t : Nat) : OpByte.Statement (.sliceout k t) := ⟨rfl, by simp [Instr.isHost, Instr.tag]⟩
theorem OpByte.txsync : OpByte.Statement .txsync := ⟨rfl, by simp [Instr.isHost, Instr.tag]⟩
theorem OpByte.handoff : OpByte.Statement .handoff := ⟨rfl, by simp [Instr.isHost, Instr.tag]⟩
theorem OpByte.tick : OpByte.Statement .tick := ⟨rfl, by simp [Instr.isHost, Instr.tag]⟩
theorem OpByte.submit : OpByte.Statement .submit := ⟨rfl, by simp [Instr.isHost, Instr.tag]⟩

end Sys2Proof.Laws
end

