-- ==== Sys2Proof/Laws/WellFormed.lean ====
section
/-! SUPPORT. What a well-formed configuration gives: no strand fails a composition, every pin belongs to
one strand; so which lanes a composition drives, and with what. Spec: 00_scope.md R9, R10;
42_frame_scheduler.md R112 to R114. -/

namespace Sys2Proof.Machine

/-! ### The frames of a loop over strands -/

theorem planFrame_some {plan : Nat → Strand → LogicalFrame → StrandPlan} {p b : Nat}
    {lf0 lf : LogicalFrame} {i : Nat} {l : List Strand} (h : planFrame plan p b lf0 i l = some lf) :
    ∃ j st, l[j]? = some st ∧ plan (i + j) st lf0 = .drive p b lf := by
  induction l generalizing i with
  | nil => cases h
  | cons st l ih =>
    unfold planFrame at h
    cases hr : planFrame plan p b lf0 (i + 1) l with
    | some lf' =>
      rw [hr] at h
      cases h
      obtain ⟨j, st', hj, hp⟩ := ih hr
      exact ⟨j + 1, st', by simpa using hj, by rwa [show i + (j + 1) = i + 1 + j by omega]⟩
    | none =>
      rw [hr] at h
      cases hp : plan i st lf0 with
      | drive p' b' lf' =>
        simp only [hp] at h
        split at h
        · next he => cases h; obtain ⟨rfl, rfl⟩ := he; exact ⟨0, st, rfl, hp⟩
        · cases h
      | skip => simp [hp] at h
      | fail f lf' => simp [hp] at h

theorem planFrame_none {plan : Nat → Strand → LogicalFrame → StrandPlan} {p b : Nat}
    {lf0 : LogicalFrame} {i : Nat} {l : List Strand} (h : planFrame plan p b lf0 i l = none)
    {j : Nat} {st : Strand} (hj : l[j]? = some st) (lf : LogicalFrame) :
    plan (i + j) st lf0 ≠ .drive p b lf := by
  induction l generalizing i j with
  | nil => simp at hj
  | cons st' l ih =>
    unfold planFrame at h
    cases hr : planFrame plan p b lf0 (i + 1) l with
    | some lf' => rw [hr] at h; cases h
    | none =>
      cases j with
      | succ j =>
        rw [show i + (j + 1) = i + 1 + j by omega]
        exact ih hr (by simpa using hj)
      | zero =>
        intro hp
        have he : st' = st := by simpa using hj
        rw [Nat.add_zero] at hp
        rw [hr, he, hp] at h
        simp at h

/-! ### Lengths -/

/-- No strand is longer than `maxlen` (R110). -/
theorem length_le_maxlen {c : Config} {i : Nat} {st : Strand} (h : c.strands[i]? = some st) :
    st.length ≤ maxlen c := by
  have key : ∀ (l : List Strand) (i : Nat), l[i]? = some st → st.length ≤ longest l := by
    intro l
    induction l with
    | nil => intro i h; simp at h
    | cons a l ih =>
      intro i h
      unfold longest
      cases i with
      | zero => simp at h; subst h; omega
      | succ i => have := ih i (by simpa using h); omega
  exact key _ _ h

/-! ### One pin, one strand -/

/-- `PINMAP` is injective on the pins it recognises (R9). -/
theorem pinMap_inj {c : Config} (hc : portsWellFormed c = true) {pin pin' : Byte} {p b : Nat}
    (h : pinMap c pin = some (p, b)) (h' : pinMap c pin' = some (p, b)) : pin = pin' := by
  have hn : (c.pinTable.map fun e => (e.port, e.bit)).Nodup := by
    simp only [portsWellFormed, Bool.and_eq_true, decide_eq_true_eq] at hc
    exact hc.1.2
  have key : ∀ pin, pinMap c pin = some (p, b) → ∃ e ∈ c.pinTable, e.pin = pin ∧ e.port = p ∧ e.bit = b := by
    intro pin h
    unfold pinMap at h
    split at h
    · next e he =>
      split at h
      · cases h
        exact ⟨e, List.mem_of_find?_eq_some he, by simpa using List.find?_some he, rfl, rfl⟩
      · cases h
    · cases h
  obtain ⟨e, he, hp, h1, h2⟩ := key pin h
  obtain ⟨e', he', hp', h1', h2'⟩ := key pin' h'
  have : e = e' := List.inj_on_of_nodup_map hn he he' (by simp [h1, h2, h1', h2'])
  rw [← hp, ← hp', this]

/-- Two strands of a well-formed configuration are never on one pin (R10). -/
theorem strand_unique {c : Config} (hp : portsWellFormed c = true) (hc : configWellFormed c = true)
    {i j : Nat} {st st' : Strand} (hi : c.strands[i]? = some st) (hj : c.strands[j]? = some st')
    {p b : Nat} (h : pinMap c st.pin = some (p, b)) (h' : pinMap c st'.pin = some (p, b)) : i = j := by
  have hn : (c.strands.map fun st => st.pin).Nodup := by
    simp only [configWellFormed, Bool.and_eq_true, decide_eq_true_eq] at hc
    exact hc.2
  have hpin := pinMap_inj hp h h'
  obtain ⟨hil, rfl⟩ := List.getElem?_eq_some_iff.1 hi
  obtain ⟨hjl, rfl⟩ := List.getElem?_eq_some_iff.1 hj
  exact (List.Nodup.getElem_inj_iff hn (hi := by simpa using hil) (hj := by simpa using hjl)).1
    (by simpa using hpin)

/-! ### No strand fails -/

theorem strandWellFormed_of_mem {c : Config} (hc : configWellFormed c = true) {i : Nat} {st : Strand}
    (hi : c.strands[i]? = some st) : strandWellFormed c st = true := by
  simp only [configWellFormed, Bool.and_eq_true] at hc
  exact List.all_eq_true.1 hc.1.2 st (List.mem_of_getElem? hi)

/-- The pin of every strand is recognised, and its coordinates lie in the image (R10). -/
theorem strand_sound {c : Config} (hc : configWellFormed c = true) {i : Nat} {st : Strand}
    (hi : c.strands[i]? = some st) :
    (∃ p b, pinMap c st.pin = some (p, b)) ∧
    ∀ row, row < st.length → (coordOf st row).1 < c.imgW ∧ (coordOf st row).2 < c.imgH := by
  have h := strandWellFormed_of_mem hc hi
  simp only [strandWellFormed, Bool.and_eq_true, List.all_eq_true, decide_eq_true_eq] at h
  obtain ⟨⟨-, h2⟩, h3⟩ := h
  refine ⟨?_, fun row hr => ?_⟩
  · obtain ⟨⟨p, b⟩, hpb⟩ := Option.isSome_iff_exists.1 h2
    exact ⟨p, b, hpb⟩
  · have : coordOf st row ∈ st.leds := by
      unfold coordOf
      rw [List.getD_eq_getElem _ _ hr]
      exact List.getElem_mem _
    exact h3 _ this

theorem pinPlan_of_some {c : Config} {st : Strand} {p b : Nat} (h : pinMap c st.pin = some (p, b))
    (lf : LogicalFrame) : pinPlan c st lf = .drive p b lf := by
  simp [pinPlan, h]

/-- A strand of a loop takes part with a recognised pin, which its plan drives with its frame, or takes no
part and is skipped. -/
def PlanRight (c : Config) (plan : Nat → Strand → LogicalFrame → StrandPlan)
    (on : Nat → Strand → Bool) (frame : Strand → LogicalFrame) (lf0 : LogicalFrame) : Prop :=
  ∀ i st, c.strands[i]? = some st →
    (on i st = true ∧ ∃ p b, pinMap c st.pin = some (p, b) ∧ plan i st lf0 = .drive p b (frame st)) ∨
    (on i st = false ∧ plan i st lf0 = .skip)

theorem PlanRight.not_fail {c : Config} {plan : Nat → Strand → LogicalFrame → StrandPlan}
    {on : Nat → Strand → Bool} {frame : Strand → LogicalFrame} {lf0 : LogicalFrame}
    (h : PlanRight c plan on frame lf0) (i : Nat) (st : Strand) (hi : c.strands[i]? = some st)
    (f : FaultRecord) (lf : LogicalFrame) : plan i st lf0 ≠ .fail f lf := by
  rcases h i st hi with ⟨-, p, b, -, e⟩ | ⟨-, e⟩ <;> rw [e] <;> exact fun h => by cases h

/-- The plans of a row in which no strand that takes part meets a fault (R112, R113). -/
theorem composePlan_right {s : State} {row : Nat}
    (h : ∀ i st, s.cfg.strands[i]? = some st → s.active row i st = true →
      (coordOf st row).1 < s.cfg.imgW ∧ (coordOf st row).2 < s.cfg.imgH
        ∧ (pinMap s.cfg st.pin).isSome = true) (lf : LogicalFrame) :
    PlanRight s.cfg (composePlan s row) (s.active row) (rowFrame s row) lf := by
  intro i st hi
  unfold composePlan
  cases ha : s.active row i st with
  | false => exact .inr ⟨rfl, by simp⟩
  | true =>
    obtain ⟨h1, h2, h3⟩ := h i st hi ha
    obtain ⟨⟨p, b⟩, hpb⟩ := Option.isSome_iff_exists.1 h3
    exact .inl ⟨rfl, p, b, hpb, by simp [h1, h2, pinPlan_of_some hpb]⟩

/-- The plans of a broadcast in which the pins of the enabled strands are recognised (R114). -/
theorem broadcastPlan_right {s : State}
    (h : ∀ i st, s.cfg.strands[i]? = some st → s.enabled i = true →
      (pinMap s.cfg st.pin).isSome = true) (lf : LogicalFrame) :
    PlanRight s.cfg (broadcastPlan s) (fun i _ => s.enabled i) (fun _ => lf) lf := by
  intro i st hi
  unfold broadcastPlan
  cases ha : s.enabled i with
  | false => exact .inr ⟨ha, by simp⟩
  | true =>
    obtain ⟨⟨p, b⟩, hpb⟩ := Option.isSome_iff_exists.1 (h i st hi ha)
    exact .inl ⟨ha, p, b, hpb, by simp [pinPlan_of_some hpb]⟩

/-! ### What a composition drives -/

/-- Two strands that take part on one pin take the same frame. -/
def OneFrame (c : Config) (on : Nat → Strand → Bool) (frame : Strand → LogicalFrame) : Prop :=
  ∀ i j st st' p b, c.strands[i]? = some st → c.strands[j]? = some st' →
    pinMap c st.pin = some (p, b) → pinMap c st'.pin = some (p, b) →
    on i st = true → on j st' = true → frame st = frame st'

/-- The frames of a loop. -/
theorem planFrame_iff {c : Config} {plan : Nat → Strand → LogicalFrame → StrandPlan}
    {on : Nat → Strand → Bool} {frame : Strand → LogicalFrame} {lf0 : LogicalFrame}
    (hplan : PlanRight c plan on frame lf0) (hone : OneFrame c on frame) (p b : Nat)
    (lf : LogicalFrame) :
    planFrame plan p b lf0 0 c.strands = some lf ↔ ∃ i st, c.strands[i]? = some st ∧
      pinMap c st.pin = some (p, b) ∧ on i st = true ∧ lf = frame st := by
  have some_ : ∀ {lf}, planFrame plan p b lf0 0 c.strands = some lf → ∃ i st,
      c.strands[i]? = some st ∧ pinMap c st.pin = some (p, b) ∧ on i st = true ∧ lf = frame st := by
    intro lf h
    obtain ⟨j, st, hj, hd⟩ := planFrame_some h
    rw [Nat.zero_add] at hd
    rcases hplan j st hj with ⟨ho, p', b', hpb, e⟩ | ⟨-, e⟩ <;> rw [e] at hd <;> cases hd
    exact ⟨j, st, hj, hpb, ho, rfl⟩
  constructor
  · exact some_
  · rintro ⟨i, st, hi, hpb, ho, rfl⟩
    cases h : planFrame plan p b lf0 0 c.strands with
    | none =>
      have := planFrame_none h hi (frame st)
      rw [Nat.zero_add] at this
      rcases hplan i st hi with ⟨-, p', b', hpb', e⟩ | ⟨ho', -⟩
      · rw [hpb] at hpb'; cases hpb'; exact absurd e this
      · rw [ho] at ho'; cases ho'
    | some lf =>
      obtain ⟨j, st', hj, hpb', ho', rfl⟩ := some_ h
      rw [hone j i st' st p b hj hi hpb' hpb ho' ho]

/-- The lanes a composition leaves: each lane whose strand is `on` holds the strand's frame and is the
only kind of lane driven; every other lane holds what it held (R107, R112, R114). -/
structure Composed (on : Nat → Strand → Bool) (frame : Strand → LogicalFrame) (s t : State) : Prop where
  driven : ∀ p b, lane (t.drvWord s.composing p) b = true ↔ ∃ i st, s.cfg.strands[i]? = some st ∧
    pinMap s.cfg st.pin = some (p, b) ∧ on i st = true
  frames : ∀ i st p b, s.cfg.strands[i]? = some st → pinMap s.cfg st.pin = some (p, b) →
    on i st = true → ∀ τ, τ < frameSize →
      lane (t.bufWord s.composing p τ) b = lev (frame st) τ
  others : ∀ p b, lane (t.drvWord s.composing p) b = false → ∀ τ, τ < frameSize →
    lane (t.bufWord s.composing p τ) b = lane (s.bufWord s.composing p τ) b

theorem composed_of_lanesFrom {s u t : State} {on : Nat → Strand → Bool}
    {frame : Strand → LogicalFrame} {frames : Nat → Nat → Option LogicalFrame}
    (hf : ∀ p b lf, frames p b = some lf ↔ ∃ i st, s.cfg.strands[i]? = some st ∧
      pinMap s.cfg st.pin = some (p, b) ∧ on i st = true ∧ lf = frame st)
    (hd : ∀ p, u.drvWord s.composing p = 0)
    (hb : ∀ p τ, u.bufWord s.composing p τ = s.bufWord s.composing p τ)
    (h : LanesFrom s.composing frames u t) : Composed on frame s t := by
  have hdrv : ∀ p b, lane (t.drvWord s.composing p) b = (frames p b).isSome := by
    intro p b
    rw [(h p b).1, hd]
    simp
  refine ⟨fun p b => ?_, fun i st p b hi hpb ho τ hτ => ?_, fun p b hl τ hτ => ?_⟩
  · rw [hdrv, Option.isSome_iff_exists]
    constructor
    · rintro ⟨lf, hlf⟩
      obtain ⟨i, st, hi, hpb, ho, -⟩ := (hf p b lf).1 hlf
      exact ⟨i, st, hi, hpb, ho⟩
    · rintro ⟨i, st, hi, hpb, ho⟩
      exact ⟨frame st, (hf p b _).2 ⟨i, st, hi, hpb, ho, rfl⟩⟩
  · rw [(h p b).2 τ hτ, (hf p b _).2 ⟨i, st, hi, hpb, ho, rfl⟩]
  · rw [hdrv] at hl
    have hn : frames p b = none := by simpa using hl
    rw [(h p b).2 τ hτ, hn, hb]

/-- `COMPOSE` of a row in which no strand that takes part meets a fault (R112). -/
theorem compose_sound {s : State} (hs : Shaped s) {row : Nat}
    (h : ∀ i st, s.cfg.strands[i]? = some st → s.active row i st = true →
      (coordOf st row).1 < s.cfg.imgW ∧ (coordOf st row).2 < s.cfg.imgH
        ∧ (pinMap s.cfg st.pin).isSome = true)
    (hone : OneFrame s.cfg (s.active row) (rowFrame s row)) :
    ∃ t, compose row s = .ok t ∧ Shaped t ∧ t.fault = s.fault ∧ ComposeSame s.composing s t ∧
      Composed (s.active row) (rowFrame s row) s t := by
  have hplan := composePlan_right h 0
  obtain ⟨t, h1, h2, -, h4, h5⟩ := forStrands_ok (cn := .sidx) (composePlan_well s row 0) s.cfg.strands
    (hs.clearDrv s.composing) (clearDrv_cfg ..) trivial (composing_lt s) hplan.not_fail
  have h1 : compose row s = .ok (leaveSidx t) := by rw [compose_eq, h1]; rfl
  refine ⟨leaveSidx t, h1, h2.congr rfl rfl rfl rfl rfl, h4, ?_,
    composed_of_lanesFrom (u := clearDrv s.composing s) (fun p b lf =>
    planFrame_iff hplan hone p b lf) (fun p => ?_) (fun p τ => rfl) h5⟩
  · have := (compose_cases row s).2
    rwa [h1] at this
  · simp [drvWord_clearDrv]

/-- `COMPOSE` under a well-formed configuration (R112). -/
theorem compose_wf {s : State} (hs : Shaped s) (hp : portsWellFormed s.cfg = true)
    (hc : configWellFormed s.cfg = true) (row : Nat) :
    ∃ t, compose row s = .ok t ∧ Shaped t ∧ t.fault = s.fault ∧ ComposeSame s.composing s t ∧
      Composed (s.active row) (rowFrame s row) s t := by
  refine compose_sound hs (fun i st hi ha => ?_) fun i j st st' p b hi hj h h' _ _ => ?_
  · obtain ⟨⟨p, b, hpb⟩, hr⟩ := strand_sound hc hi
    simp only [State.active, Bool.and_eq_true, decide_eq_true_eq] at ha
    exact ⟨(hr row ha.2).1, (hr row ha.2).2, by rw [hpb]; rfl⟩
  · obtain rfl := strand_unique hp hc hi hj h h'
    rw [hi] at hj
    cases hj
    rfl

/-- The composition of `SETINT` where the pins of the enabled strands are recognised (R114). -/
theorem composeBroadcast_sound {s : State} (hs : Shaped s)
    (h : ∀ i st, s.cfg.strands[i]? = some st → s.enabled i = true →
      (pinMap s.cfg st.pin).isSome = true) (value : Byte) :
    ∃ t, composeBroadcast value s = .ok t ∧ Shaped t ∧ t.fault = s.fault ∧
      ComposeSame s.composing (setGi value s) t ∧
      Composed (fun i _ => s.enabled i) (fun _ => broadcastFrame s.cfg value) s t := by
  have hplan := broadcastPlan_right h (broadcastFrame s.cfg value)
  have hs' : Shaped (setGi value s) := hs.congr rfl rfl rfl rfl rfl
  obtain ⟨t, h1, h2, -, h4, h5⟩ := forStrands_ok (cn := .unseen)
    (broadcastPlan_well s (broadcastFrame s.cfg value))
    s.cfg.strands (u := setLf (broadcastFrame s.cfg value) (clearDrv s.composing (setGi value s)))
    ((hs'.clearDrv s.composing).congr rfl rfl rfl rfl rfl) rfl rfl (composing_lt s) hplan.not_fail
  rw [← composeBroadcast_eq] at h1
  refine ⟨t, h1, h2, h4, ?_, composed_of_lanesFrom
    (u := setLf (broadcastFrame s.cfg value) (clearDrv s.composing (setGi value s)))
    (fun p b lf => planFrame_iff hplan (fun _ _ _ _ _ _ _ _ _ _ _ _ => rfl) p b lf) (fun p => ?_)
    (fun p τ => rfl) h5⟩
  · have := (composeBroadcast_cases value s).2
    rwa [h1] at this
  · show (clearDrv s.composing (setGi value s)).drvWord s.composing p = 0
    simp [drvWord_clearDrv]

end Sys2Proof.Machine
end

