-- ==== Sys2Proof/Laws/Wire.lean ====
section
/-! SUPPORT. The latches while a frame is in flight, and what a composed row puts on each pin.
Spec: 10_state.md R40 (c); 43_transport_driver.md R131, R135, R140. -/

namespace Sys2Proof.Machine

/-! ### The latches follow the transport -/

/-- The transmitting side never reads the composing instance (10_state.md R42 (c)). -/
theorem act_ne_composing {s : State} (h : TransportInv s) (hs : s.send = true) :
    s.act.toNat ≠ s.composing := by
  cases hm : s.cfg.mode with
  | sync => rw [(h.syncZero hm).2.1] at hs; cases hs
  | isr => exact (composing_ne_act hm).symm

theorem WireInv.congr {u v : State} (h : WireInv u) (hp : v.port = u.port) (ha : v.act = u.act)
    (hs : v.send = u.send) (hc : v.cur = u.cur)
    (hd : u.send = true → ∀ p, v.drvWord u.act.toNat p = u.drvWord u.act.toNat p)
    (hb : u.send = true → ∀ p t, v.bufWord u.act.toNat p t = u.bufWord u.act.toNat p t) :
    WireInv v := by
  intro p b
  have := h p b
  unfold State.portWord at *
  rw [hp, this]
  unfold wireLevel
  rw [ha, hs, hc]
  cases hs' : u.send with
  | false => rfl
  | true => rw [hd hs', hb hs']

/-- A composition does not touch what is on the wire. -/
theorem WireInv.composeSame {u v : State} (h : WireInv u) (hi : TransportInv u)
    (hs : ComposeSame u.composing u v) : WireInv v :=
  h.congr hs.port hs.act hs.send hs.cur (fun e p => hs.otherDrv _ (act_ne_composing hi e) p)
    fun e p t => hs.otherBuf _ (act_ne_composing hi e) p t

/-- A tick moves the latches on by one slice; the last one leaves every driven pin low. -/
theorem WireInv.tickBody {u : State} (h : WireInv u) (hs : Shaped u) (hf : Framed u)
    (hi : TransportInv u) : WireInv (tickBody u) := by
  intro p b
  have hr := hi.cursorRange
  have hfs : frameSize = 80 := rfl
  cases hsend : u.send with
  | false => rw [tickBody_idle hsend]; exact h p b
  | true =>
    rw [lane_portWord_tickBody hs, h p b]
    unfold wireLevel
    rw [tickBody_send, tickBody_cur, hsend]
    simp only [tickBody_act, State.drvWord, State.bufWord, tickBody_drv, tickBody_buf, if_true,
      Bool.true_and]
    cases hd : lane ((u.drv.getD u.act.toNat []).getD p 0) b with
    | false => simp
    | true =>
      obtain ⟨lf, hlf⟩ := hf u.act.toNat p b hd
      have h79 : lane (((u.buf.getD u.act.toNat []).getD p []).getD 79 0) b = false :=
        hlf 79 (by decide)
      by_cases hlast : u.cur + 1 = frameSize + u.cfg.quietTicks
      · simp only [hlast, if_true, decide_true, Bool.not_true, Bool.false_and]
        by_cases hc : u.cur < frameSize
        · simp only [hc, and_true, if_true]
          rw [show u.cur = 79 by omega]
          exact h79
        · simp only [hc, false_and]
          rw [show min (u.cur - 1) (frameSize - 1) = 79 by omega, h79]
          simp
      · simp only [hlast, if_false, decide_false, Bool.not_false, Bool.true_and]
        by_cases hc : u.cur < frameSize
        · simp only [hc, and_true, if_true]
          rw [show min (u.cur + 1 - 1) (frameSize - 1) = u.cur by omega]
          simp
        · simp only [hc, false_and]
          rw [show min (u.cur - 1) (frameSize - 1) = 79 by omega,
            show min (u.cur + 1 - 1) (frameSize - 1) = 79 by omega, h79]
          simp

theorem WireInv.ticks {u : State} (h : WireInv u) (hs : Shaped u) (hf : Framed u)
    (hi : TransportInv u) (n : Nat) : WireInv (ticks n u) :=
  (ticks_keeps (P := fun u => Shaped u ∧ Framed u ∧ TransportInv u ∧ WireInv u)
    (fun _ ⟨a, b, c, d⟩ => ⟨a.tickBody, b.congr (by simp) (by simp), c.tickBody, d.tickBody a b c⟩)
    n ⟨hs, hf, hi, h⟩).2.2.2

/-- A hand-over leaves every pin low in `SYNC` mode and when it has armed, else at the level the frame
still in flight has reached. -/
theorem WireInv.submit {u : State} (h : WireInv u) (hs : Shaped u) (hf : Framed u)
    (hi : TransportInv u) : WireInv (submit u).state := by
  rcases submit_forms u with ⟨hm, h'⟩ | ⟨-, n, r, h', hd⟩ | ⟨-, n, h', -⟩ <;> rw [h'] <;>
    simp only [Res.state]
  · intro p b
    have hz := (hi.syncZero hm).2.1
    have e := lane_portWord_slicesOut hs 0 (frameSize - 1) p b
    rw [show frameSize - 1 + 1 = frameSize from rfl] at e
    have hw : wireLevel (txsync u) p b = false := by simp [wireLevel, txsync, hz]
    rw [hw, txsync, e]
    split
    · next hd =>
      obtain ⟨lf, hlf⟩ := hf 0 p b hd
      rw [hlf (frameSize - 1) (by decide)]
      rfl
    · rw [h p b]; simp [wireLevel, hz]
  · intro p b
    have hw := h.ticks hs hf hi n p b
    have hc := (hi.ticks n).idleCursor hd
    rw [arm_eq (by exact hd)]
    show lane ((Machine.ticks n u).portWord p) b = _
    rw [hw]
    simp [wireLevel, hd, hc]
  · exact (h.ticks hs hf hi n).congr rfl rfl rfl rfl (fun _ _ => rfl) (fun _ _ _ => rfl)

/-! ### What a composed buffer puts on each pin -/

/-- A composition changes nothing of what is or will be on the wire before its hand-over. -/
theorem wireLevels_composeSame {s t : State} (hi : TransportInv s)
    (h : ComposeSame s.composing s t) (p b : Nat) : wireLevels t p b = wireLevels s p b :=
  wireLevels_congr hi.cursorRange h.cfg h.act h.send h.cur h.history
    (fun e p => h.otherDrv _ (act_ne_composing hi e) p)
    (fun e p t => h.otherBuf _ (act_ne_composing hi e) p t) p b

/-- Handing over a composition puts on the pin of each strand that takes part its frame, after what was in
flight, and nothing on any other pin. -/
theorem submit_composed {u v : State} {on : Nat → Strand → Bool} {frame : Strand → LogicalFrame}
    (hs : ComposeSame u.composing u v) (hv : Shaped v) (hti : TransportInv u)
    (hcomp : Composed on frame u v) (hl : Live u) :
    ∃ w, submit v = .ok w ∧ Shaped w ∧ TransportInv w ∧ SubmitSame v w ∧
      (∀ i st p b, u.cfg.strands[i]? = some st → pinMap u.cfg st.pin = some (p, b) →
        on i st = true → wireLevels w p b = wireLevels u p b ++ levels (frame st)) ∧
      (∀ p b, (∀ (i : Nat) (st : Strand), u.cfg.strands[i]? = some st →
          pinMap u.cfg st.pin = some (p, b) → on i st = false) →
        wireLevels w p b = wireLevels u p b) := by
  have htv : TransportInv v := hti.congr hs.cfg hs.act hs.send hs.cur
  have hlv : Live v := by unfold Live at *; rw [hs.cfg, hs.tickFires]; exact hl
  obtain ⟨w, hw⟩ := submit_ends hlv htv.cursorRange
  have h1 := hv.submit
  have h2 := htv.submit
  have h3 := submit_same v
  rw [hw] at h1 h2 h3
  have hcv : v.composing = u.composing := by unfold State.composing; rw [hs.cfg, hs.act]
  refine ⟨w, hw, h1, h2, h3, fun i st p b hi hpb ho => ?_, fun p b hno => ?_⟩ <;>
    rw [submit_wire hv htv hw, wireLevels_composeSame hti hs, hcv]
  · rw [if_pos ((hcomp.driven p b).2 ⟨i, st, hi, hpb, ho⟩)]
    congr 1
    unfold levels
    exact List.map_congr_left fun τ hτ =>
      hcomp.frames i st p b hi hpb ho τ (List.mem_range.1 hτ)
  · rw [if_neg, List.append_nil]
    intro hd
    obtain ⟨j, st', hj, hpb, ho⟩ := (hcomp.driven p b).1 hd
    rw [hno j st' hj hpb] at ho
    cases ho

end Sys2Proof.Machine
end

