-- ==== Sys2Proof/WellFormed.lean ====
section
/-! DEFINITION. Which operations a configuration has: the operand ranges the rules give, and the
MODE of the operations that exist in one MODE only. Host commands are well-formed whatever their
operands: an index out of range is a refusal at run time (20_memory.md R57). -/

namespace Sys2Proof

/-- The operand ranges of R100, R112, R130, R131, and the MODE of R132, R134, R135. -/
def Instr.wf (c : Config) : Instr → Bool
  | .render => true
  | .setint _ => true
  | .send1 _ _ _ _ _ _ => true
  | .wrpix _ _ _ _ _ => true
  | .wren _ _ => true
  | .enc _ _ _ _ _ => true
  | .exp k _ _ => decide (k < c.nbuf)
  | .compose row => c.strands.any fun st => decide (row < st.length)
  | .wmb p mask bits =>
      decide (p < c.nPorts) && decide (mask < 2 ^ c.portWidth) && decide (bits < 2 ^ c.portWidth)
  | .sliceout k t => decide (k < c.nbuf) && decide (t < frameSize)
  | .txsync => decide (c.mode = .sync)
  | .handoff => decide (c.mode = .isr)
  | .tick => decide (c.mode = .isr)
  | .submit => true

end Sys2Proof
end

