-- ==== Sys2Proof/Tests/Slice0.lean ====
section
/-! SUPPORT. The model's own tests: ill-formed operations are refused, words written out from the spec's
encodings decode, and one step of each operation on a small state gives what 95_test_vectors.md says. Then, for
each statement with hypotheses, a state and operands that meet them. -/

namespace Sys2Proof.Tests

open Sys2Proof Sys2Proof.Machine

/-! ### Small machines -/

/-- The configuration of program P2 with a choice of MODE and of `QUIET_TICKS`. -/
def twoStrands (m : Mode) (q : Nat) : Config :=
  { Config.default with
    mode := m, quietTicks := q, imgW := 2, imgH := 2
    strands := [{ pin := 0, leds := [(0, 0), (0, 1)] }, { pin := 1, leds := [(1, 0)] }] }

/-- The configuration of program P3: two ports. -/
def twoPorts : Config :=
  { Config.default with
    mode := .isr, imgW := 1, imgH := 1, nPorts := 2, pinTable := Config.defaultPinTable 2 8
    giReset := 0x33
    strands := [{ pin := 2, leds := [(0, 0)] }, { pin := 9, leds := [(0, 0)] }] }

/-- The configuration of vector C9: the one coordinate lies outside the image. -/
def badCoord : Config :=
  { Config.default with imgW := 1, imgH := 1, strands := [{ pin := 0, leds := [(1, 0)] }] }

/-- The configuration of vector C10: the second strand's pin is not recognised. -/
def badPin : Config :=
  { Config.default with
    strands := [{ pin := 0, leds := [(0, 0)] }, { pin := 200, leds := [(0, 0)] }] }

/-- The second LED of the first strand lies outside the image: row 1 faults, row 0 does not. -/
def lateFault : Config :=
  { twoStrands .isr 0 with
    strands := [{ pin := 0, leds := [(0, 0), (2, 0)] }, { pin := 1, leds := [(1, 0)] }] }

/-- `P2` after reset, idle. -/
def idle (m : Mode) : State := State.launch (twoStrands m 0) []

/-- `(ACT, SEND, CUR) = (1, 1, cur)`: pin 0 carries one frame. -/
def flying (q cur : Nat) : State :=
  { driveLane 1 0 0 (levels 0x058018F) (State.launch (twoStrands .isr q) []) with
    act := 1, send := true, cur := cur }

/-- The next state, where there is one. -/
def after (i : Instr) (s : State) : Option State :=
  match exec i s with
  | .next t => some t
  | .fault _ => none
  | .refused _ => none

/-- The 80 levels written as the level strings of the spec: slice 0 is the leftmost digit. -/
def levelString (n : Nat) : List Level := (List.range 80).map fun t => n.testBit (79 - t)

/-! ### Ill-formed operations are refused (WellFormed) -/

theorem test_wf_exp : (Instr.exp 1 0 0).wf Config.default = false := by decide
theorem test_wf_compose : (Instr.compose 2).wf Config.default = false := by decide
theorem test_wf_wmb_port : (Instr.wmb 1 0 0).wf Config.default = false := by decide
theorem test_wf_wmb_mask : (Instr.wmb 0 256 0).wf Config.default = false := by decide
theorem test_wf_wmb_bits : (Instr.wmb 0 0 256).wf Config.default = false := by decide
theorem test_wf_sliceout_instance : (Instr.sliceout 1 0).wf Config.default = false := by decide
theorem test_wf_sliceout_slice : (Instr.sliceout 0 80).wf Config.default = false := by decide
theorem test_wf_txsync : Instr.txsync.wf (twoStrands .isr 0) = false := by decide
theorem test_wf_handoff : Instr.handoff.wf Config.default = false := by decide
theorem test_wf_tick : Instr.tick.wf Config.default = false := by decide

/-- The boundary operands are well-formed. -/
theorem test_wf_accepts :
    ([.exp 1 0 0, .compose 1, .wmb 0 255 255, .sliceout 1 79, .handoff, .tick] : List Instr).all
      (fun i => i.wf (twoStrands .isr 0)) = true := by decide

/-! ### Words written out from R75 and R77: op, A, P, R, G, B, I -/

theorem test_decode_render :
    decode (0b00000001#8 ++ 0#8 ++ 0#8 ++ 0#8 ++ 0#8 ++ 0#8 ++ 0#8) = .command .render := by decide

theorem test_decode_setint :
    decode (0b00000010#8 ++ 0#8 ++ 0#8 ++ 0#8 ++ 0#8 ++ 0#8 ++ 0b01000010#8)
      = .command (.setint 0x42) := by decide

theorem test_decode_send1 :
    decode (0b00000011#8 ++ 0b00000101#8 ++ 0b00001001#8 ++ 0b11110000#8 ++ 0b10000000#8
        ++ 0b00010000#8 ++ 0b10000001#8)
      = .command (.send1 5 9 0xF0 0x80 0x10 0x81) := by decide

theorem test_decode_wrpix :
    decode (0b00000100#8 ++ 0b00000010#8 ++ 0b00000001#8 ++ 0b00000011#8 ++ 0b11111111#8
        ++ 0b00000111#8 ++ 0b11111111#8)
      = .command (.wrpix 2 1 3 0xFF 7) := by decide

/-- `I[0]` alone is the flag: bits 7 to 1 are ignored (R76 (e)). -/
theorem test_decode_wren :
    decode (0b00000101#8 ++ 0b00000001#8 ++ 0#8 ++ 0#8 ++ 0#8 ++ 0#8 ++ 0b11111110#8)
      = .command (.wren 1 false) := by decide

/-- Every reserved code is refused by its number, 0x00, 0x06, the tags and 0xFF among them (R79). -/
theorem test_decode_reserved :
    ((List.range 256).filter fun n => 5 < n ∨ n = 0).all
      (fun n => decide (decode (BitVec.ofNat 8 n ++ 0#48) = .unknownCommand (BitVec.ofNat 8 n)))
      = true := by decide +kernel

theorem test_decode_bytes :
    decodeBytes [0x02, 0, 0, 0, 0, 0, 0x42, 0x01] = .read (.command (.setint 0x42)) [0x01] := by decide

theorem test_table_word : decodeTableWord 56 0x04000100FF0000 = some (.wrpix 0 1 0 0xFF 0) := by
  decide

/-! ### `ENC` (vectors E1, E6) -/

theorem test_enc_example :
    (after (.enc 5 0xF0 0x80 0x10 0x80) State.reset).map (fun t => t.lf) = some 0x058018F := by decide

theorem test_enc_low_nibbles :
    (after (.enc 61 0x0F 0x1F 0xEF 0xCC) State.reset).map (fun t => t.lf) = some 0x3DCCE10 := by decide

/-! ### `EXP`, `lev`, `DEC` (vectors X3, X5, X6, X8 and the failures of `DEC`) -/

theorem test_levels_x5 : levels 0x147FECA = levelString
    0b10110010110010110110110010010010010010010010010010010110010010110110010110010110 := by
  decide +kernel

/-- X6: two lanes of one port; the words of slices 0 to 6 and 79. -/
theorem test_exp_two_lanes :
    ((after (.exp 0 0 0) State.reset).bind (after (.exp 0 1 0x3FFFFFF))).map
      (fun t => (t.drv, [0, 1, 2, 3, 4, 5, 6, 79].map (t.bufWord 0 0)))
      = some ([[0x03]], [3, 0, 1, 3, 0, 1, 3, 0]) := by decide +kernel

/-- X8: an unrecognised pin. -/
theorem test_exp_invalid_pin :
    (after (.exp 0 8 0) State.reset) = some { State.reset with fault := .invalidPin 8 } := by
  decide +kernel

theorem test_dec_refuses :
    [0x00000000000000000000, 0x80000000000000000000].map (fun n => dec (levelString n))
      = [none, none] := by decide +kernel

/-! ### `WMB`, `SLICEOUT`, `TXSYNC` (vectors W1 to W4) -/

theorem test_wmb_merges :
    (after (.wmb 0 0x0C 0x0A) { State.reset with port := [0x05] }).map (fun t => (t.port, t.history))
      = some ([0x09], [.wmb 0 0x0C 0x0A]) := by decide

theorem test_wmb_empty_mask :
    (after (.wmb 0 0x00 0xFF) { State.reset with port := [0xA5] }).map (fun t => t.port)
      = some [0xA5] := by decide

theorem test_sliceout_masks :
    (after (.sliceout 0 0)
      { State.reset with drv := [[0x08]], buf := [[0xFF :: List.replicate 79 0]] }).map
      (fun t => t.port) = some [0x08] := by decide +kernel

theorem test_sliceout_ports_ascending :
    (after (.sliceout 1 0)
      { State.launch twoPorts [] with
        drv := [[0, 0], [0, 2]]
        buf := [[[], []], [List.replicate 80 0, 2 :: List.replicate 79 0]] }).map
      (fun t => (t.port, t.history)) = some ([0, 2], [.wmb 0 0 0, .wmb 1 2 2]) := by decide +kernel

/-- The 80 slices reach the pin in order, and it ends low. -/
theorem test_txsync_frame :
    ((after (.exp 0 3 0x058018F) State.reset).bind (after .txsync)).map
      (fun t => (decide (drivenLevels 0 3 t.history = levels 0x058018F), t.history.length, t.port))
      = some (true, 80, [0]) := by decide +kernel

/-! ### `TICK` and `HANDOFF` (vectors T1, T2, T5, T6, T9, T10) -/

theorem test_tick_last :
    (after .tick { flying 0 79 with port := [1] }).map (fun t => (t.act, t.send, t.cur, t.port))
      = some (1, false, 0, [0]) := by decide +kernel

theorem test_tick_quiet :
    (after .tick (flying 2 80)).map (fun t => (t.send, t.cur, t.history))
      = some (true, 81, [.quietTick]) := by decide +kernel

/-- T9: 75 ticks, then the swap. -/
theorem test_handoff_waits :
    (after .handoff (flying 0 5)).map (fun t => (t.act, t.send, t.cur, t.history.length))
      = some (0, true, 0, 75) := by decide +kernel

/-- T10: a tick between the swap and the flag is idle. -/
theorem test_handoff_idle_tick :
    (after .handoff { idle .isr with sched := [0, 1] }).map
      (fun t => (t.act, t.send, t.cur, t.history)) = some (1, true, 0, [.idleTick]) := by decide +kernel

/-! ### `COMPOSE` and `SUBMIT` (vectors C1, C9) -/

/-- Row 1: strand 0 has an LED there and strand 1 has none (R113). -/
theorem test_compose_short_strand :
    (after (.compose 1) { idle .isr with drv := [[1], [0xFF]], gi := 0x80 }).map
      (fun t => (t.drv, t.lf)) = some ([[1], [1]], 0x0180000) := by decide +kernel

theorem test_compose_bad_coordinate :
    (after (.compose 0) (State.launch badCoord [])).map (fun t => (t.fault, t.drv, t.sidx))
      = some (.badCoord 0, [[0]], 0) := by decide +kernel

theorem test_submit_sync :
    (after .submit (idle .sync)).map (fun t => (t.history.length, t.send)) = some (80, false) := by
  decide +kernel

theorem test_submit_isr :
    (after .submit (idle .isr)).map (fun t => (t.act, t.send, t.history)) = some (1, true, []) := by
  decide +kernel

/-! ### The host commands (programs P1, P3; vectors C6, C7, C9) -/

/-- P1 step 4: two rows, 160 writes, the frames of rows 0 and 1. -/
theorem test_render_two_rows :
    (after .render
      { State.reset with
        gi := 0xCC
        img := [((0, 0), { r := 0xF0, g := 0x80, b := 0x10 }), ((0, 1), { r := 0, g := 0xFF, b := 0 })] }).map
      (fun t => (t.lf, t.drv, t.history.length,
        decide (drivenLevels 0 3 t.history = levels 0x00CC18F ++ levels 0x01CC0F0), t.answers))
      = some (0x01CC0F0, [[0x08]], 160, true, [.ok]) := by decide +kernel

theorem test_render_bad_coordinate :
    (after .render (State.launch badCoord [])).map (fun t => (t.fault, t.history, t.answers))
      = some (.badCoord 0, [], [.fault (.badCoord 0)]) := by decide +kernel

/-- P1 step 3. -/
theorem test_setint_broadcast :
    (after (.setint 0xCC) State.reset).map (fun t => (t.gi, t.lf, t.drv, t.history.length))
      = some (0xCC, 0x3FCC000, [[0x08]], 80) := by decide +kernel

/-- P3 step 3: the disabled strand takes no frame; and the counters, which "are written only by `RENDER` and
`COMPOSE`" (R26), keep their values. -/
theorem test_setint_disabled :
    (after (.setint 0x42) { State.launch twoPorts [] with en := [false, true], row := 1, sidx := 2 }).map
      (fun t => (t.lf, t.drv, t.act, t.row, t.sidx)) = some (0x3F42000, [[0, 0], [0, 2]], 1, 1, 2) := by
  decide +kernel

/-- P3 step 1. -/
theorem test_send1 :
    (after (.send1 5 9 0xF0 0x80 0x10 0x80) (State.launch twoPorts [])).map
      (fun t => ((t.lf, t.drv, t.gi), (t.act, t.send, t.cur)))
      = some ((0x058018F, [[0, 0], [0, 2]], 0x33), (1, true, 0)) := by decide +kernel

/-- P3 step 6. -/
theorem test_send1_invalid_pin :
    (after (.send1 0 16 1 2 3 4) { State.launch twoPorts [] with drv := [[0, 2], [0, 2]], act := 1 }).map
      (fun t => (t.lf, t.drv, t.fault, t.send))
      = some (0x0004000, [[0, 0], [0, 2]], .invalidPin 16, false) := by decide +kernel

theorem test_wrpix :
    (after (.wrpix 0 1 0 0xFF 0) State.reset).map (fun t => (t.pixel 0 1, t.pixel 0 0, t.answers))
      = some ({ r := 0, g := 0xFF, b := 0 }, { r := 0, g := 0, b := 0 }, [.ok]) := by decide

theorem test_wrpix_out_of_range :
    after (.wrpix 1 0 1 2 3) State.reset
      = some { State.reset with answers := [.refused .badOperand] } := by decide +kernel

theorem test_wren :
    (after (.wren 0 false) (State.launch twoPorts [])).map (fun t => t.en) = some [false, true] := by
  decide

theorem test_wren_out_of_range :
    (after (.wren 2 true) (State.launch twoPorts [])).map (fun t => (t.en, t.answers))
      = some ([true, true], [.refused .badOperand]) := by decide

/-! ### The step -/

/-- The table's word runs as the first instruction. -/
theorem test_step_fetch :
    (match step (State.reset.withFetchWord 56 0x02000000000042) with
      | .next t => some (t.gi, t.answers, t.cmds)
      | _ => none) = some (0x42, [.ok], []) := by decide +kernel

/-- With no command left the tick moves. -/
theorem test_step_tick :
    (match step (flying 0 5) with
      | .next t => some (t.cur, t.history.length)
      | _ => none) = some (6, 1) := by decide +kernel

/-! ### Atomic actions (R18, R137; vector T10) -/

/-- The swap, a tick, the flag: the tick between the two writes is idle. -/
theorem test_actions_swap :
    (fun m : Moment => (m.state.act, m.state.send, m.state.history, m.todo))
      (agentRun [.mainPath, .tick, .mainPath] { state := idle .isr, todo := [.flipAct] })
      = (1, true, [.idleTick], []) := by decide +kernel

/-- Between the read and the write of one word the latch is what it was. -/
theorem test_actions_half_write :
    (fun m : Moment => (m.state.port, m.todo))
      (agentRun [.mainPath] { state := { State.reset with port := [5] }, todo := [.readPort 0 0x0C 0x0A] })
      = ([5], [.writePort 0 5 0x0C 0x0A]) := by decide +kernel

/-! ### Witnesses: small states that meet the premises -/

/-- The machine of program P2 meets every invariant after reset with no pixel listed. -/
theorem launch_meets (m : Mode) (q : Nat) :
    Inv (State.launch (twoStrands m q) []) ∧ Framed (State.launch (twoStrands m q) [])
      ∧ WireInv (State.launch (twoStrands m q) []) := by
  refine ⟨{ toShaped := Shaped.launch _ []
            toTransportInv := ⟨fun _ => rfl, by simp [State.launch, frameSize], fun _ => ⟨rfl, rfl, rfl⟩⟩
            imgCanonical := by simp [imageWf, State.launch]
            imgInBounds := by simp [ImageInBounds, State.launch]
            drvRecognised := ?_, portRecognised := ?_
            rowRange := Nat.zero_le _, sidxRange := Nat.zero_le _
            hungWaits := by simp [State.launch] }, ?_, ?_⟩
  · intro k p b h; rw [drvWord_launch] at h; simp at h
  · intro p b h; rw [portWord_launch] at h; simp at h
  · intro k p b h; rw [drvWord_launch] at h; simp at h
  · intro p b; rw [portWord_launch]; simp [wireLevel, State.launch]

theorem pin_zero_maps (m : Mode) (q : Nat) : pinMap (twoStrands m q) 0 = some (0, 0) := by
  cases m <;> rfl

/-- A frame in flight, at every cursor its quiet ticks allow. -/
theorem flying_meets {q cur : Nat} (h : cur < 80 + q) :
    Inv (flying q cur) ∧ Framed (flying q cur) := by
  have h0 := launch_meets .isr q
  have hk : (1 : Nat) < (State.launch (twoStrands .isr q) []).cfg.nbuf :=
    show (1 : Nat) < 2 by decide
  have h1 := h0.1.driveLane hk (pin_zero_maps .isr q) 0x058018F
  obtain ⟨hp, hb⟩ := pinMap_range (pin_zero_maps .isr q)
  refine ⟨h1.congr (h1.toShaped.congr rfl rfl rfl rfl rfl) ⟨?_, h, ?_⟩ ?_ rfl rfl rfl rfl rfl rfl,
    (h0.2.1.driveLane h0.1.toShaped hk hp hb 0x058018F).congr rfl rfl⟩
  · intro e; cases e
  · intro e; cases e
  · intro e; cases e

/-- The first slice of that frame is out: pin 0 is high. -/
theorem lit_meets : WireInv (tickBody (flying 0 0)) := by
  have h := flying_meets (q := 0) (cur := 0) (by decide)
  refine WireInv.tickBody ?_ h.1.toShaped h.2 h.1.toTransportInv
  intro p b
  rw [show (flying 0 0).portWord p = (State.launch (twoStrands .isr 0) []).portWord p from rfl,
    portWord_launch]
  simp [wireLevel, flying]

theorem first_strand (m : Mode) :
    StrandAt (idle m) 0 { pin := 0, leds := [(0, 0), (0, 1)] } 0 0 := ⟨rfl, pin_zero_maps m 0⟩

theorem no_strand_at_two (m : Mode) : NoStrandAt (idle m) 0 2 := by
  rintro i st ⟨hi, hp⟩
  have key : ∀ st ∈ (twoStrands m 0).strands, pinMap (twoStrands m 0) st.pin ≠ some (0, 2) := by
    cases m <;> decide
  exact key st (List.mem_of_getElem? hi) hp

/-- Both configurations are well-formed, so are their ports, and each transmits (R10, R165). -/
theorem test_witness_configuration (m : Mode) :
    portsWellFormed (idle m).cfg = true ∧ configWellFormed (idle m).cfg = true ∧ Live (idle m)
      ∧ (idle m).fault = .none := by
  refine ⟨?_, ?_, Or.inr rfl, rfl⟩ <;> cases m <;> decide

/-! ### Witnesses: the command word and the step -/

theorem test_witness_DecodeOfEncode :
    Instr.render.isHost = true ∧ (Instr.wren 0xFF true).isHost = true
      ∧ Instr.submit.isHost = false := by decide

theorem test_witness_UnusedFieldsAreIgnored :
    ((fieldOp 0x01AABBCCDDEEFF = fieldOp 0x01000000000000 ∧ fieldOp 0x01000000000000 = 0x01)
    ∧ (fieldOp 0x02AABBCCDDEE42 = fieldOp 0x02000000000042 ∧ fieldOp 0x02000000000042 = 0x02
      ∧ fieldI 0x02AABBCCDDEE42 = fieldI 0x02000000000042))
    ∧ (fieldOp 0x04000100FF00AA = fieldOp 0x04000100FF0000 ∧ fieldOp 0x04000100FF0000 = 0x04
      ∧ fieldB 0x04000100FF00AA = fieldB 0x04000100FF0000)
    ∧ (fieldOp 0x05010000000003 = fieldOp 0x05010000000001 ∧ fieldOp 0x05010000000001 = 0x05
      ∧ fieldA 0x05010000000003 = fieldA 0x05010000000001
      ∧ (fieldI 0x05010000000003).getLsbD 0 = (fieldI 0x05010000000001).getLsbD 0) := by decide

/-- The codes 0x00, 0x06 and 0xFF, and a state with such a word waiting and a fault recorded. -/
theorem test_witness_ReservedCodesAreRefused :
    (([0x00000000000000, 0x06000000000000, 0xFF000000000000] : List CommandWord).all fun w =>
      [0x01, 0x02, 0x03, 0x04, 0x05].all fun n => (fieldOp w).toNat != n) = true
    ∧ ({ idle .isr with cmds := [0], fault := .badCoord 0 } : State).hung = false
    ∧ ({ idle .isr with cmds := [0], fault := .badCoord 0 } : State).tickDue = false := by
  decide +kernel

theorem test_witness_ByteStreamReadsOneWord :
    ([] : List Byte).length < 7 ∧ ([1, 2, 3, 4, 5, 6] : List Byte).length < 7 := by decide

theorem test_witness_StepRunsDecodedCommand :
    (({ idle .isr with cmds := [0x01000000000000], sched := [0, 3] } : State).tickDue = false
      ∧ ({ idle .isr with cmds := [0x01000000000000], sched := [0, 3] } : State).hung = false
      ∧ decode 0x01000000000000 = .command .render)
    ∧ (flying 0 5).tickDue = true ∧ ({ idle .isr with sched := [1] } : State).tickDue = true := by
  decide +kernel

/-! ### Witnesses: the encoder and the expander -/

theorem test_witness_EncDropsLowNibbles :
    (0xF0 : Byte).toNat / 16 = (0xFF : Byte).toNat / 16
    ∧ (0x00 : Byte).toNat / 16 = (0x0F : Byte).toNat / 16
    ∧ (0x10 : Byte).toNat / 16 = (0x1F : Byte).toNat / 16 := by decide

/-- Vector X5 read back. -/
theorem test_witness_DecInvertsLevels :
    dec (levelString
      0b10110010110010110110110010010010010010010010010010010110010010110110010110010110)
      = some 0x147FECA ∧ (levelString 0).length = 80 := by decide +kernel

theorem test_witness_PhysicalFrameShape : (0x3FFFFFF : LogicalFrame) ≠ 0 := by decide

/-- The first and the last cell of the frame whose one bit is bit 25 (R101). -/
theorem test_witness_LevelsByCell :
    ([1, 2, 3, 76, 77, 78].map (lev 0x2000000)) = [false, false, true, false, true, true] := by
  decide

/-- The first and the last pin, instance 1. -/
theorem test_witness_ExpDrivesOneLane :
    Shaped (idle .isr) ∧ 1 < (idle .isr).cfg.nbuf ∧ pinMap (idle .isr).cfg 0 = some (0, 0)
      ∧ pinMap (idle .isr).cfg 7 = some (0, 7) :=
  ⟨Shaped.launch _ _, by decide, by decide, by decide⟩

theorem test_witness_ExpRaisesInvalidPin :
    0 < (idle .sync).cfg.nbuf ∧ pinMap (idle .sync).cfg 8 = none ∧ (idle .sync).fault = .none
      ∧ ({ idle .sync with fault := .invalidPin 9 } : State).fault ≠ .none := by decide

theorem test_witness_ExpOrderIndependent :
    1 < (idle .isr).cfg.nbuf ∧ pinMap (idle .isr).cfg 0 = some (0, 0)
      ∧ pinMap (idle .isr).cfg 1 = some (0, 1) ∧ ((0, 0) : Nat × Nat) ≠ (0, 1) := by decide

theorem test_witness_ExpLaterWins :
    ∃ t u v, Gives (.exp 0 3 0) State.reset t ∧ Gives (.exp 0 3 1) t u
      ∧ Gives (.exp 0 3 1) State.reset v := ⟨_, _, _, rfl, rfl, rfl⟩

/-! ### Witnesses: composition -/

/-- In row 1 strand 0 takes part and strand 1 does not; no strand is at bit 2. -/
theorem test_witness_ComposeBuildsRow :
    Shaped (idle .isr) ∧ (∃ st, StrandAt (idle .isr) 0 st 0 0 ∧ (idle .isr).active 1 0 st = true)
      ∧ (∃ st, StrandAt (idle .isr) 1 st 0 1 ∧ (idle .isr).active 1 1 st = false)
      ∧ NoStrandAt (idle .isr) 0 2 :=
  ⟨Shaped.launch _ _, ⟨_, first_strand .isr, rfl⟩,
    ⟨{ pin := 1, leds := [(1, 0)] }, ⟨rfl, rfl⟩, rfl⟩, no_strand_at_two .isr⟩

theorem test_witness_ComposeFrame : 0 ≠ (idle .isr).composing := by decide

/-- Vector C9: the first strand fails on its coordinate. -/
theorem test_witness_ComposeStopsAtFirstFault_coordinate :
    Shaped (State.launch badCoord [])
      ∧ badCoord.strands[0]? = some { pin := 0, leds := [(1, 0)] }
      ∧ (State.launch badCoord []).active 0 0 { pin := 0, leds := [(1, 0)] } = true
      ∧ ¬ StrandSound (State.launch badCoord []) 0 0 { pin := 0, leds := [(1, 0)] } :=
  ⟨Shaped.launch _ _, rfl, rfl, fun h => absurd (h rfl).1 (by decide)⟩

/-- Vector C10: the first strand is sound, the second fails on its pin. -/
theorem test_witness_ComposeStopsAtFirstFault_pin :
    Shaped (State.launch badPin [])
      ∧ badPin.strands[1]? = some { pin := 200, leds := [(0, 0)] }
      ∧ (State.launch badPin []).active 0 1 { pin := 200, leds := [(0, 0)] } = true
      ∧ (∀ j st', j < 1 → badPin.strands[j]? = some st' →
          StrandSound (State.launch badPin []) 0 j st')
      ∧ ¬ StrandSound (State.launch badPin []) 0 1 { pin := 200, leds := [(0, 0)] } := by
  refine ⟨Shaped.launch _ _, rfl, rfl, fun j st' hj hst => ?_,
    fun h => absurd (h rfl).2.2 (by decide)⟩
  obtain rfl : j = 0 := by omega
  cases hst
  exact fun _ => ⟨by decide, by decide, by decide⟩

/-! ### Witnesses: the transport -/

theorem test_witness_WmbMergesLatch :
    Shaped (idle .isr) ∧ 0 < (idle .isr).cfg.nPorts ∧ 255 < 2 ^ (idle .isr).cfg.portWidth :=
  ⟨Shaped.launch _ _, by decide, by decide⟩

theorem test_witness_WmbRepeats : ∃ t, Gives (.wmb 0 0x0C 0x0A) State.reset t := ⟨_, rfl⟩

theorem test_witness_SliceoutWritesDrivenPins :
    Shaped (flying 0 5) ∧ 1 < (flying 0 5).cfg.nbuf ∧ lane ((flying 0 5).drvWord 1 0) 0 = true :=
  ⟨(flying_meets (by decide)).1.toShaped, by decide, by decide +kernel⟩

/-- One lane driven, and it holds a frame. -/
theorem test_witness_TxsyncClocksOut :
    Shaped (driveLane 0 0 3 (levels 0x058018F) (idle .sync))
      ∧ (driveLane 0 0 3 (levels 0x058018F) (idle .sync)).cfg.mode = .sync
      ∧ Framed (driveLane 0 0 3 (levels 0x058018F) (idle .sync))
      ∧ lane ((driveLane 0 0 3 (levels 0x058018F) (idle .sync)).drvWord 0 0) 3 = true :=
  ⟨(Shaped.launch _ _).driveLane _ _ _ (levels_length _), rfl,
    (launch_meets .sync 0).2.1.driveLane (Shaped.launch _ _) (by decide) (by decide) (by decide) _,
    by decide +kernel⟩

/-- Idle; slices 0 and 79; the last slice with and without quiet ticks; both quiet ticks. -/
theorem test_witness_TickTransitions :
    (idle .isr).send = false ∧ Shaped (idle .isr) ∧
    ∀ c ∈ [(0, 0), (0, 79), (2, 79), (2, 80), (2, 81)],
      Shaped (flying c.1 c.2) ∧ (flying c.1 c.2).cfg.mode = .isr ∧ (flying c.1 c.2).send = true := by
  refine ⟨rfl, Shaped.launch _ _, fun c _ => ⟨?_, rfl, rfl⟩⟩
  exact ((Shaped.launch _ _).driveLane _ _ _ (levels_length _)).congr rfl rfl rfl rfl rfl

theorem test_witness_ArmedFrameTakesItsTicks :
    (flying 2 0).cfg.mode = .isr ∧ (flying 2 0).send = true ∧ (flying 2 0).cur = 0
      ∧ (flying 2 0).sched = [] ∧ (flying 2 0).tickFires = true ∧ (flying 2 0).cmds = [] :=
  ⟨rfl, rfl, rfl, rfl, rfl, rfl⟩

/-- Two states that differ in the composing instance, the intensity and the enable flags. -/
theorem test_witness_TickIgnoresComposingInstance :
    (∀ p τ, ({ flying 0 5 with drv := [[0xFF], [1]], gi := 0x55, en := [] } : State).drvWord 1 p
        = (flying 0 5).drvWord 1 p
      ∧ ({ flying 0 5 with drv := [[0xFF], [1]], gi := 0x55, en := [] } : State).bufWord 1 p τ
        = (flying 0 5).bufWord 1 p τ)
    ∧ (∃ t, Gives .tick (flying 0 5) t)
    ∧ ∃ t, Gives .tick { flying 0 5 with drv := [[0xFF], [1]], gi := 0x55, en := [] } t :=
  ⟨fun _ _ => ⟨rfl, rfl⟩, ⟨_, rfl⟩, ⟨_, rfl⟩⟩

theorem test_witness_HandoffWhenIdle :
    (idle .isr).cfg.mode = .isr ∧ (idle .isr).send = false := ⟨rfl, rfl⟩

/-- Armed; in mid-frame with ticks listed; in the last quiet tick; with the timer stopped, and listed
exactly the 75 ticks the frame still needs. -/
theorem test_witness_HandoffWaitsForFrame :
    ∀ s ∈ [flying 0 0, { flying 0 5 with sched := [3, 0, 100] }, flying 2 81,
        { flying 0 5 with sched := [70, 5], tickFires := false }],
      s.cfg.mode = .isr ∧ s.send = true ∧ s.cur < 80 + s.cfg.quietTicks
        ∧ (s.tickFires = true ∨ 80 + s.cfg.quietTicks - s.cur ≤ s.sched.sum) := by
  intro s hs
  simp only [List.mem_cons, List.not_mem_nil, or_false] at hs
  rcases hs with rfl | rfl | rfl | rfl
  exacts [⟨rfl, rfl, by decide, .inl rfl⟩, ⟨rfl, rfl, by decide, .inl rfl⟩,
    ⟨rfl, rfl, by decide, .inl rfl⟩, ⟨rfl, rfl, by decide, .inr (by decide)⟩]

/-- One tick too few: 74 of the 75 the frame still needs. -/
theorem test_witness_HandoffHeldForEver :
    ({ flying 0 5 with sched := [70, 4], tickFires := false } : State).send = true
      ∧ ({ flying 0 5 with sched := [70, 4], tickFires := false } : State).cur < 80
      ∧ ({ flying 0 5 with sched := [70, 4], tickFires := false } : State).sched.sum < 80 - 5 :=
  ⟨rfl, by decide, by decide⟩

theorem test_witness_SubmitHandsOver :
    (TransportInv (idle .sync) ∧ Live (idle .sync) ∧ (idle .sync).cfg.mode = .sync)
      ∧ TransportInv (flying 2 81) ∧ Live (flying 2 81) ∧ (flying 2 81).cfg.mode = .isr :=
  ⟨⟨(launch_meets .sync 0).1.toTransportInv, Or.inl rfl, rfl⟩,
    (flying_meets (by decide)).1.toTransportInv, Or.inr rfl, rfl⟩

theorem test_witness_StateObjectIsTransport :
    (idle .isr).isIdle = true ∧ (idle .isr).sched = [] ∧ (flying 0 79).isIdle = false :=
  ⟨rfl, rfl, rfl⟩

theorem test_witness_TickCommutesWithCompose :
    (∃ t, Gives (.compose 0) (flying 0 5) t) ∧ ∃ u, Gives .tick (flying 0 5) u :=
  ⟨⟨_, rfl⟩, ⟨_, rfl⟩⟩

/-! ### Witnesses: the host commands -/

/-- In either mode, idle and with a frame in flight; an enabled strand; a pin of no strand. -/
theorem test_witness_RenderWaveform :
    (∀ m, Inv (idle m) ∧ (∃ st, StrandAt (idle m) 0 st 0 0) ∧ (idle m).enabled 0 = true
      ∧ NoStrandAt (idle m) 0 2)
    ∧ Inv (flying 2 81) ∧ Live (flying 2 81) ∧ (flying 2 81).fault = .none
    ∧ portsWellFormed (flying 2 81).cfg = true ∧ configWellFormed (flying 2 81).cfg = true :=
  ⟨fun m => ⟨(launch_meets m 0).1, ⟨_, first_strand m⟩, rfl, no_strand_at_two m⟩,
    (flying_meets (by decide)).1, Or.inr rfl, rfl, by decide, by decide⟩

/-- One strand disabled, one enabled on a recognised pin. -/
theorem test_witness_SetintBroadcasts :
    Inv { idle .isr with en := [false, true] }
      ∧ ({ idle .isr with en := [false, true] } : State).enabled 0 = false
      ∧ ({ idle .isr with en := [false, true] } : State).enabled 1 = true
      ∧ (twoStrands .isr 0).strands.all
          (fun st => (pinMap (twoStrands .isr 0) st.pin).isSome) = true := by
  have h := (launch_meets .isr 0).1
  exact ⟨{ h with
    toShaped := { h.toShaped with enCount := rfl }
    toTransportInv := h.toTransportInv.congr rfl rfl rfl rfl }, rfl, rfl, by decide⟩

theorem test_witness_SendOneDrivesOnePin :
    Inv (flying 0 79) ∧ Live (flying 0 79) ∧ (flying 0 79).fault = .none
      ∧ pinMap (flying 0 79).cfg 7 = some (0, 7) :=
  ⟨(flying_meets (by decide)).1, Or.inr rfl, rfl, by decide⟩

theorem test_witness_SendOneInvalidPin :
    (idle .isr).fault = .none ∧ pinMap (idle .isr).cfg 8 = none
      ∧ pinMap (idle .isr).cfg 0xFF = none := by decide

theorem test_witness_SetintInvalidPin :
    (State.launch badPin []).fault = .none
      ∧ badPin.strands[1]? = some { pin := 200, leds := [(0, 0)] }
      ∧ (State.launch badPin []).enabled 1 = true ∧ pinMap badPin 200 = none
      ∧ ∀ j st', j < 1 → badPin.strands[j]? = some st' → (pinMap badPin st'.pin).isSome = true := by
  refine ⟨rfl, rfl, rfl, by decide, fun j st' hj hst => ?_⟩
  obtain rfl : j = 0 := by omega
  cases hst
  decide

theorem test_witness_RenderFaultTransmitsNothing :
    (State.launch badPin []).fault = .none
      ∧ badPin.strands[1]? = some { pin := 200, leds := [(0, 0)] }
      ∧ (State.launch badPin []).active 0 1 { pin := 200, leds := [(0, 0)] } = true
      ∧ ¬ StrandSound (State.launch badPin []) 0 1 { pin := 200, leds := [(0, 0)] } :=
  ⟨rfl, rfl, rfl, fun h => absurd (h rfl).2.2 (by decide)⟩

/-- Every strand disabled; and, in either mode, row 1 with the strand that has an LED there disabled. -/
theorem test_witness_EmptyRowsAreTransmitted :
    (Shaped { idle .sync with en := [false, false] }
      ∧ ∀ i, ({ idle .sync with en := [false, false] } : State).enabled i = false)
    ∧ ∀ m, Shaped { idle m with en := [false, true] } ∧ TransportInv { idle m with en := [false, true] }
      ∧ Live { idle m with en := [false, true] }
      ∧ ∀ i st, (twoStrands m 0).strands[i]? = some st →
          ({ idle m with en := [false, true] } : State).active 1 i st = false := by
  refine ⟨⟨{ (launch_meets .sync 0).1.toShaped with enCount := rfl }, fun i => ?_⟩, fun m =>
    ⟨{ (launch_meets m 0).1.toShaped with enCount := rfl },
      (launch_meets m 0).1.toTransportInv.congr rfl rfl rfl rfl, Or.inr rfl, fun i st hi => ?_⟩⟩
  · match i with
    | 0 => rfl
    | 1 => rfl
    | _ + 2 => rfl
  · match i, hi with
    | 0, hi => cases hi; rfl
    | 1, hi => cases hi; rfl
    | _ + 2, hi => cases hi

/-- Row 0 is sound and row 1 is not; and all rows of a well-formed configuration. -/
theorem test_witness_RenderHandsOverRowByRow :
    (TransportInv (State.launch lateFault []) ∧ Live (State.launch lateFault [])
      ∧ 1 ≤ maxlen lateFault
      ∧ (∀ row, row < 1 → ∀ i st, lateFault.strands[i]? = some st →
          StrandSound (State.launch lateFault []) row i st)
      ∧ lateFault.strands[0]? = some { pin := 0, leds := [(0, 0), (2, 0)] }
      ∧ ¬ StrandSound (State.launch lateFault []) 1 0 { pin := 0, leds := [(0, 0), (2, 0)] })
    ∧ ∀ row, row < 2 → ∀ i st, (twoStrands .sync 0).strands[i]? = some st →
        StrandSound (idle .sync) row i st := by
  refine ⟨⟨⟨fun _ => rfl, by decide, fun h => by cases h⟩, Or.inr rfl, by decide,
    fun row hr i st hi => ?_, rfl, fun h => absurd (h rfl).1 (by decide)⟩, fun row hr i st hi => ?_⟩
  · obtain rfl : row = 0 := by omega
    match i, hi with
    | 0, hi => cases hi; exact fun _ => by decide
    | 1, hi => cases hi; exact fun _ => by decide
    | _ + 2, hi => cases hi
  · match row, hr, i, hi with
    | 0, _, 0, hi => cases hi; exact fun _ => by decide
    | 0, _, 1, hi => cases hi; exact fun _ => by decide
    | 1, _, 0, hi => cases hi; exact fun _ => by decide
    | 1, _, 1, hi => cases hi; exact fun h => by cases h
    | 0, _, _ + 2, hi => cases hi
    | 1, _, _ + 2, hi => cases hi

/-- The last pixel of the image, and the first indices out of range. -/
theorem test_witness_WrpixWritesOnePixel :
    imageWf (idle .isr).img ∧ (idle .isr).fault = .none
      ∧ ((1 : Byte).toNat < (idle .isr).cfg.imgW ∧ (1 : Byte).toNat < (idle .isr).cfg.imgH)
      ∧ (idle .isr).cfg.imgW ≤ (2 : Byte).toNat ∧ (idle .isr).cfg.imgH ≤ (2 : Byte).toNat := by
  decide

theorem test_witness_WrenSetsOneFlag :
    (idle .isr).fault = .none ∧ (idle .isr).en.length = (idle .isr).cfg.strandCount
      ∧ (1 : Byte).toNat < (idle .isr).cfg.strandCount
      ∧ (idle .isr).cfg.strandCount ≤ (2 : Byte).toNat := by decide

theorem test_witness_FaultedRefusesCommands :
    ({ idle .isr with fault := .badCoord 0 } : State).fault ≠ .none
      ∧ (Instr.wren 0 true).isHost = true := by decide

theorem test_witness_OtherLanesKeepTheirLevels :
    Shaped (idle .isr) ∧ NoStrandAt (idle .isr) 0 2 ∧ pinMap (idle .isr).cfg 7 ≠ some (0, 2)
      ∧ (∃ t, Gives .render (idle .isr) t) ∧ (∃ t, Gives (.compose 1) (idle .isr) t)
      ∧ (∃ t, Gives (.setint 9) (idle .isr) t) ∧ (∃ t, Gives (.send1 0 7 1 2 3 4) (idle .isr) t)
      ∧ (∃ t, Gives .tick (idle .isr) t) ∧ (∀ k, lane ((idle .isr).drvWord k 0) 2 = false)
      ∧ ¬ NamesPin (idle .isr) .render 0 2 ∧ ¬ NamesPin (idle .isr) .tick 0 2
      ∧ ¬ NamesPin (idle .isr) (.send1 0 7 1 2 3 4) 0 2 := by
  refine ⟨Shaped.launch _ _, no_strand_at_two .isr, by decide, ⟨_, rfl⟩, ⟨_, rfl⟩, ⟨_, rfl⟩, ⟨_, rfl⟩,
    ⟨_, rfl⟩, fun k => ?_, ?_, ?_, ?_⟩
  · rw [show (idle .isr).drvWord k 0 = 0 from drvWord_launch ..]; rfl
  · rintro (⟨_, _, _, _, _, _, h, -⟩ | ⟨_, _, _, h, -⟩ | ⟨_, _, h, -⟩) <;> cases h
  · rintro (⟨_, _, _, _, _, _, h, -⟩ | ⟨_, _, _, h, -⟩ | ⟨_, _, h, -⟩) <;> cases h
  · rintro (⟨_, _, _, _, _, _, h, h'⟩ | ⟨_, _, _, h, -⟩ | ⟨_, _, h, -⟩) <;> cases h
    exact absurd h' (by decide)

/-! ### Witnesses: the whole machine -/

/-- A launch image with a pixel in its last place. -/
theorem test_witness_InvAtReset :
    imageWf [((1, 1), { r := 1, g := 2, b := 3 })]
      ∧ ImageInBounds (State.launch (twoStrands .isr 0) [((1, 1), { r := 1, g := 2, b := 3 })]) := by
  refine ⟨by decide, ?_⟩
  intro cell hc
  rw [List.mem_singleton.1 hc]
  decide

theorem test_witness_ResetValues :
    ∃ s, s = State.launch twoPorts [] ∧ (State.launch twoPorts []).gi = 0x33 := ⟨_, rfl, rfl⟩

theorem test_witness_ResetWaitsForCommand :
    (twoStrands .sync 0).mode = .sync ∧ (twoStrands .isr 0).mode = .isr := ⟨rfl, rfl⟩

theorem test_witness_InvKeptByStep :
    Inv (flying 0 79) ∧ ∃ t, step (flying 0 79) = .next t :=
  ⟨(flying_meets (by decide)).1, _, rfl⟩

theorem test_witness_DrivenLanesStayFrames :
    Shaped (flying 0 5) ∧ Framed (flying 0 5) ∧ ∃ t, Gives (.exp 0 200 1) (flying 0 5) t :=
  ⟨(flying_meets (by decide)).1.toShaped, (flying_meets (by decide)).2, _, rfl⟩

/-- With the first slice of a frame out, and idle, where the next state is idle too. -/
theorem test_witness_WireFollowsTransport :
    (Inv (tickBody (flying 0 0)) ∧ Framed (tickBody (flying 0 0)) ∧ WireInv (tickBody (flying 0 0))
      ∧ ∃ t, step (tickBody (flying 0 0)) = .next t)
    ∧ Inv (idle .isr) ∧ Framed (idle .isr) ∧ WireInv (idle .isr)
      ∧ ∃ t, step (idle .isr) = .next t ∧ t.isIdle = true := by
  have h := flying_meets (q := 0) (cur := 0) (by decide)
  have h0 := launch_meets .isr 0
  exact ⟨⟨h.1.tickBody rfl, h.2.congr (by simp) (by simp), lit_meets, _, rfl⟩,
    h0.1, h0.2.1, h0.2.2, _, rfl, rfl⟩

theorem test_witness_HistoryExplainsLatches :
    ({ State.reset with port := [0x05], history := [.wmb 0 0x0F 0x05, .idleTick] } : State).port
        = replay Config.default [.wmb 0 0x0F 0x05, .idleTick]
      ∧ ∃ t, Gives (.wmb 0 1 0)
        { State.reset with port := [0x05], history := [.wmb 0 0x0F 0x05, .idleTick] } t :=
  ⟨by decide, _, rfl⟩

theorem test_witness_FaultIsSticky :
    ({ idle .isr with fault := .badCoord 1 } : State).fault ≠ .none
      ∧ ∃ t, Gives (.exp 0 200 0) { idle .isr with fault := .badCoord 1 } t :=
  ⟨by decide, _, rfl⟩

theorem test_witness_WellFormedNeverFaults :
    configWellFormed (idle .isr).cfg = true ∧ (idle .isr).fault = .none
      ∧ (pinMap (idle .isr).cfg 7).isSome = true ∧ (Instr.send1 0 7 1 2 3 4).isHost = true
      ∧ ∃ t, Gives (.send1 0 7 1 2 3 4) (idle .isr) t :=
  ⟨by decide, rfl, by decide, rfl, _, rfl⟩

/-- The first instance and port that do not exist, in either mode. -/
theorem test_witness_AbsentThingsStopByName :
    (idle .sync).cfg.nbuf ≤ 1 ∧ (idle .isr).cfg.nbuf ≤ 2 ∧ 1 < (idle .isr).cfg.nbuf
      ∧ (idle .isr).cfg.nPorts ≤ 1 ∧ (idle .isr).cfg.mode = .isr ∧ (idle .sync).cfg.mode = .sync := by
  decide

/-! ### Witnesses: the two levels -/

/-- A tick, and a command that is held for ever. -/
theorem test_witness_StepsAreRunsOfActions :
    (Shaped (idle .isr) ∧ (idle .isr).hung = false ∧ ∃ t, step (idle .isr) = .next t ∧ t.hung = false)
    ∧ Shaped { flying 0 5 with cmds := [0x02000000000042], sched := [0], tickFires := false }
    ∧ ∃ t, step { flying 0 5 with cmds := [0x02000000000042], sched := [0], tickFires := false }
        = .next t ∧ t.hung = true :=
  ⟨⟨Shaped.launch _ _, rfl, _, rfl, rfl⟩,
    (flying_meets (q := 0) (cur := 5) (by decide)).1.toShaped.congr rfl rfl rfl rfl rfl, _, rfl,
    by decide +kernel⟩

/-- `WRPIX` in four actions, with a tick after each. -/
theorem test_witness_RunsOfActionsAreSteps :
    Shaped { idle .isr with cmds := [0x04000100FF0000] }
    ∧ (agentRun [.mainPath, .tick, .mainPath, .tick, .mainPath, .tick, .mainPath, .tick]
        { state := { idle .isr with cmds := [0x04000100FF0000] }, todo := [] }).todo = [] :=
  ⟨(launch_meets .isr 0).1.toShaped.congr rfl rfl rfl rfl rfl, by decide +kernel⟩

end Sys2Proof.Tests
end

/-! ### Proofs: the scope's invariants (00_scope.md R10, R15, R17, R18) -/

section
namespace Sys2Proof.Machine

/-! #### A step always answers -/

/-- A command word is answered: by the decoded host command or by a refusal (R79, R120). -/
theorem runWord_answers (w : CommandWord) (s : State) : ∃ t, runWord w s = .next t := by
  unfold runWord
  cases hd : decode w with
  | command i => exact exec_of_isHost (isHost_of_decode hd) s
  | unknownCommand op => exact ⟨_, rfl⟩

/-- The kinds of step of `step_cases`, with the taking of a command as one kind. -/
theorem step_kinds (s : State) :
    (s.cfg.mode = .isr ∧ ∃ l, step s = .next (setSched l (tickBody s))) ∨
    ((s.hung = true ∨ s.cmds = []) ∧ step s = .next (passPlace s)) ∨
    (∃ w rest, s.cmds = w :: rest ∧ step s = runWord w (passPlace (setCmds rest s))) := by
  rcases step_cases s with ⟨-, hm, h⟩ | ⟨-, hw, h⟩ | ⟨w, rest, -, -, hc, h⟩
  · obtain ⟨l, hl⟩ := takeTick_eq s
    exact .inl ⟨hm, l, by rw [h, hl, tickBody_setSched]⟩
  · exact .inr (.inl ⟨hw, h⟩)
  · refine .inr (.inr ⟨w, rest, hc, ?_⟩)
    unfold runWord
    rcases h with ⟨i, hd, h⟩ | ⟨op, hd, h⟩ <;> rw [h, hd]

/-- Settles O7, by the kinds of step: a tick and a wait answer at once, a command word always. -/
theorem stepAlwaysAnswers : Obligations.StepAlwaysAnswers := by
  intro s
  rcases step_kinds s with ⟨-, l, h⟩ | ⟨-, h⟩ | ⟨w, rest, -, h⟩
  · exact ⟨_, h⟩
  · exact ⟨_, h⟩
  · rw [h]; exact runWord_answers w _

/-! #### The history explains the latches -/

/-- The latches are what the history produces from the latches of reset (R15). -/
def LatchesReplay (s : State) : Prop := s.port = replay s.cfg s.history

/-- A history one event longer produces the latches the event makes of those before it. -/
theorem replay_concat (c : Config) (h : List Event) (e : Event) :
    replay c (h ++ [e]) = applyEvent c.portWidth (replay c h) e := by
  simp [replay, List.foldl_append]

/-- A change of the latches that is recorded as the event that makes it keeps them explained. -/
theorem LatchesReplay.event {u v : State} (hu : LatchesReplay u) (e : Event) (hc : v.cfg = u.cfg)
    (hh : v.history = u.history ++ [e]) (hp : v.port = applyEvent u.cfg.portWidth u.port e) :
    LatchesReplay v := by
  unfold LatchesReplay at *
  rw [hp, hh, hc, replay_concat, ← hu]

/-- `WMB` alone writes a latch, and it records the event that says so; every other action leaves both
the latches and what the history says of them (R33, R130). -/
theorem latchesReplay_kept : KeptByActions LatchesReplay where
  answer _ _ h := h
  gi _ _ h := h
  en _ _ h := h
  img _ _ h := h
  lf _ _ h := h
  row _ _ h := h
  sidx _ _ h := h
  draw _ h := h
  fault _ _ h := h
  clear _ _ h := h
  drive _ _ _ _ _ h := h
  write p m v _ h := h.event (.wmb p m v) rfl rfl rfl
  idle _ h := h.event .idleTick rfl rfl rfl
  quiet _ h := h.event .quietTick rfl rfl rfl
  act _ _ h := h
  send _ _ h := h
  cur _ _ h := h
  sched _ _ h := h
  hung _ _ h := h

/-- Settles O54: every elementary action keeps the latches explained, so every operation does. -/
theorem historyExplainsLatches : Obligations.HistoryExplainsLatches :=
  fun _ _ _ hs he => latchesReplay_kept.exec hs he

/-! #### A well-formed configuration never faults -/

/-- A loop over strands none of whose plans fails leaves `FAULT` alone. -/
theorem forStrands_fault {cn : Counter} {k : Nat} {plan : Nat → Strand → LogicalFrame → StrandPlan}
    {l : List Strand}
    (hok : ∀ i st, l[i]? = some st → ∀ lf f lf', plan i st lf ≠ .fail f lf') (u : State) :
    (forStrands (planBody cn k plan) 0 l u).state.fault = u.fault := by
  refine forStrands_keeps (P := fun v => v.fault = u.fault) 0 l (fun i st v hi hv => ?_) rfl
  rw [Nat.zero_add]
  obtain ⟨n, hn⟩ := cn.mark_eq i v
  unfold planBody
  rw [hn]
  cases hp : plan i st v.lf with
  | skip => exact hv
  | drive p b lf => exact hv
  | fail f lf => exact absurd hp (hok i st hi _ f lf)

/-- A row under a well-formed configuration raises no fault (R10, R152, R153). -/
theorem compose_fault {s : State} (hc : configWellFormed s.cfg = true) (row : Nat) :
    (compose row s).state.fault = s.fault := by
  have hright := composePlan_right (s := s) (row := row) fun i st hi ha => by
    obtain ⟨⟨p, b, hpb⟩, hr⟩ := strand_sound hc hi
    simp only [State.active, Bool.and_eq_true, decide_eq_true_eq] at ha
    exact ⟨(hr row ha.2).1, (hr row ha.2).2, by simp [hpb]⟩
  rw [compose_eq]
  exact Res.andThen_keeps (P := fun v => v.fault = s.fault)
    (forStrands_fault (fun i st hi lf => (hright lf).not_fail i st hi) _) fun _ h => h

/-- A broadcast under a well-formed configuration raises no fault (R10, R152). -/
theorem composeBroadcast_fault {s : State} (hc : configWellFormed s.cfg = true) (value : Byte) :
    (composeBroadcast value s).state.fault = s.fault := by
  have hright := broadcastPlan_right (s := s) fun i st hi _ => by
    obtain ⟨⟨p, b, hpb⟩, -⟩ := strand_sound hc hi
    simp [hpb]
  rw [composeBroadcast_eq]
  exact forStrands_fault (fun i st hi lf => (hright lf).not_fail i st hi) _

/-- `EXP` on a recognised pin raises no fault (R103). -/
theorem expand_fault {s : State} {pin : Byte} (hp : (pinMap s.cfg pin).isSome = true) (k : Nat)
    (lf : LogicalFrame) : (expand k pin lf s).state.fault = s.fault := by
  obtain ⟨⟨p, b⟩, hpb⟩ := Option.isSome_iff_exists.1 hp
  rw [expand_of_some hpb]
  rfl

/-- A single frame to a recognised pin raises no fault (R116, R152). -/
theorem composeSingle_fault {s : State} {pin : Byte} (hp : (pinMap s.cfg pin).isSome = true)
    (a r g b v : Byte) : (composeSingle a pin r g b v s).state.fault = s.fault :=
  expand_fault (s := encodeFrame a.toNat r g b v (clearDrv s.composing s)) hp _ _

/-- A hand-over keeps `FAULT`. -/
theorem submit_keeps_fault {f : FaultRecord} (u : State) (h : u.fault = f) :
    (submit u).state.fault = f := (submit_same u).fault.trans h

/-- A render under a well-formed configuration raises no fault, however often it hands over. -/
theorem render_fault {s : State} (hc : configWellFormed s.cfg = true) :
    (render s).state.fault = s.fault := by
  refine (renderRows_keeps (P := fun u => u.cfg = s.cfg ∧ u.fault = s.fault) (fun _ h => h) _ _
    (fun _ _ _ => renderRow_keeps (P := fun u => u.cfg = s.cfg ∧ u.fault = s.fault) _
      (fun _ h => h) (fun u h => ?_) fun u h => ?_) ⟨rfl, rfl⟩).2
  · exact ⟨(compose_cases _ u).2.cfg.trans h.1,
      (compose_fault (by rw [h.1]; exact hc) _).trans h.2⟩
  · exact ⟨(submit_same u).cfg.trans h.1, submit_keeps_fault u h.2⟩

/-- A host command whose body leaves `FAULT` alone raises no fault. -/
theorem runCommand_fault {body : State → Res} {s : State} (h : s.fault = .none)
    (hb : (body s).state.fault = s.fault) : (runCommand body s).fault = .none :=
  runCommand_keeps (P := fun u => u.fault = .none) (fun _ _ hu => hu) h fun _ => hb.trans h

/-- A pixel write never touches `FAULT` (R118). -/
theorem writePixel_fault (x y : Nat) (px : Pixel) (s : State) :
    (writePixel x y px s).fault = s.fault := by unfold writePixel; split <;> rfl

/-- The write of an enable flag never touches `FAULT` (R119). -/
theorem writeEnable_fault (i : Nat) (v : Bool) (s : State) :
    (writeEnable i v s).fault = s.fault := by unfold writeEnable; split <;> rfl

/-- Settles O56, command by command: no strand of a well-formed configuration fails a composition, a
hand-over raises nothing whatever ticks fall in it, and the writes of the inputs never fault. -/
theorem wellFormedNeverFaults : Obligations.WellFormedNeverFaults := by
  intro i s t hc hf hi hpin he
  cases i with
  | render => cases he; exact runCommand_fault hf (render_fault hc)
  | setint v =>
    cases he
    exact runCommand_fault hf (Res.andThen_keeps (P := fun u => u.fault = s.fault)
      (composeBroadcast_fault hc v) submit_keeps_fault)
  | send1 a pin r g b v =>
    cases he
    exact runCommand_fault hf (Res.andThen_keeps (P := fun u => u.fault = s.fault)
      (composeSingle_fault (hpin _ _ _ _ _ _ rfl) a r g b v) submit_keeps_fault)
  | wrpix x y r g b =>
    cases he
    split
    · exact hf
    · exact (writePixel_fault ..).trans hf
  | wren n v =>
    cases he
    split
    · exact hf
    · exact (writeEnable_fault ..).trans hf
  | enc => cases hi
  | exp => cases hi
  | compose => cases hi
  | wmb => cases hi
  | sliceout => cases hi
  | txsync => cases hi
  | handoff => cases hi
  | tick => cases hi
  | submit => cases hi

/-! #### The two levels -/

/-- The state a run of the agents is in where a step has led to `t`: the run looks at no schedule, and
spins where the step says that the main path is held (entries 5, 7). -/
theorem agentState_eq (l : List Nat) {t : State} (h : t.hung = false) :
    setSched l t = { t with sched := l, hung := false } := by
  ext1 <;> first | rfl | exact h

/-- The main path takes a word of the command stream as its first move. -/
theorem agentRun_takeCommand {s : State} {w : CommandWord} {rest : List CommandWord}
    (hc : s.cmds = w :: rest) (as : List Agent) :
    agentRun (.mainPath :: as) ⟨s, []⟩ = agentRun as ⟨setCmds rest s, wordActions w⟩ := by
  have : takeCommand s = ⟨setCmds rest s, wordActions w⟩ := by
    unfold takeCommand
    rw [hc]
    rfl
  exact congrArg (agentRun as) this

/-- Settles O59, by the kinds of step: a tick is one move of the tick, a wait is no move, and a command
is taken and then walked action by action (`Walk.word`). -/
theorem stepsAreRunsOfActions : Obligations.StepsAreRunsOfActions := by
  intro s t hs hh he
  rcases step_kinds s with ⟨hm, l, h⟩ | ⟨-, h⟩ | ⟨w, rest, hc, h⟩ <;> rw [h] at he
  · cases he
    refine ⟨[.tick], _, agentRun_ticks hm 1 [], ?_, fun _ => rfl, fun ht => ?_⟩
    · exact (tickBody_setSched s.sched s).trans (agentState_eq s.sched (by simpa using hh))
    · simp [hh] at ht
  · cases he
    refine ⟨[], _, rfl, agentState_eq s.sched hh, fun _ => rfl, fun ht => ?_⟩
    simp [hh] at ht
  · have hs' : Shaped (passPlace (setCmds rest s)) := hs.congr rfl rfl rfl rfl rfl
    obtain ⟨t', ht', hd⟩ := Walk.word agentWalk_hands hs' w
    rw [ht'] at he
    cases he
    rcases hd with hd | ⟨hk, as, hrun⟩ | ⟨hung, hsend, hrun⟩
    · exact hd.elim
    · have hung : t.hung = false := hk.trans hh
      refine ⟨.mainPath :: as, _, (agentRun_takeCommand hc as).trans (hrun s.sched),
        agentState_eq s.sched hung, fun _ => rfl, fun ht => ?_⟩
      rw [hung] at ht
      cases ht
    · obtain ⟨as, todo, hrun⟩ := hrun hh
      refine ⟨.mainPath :: as, _, (agentRun_takeCommand hc as).trans (hrun s.sched), rfl,
        fun ht => ?_, fun _ => ⟨hsend, rfl⟩⟩
      rw [hung] at ht
      cases ht

/-- The ticks put off to the place before the next command are steps there; in `SYNC` mode there are
none. -/
theorem coreRun_delayed {u : State} {d : Nat} (hd : u.cfg.mode = .sync → d = 0) :
    core.run d (setSched [d] u) = .next (setSched [0] (ticks d u)) := by
  cases hm : u.cfg.mode with
  | isr => exact coreRun_ticks hm d []
  | sync => rw [hd hm]; rfl

/-- Settles O60: ticks can be put off to the places of R137, so a run of the agents ends where a run of
`step` ends (`agentRun_followed`), but for ticks that the steps then take before the next command. -/
theorem runsOfActionsAreSteps : Obligations.RunsOfActionsAreSteps := by
  intro s t agents hs hh he
  have hf := agentRun_followed hs hh agents
  rw [he] at hf
  rcases hf with ⟨n, l, u, d, hm, hd, -, -, hrun⟩ | ⟨-, hne⟩
  · cases hm
    exact ⟨n + d, l ++ [d], [0], (run_add core n d (hrun [d])).trans (coreRun_delayed hd)⟩
  · exact absurd rfl hne

end Sys2Proof.Machine
end

/-! ### Proofs: the state and its invariants (10_state.md) -/

section
namespace Sys2Proof.Machine

/-! #### What the parts of a host command keep -/

/-- The passes of a render keep what each part of a pass keeps; the row counter stays in its loop. -/
theorem render_keeps {P : State → Prop}
    (hset : ∀ row u, row ≤ maxlen u.cfg → P u → P (setRow row u))
    (hleave : ∀ u, P u → P (leaveRow u)) (hcompose : ∀ row u, P u → P (compose row u).state)
    (hsubmit : ∀ u, P u → P (submit u).state) {s : State} (h : P s) : P (render s).state := by
  refine (renderRows_keeps (P := fun u => u.cfg = s.cfg ∧ P u) (fun u hu => ⟨hu.1, hleave u hu.2⟩)
    _ _ (fun j u hj hu => ?_) ⟨rfl, h⟩).2
  have hrow : P (setRow (0 + j) u) := hset _ u (by rw [hu.1]; omega) hu.2
  refine Res.andThen_keeps (P := fun u => u.cfg = s.cfg ∧ P u)
    ⟨(compose_cases _ _).2.cfg.trans hu.1, hcompose _ _ hrow⟩ fun v hv => ?_
  exact ⟨(submit_same v).cfg.trans hv.1, hsubmit v hv.2⟩

/-- The parts of the host command `i` keep `P`: the writes of the inputs, the counters of a render, the
three kinds of composition, the hand-over, the answer. A single frame is asked about for `i` only. -/
structure KeptByParts (i : Instr) (P : State → Prop) : Prop where
  answer    : ∀ a u, P u → P (giveAnswer a u)
  pixel     : ∀ x y px u, x < u.cfg.imgW → y < u.cfg.imgH → P u →
    P (setImg (imageWrite u.img x y px) u)
  enable    : ∀ n v u, P u → P (setEn (u.en.set n v) u)
  row       : ∀ n u, n ≤ maxlen u.cfg → P u → P (setRow n u)
  leave     : ∀ u, P u → P (leaveRow u)
  compose   : ∀ row u, P u → P (compose row u).state
  broadcast : ∀ v u, P u → P (composeBroadcast v u).state
  single    : ∀ a pin r g b v u, i = .send1 a pin r g b v → P u →
    P (composeSingle a pin r g b v u).state
  submit    : ∀ u, P u → P (submit u).state

/-- A host command keeps what its parts keep. -/
theorem KeptByParts.exec {P : State → Prop} {i : Instr} (h : KeptByParts i P) (hi : i.isHost = true)
    {s t : State} (hs : P s) (he : exec i s = .next t) : P t := by
  cases i with
  | render =>
    cases he
    exact runCommand_keeps (P := P) h.answer hs fun _ =>
      render_keeps h.row h.leave h.compose h.submit hs
  | setint v =>
    cases he
    exact runCommand_keeps (P := P) h.answer hs fun _ =>
      Res.andThen_keeps (P := P) (h.broadcast v s hs) h.submit
  | send1 a pin r g b v =>
    cases he
    exact runCommand_keeps (P := P) h.answer hs fun _ =>
      Res.andThen_keeps (P := P) (h.single a pin r g b v s rfl hs) h.submit
  | wrpix =>
    cases he
    split
    · exact h.answer _ _ hs
    · unfold writePixel
      split
      · next hr => exact h.answer _ _ (h.pixel _ _ _ _ hr.1 hr.2 hs)
      · exact h.answer _ _ hs
  | wren =>
    cases he
    split
    · exact h.answer _ _ hs
    · unfold writeEnable
      split
      · exact h.answer _ _ (h.enable _ _ _ hs)
      · exact h.answer _ _ hs
  | enc | exp | compose | wmb | sliceout | txsync | handoff | tick | submit => cases hi

/-- No tick is due while the main path is held for ever. -/
theorem not_hung_of_tickDue {s : State} (hw : HeldWaits s) (h : s.tickDue = true) :
    s.hung = false := by
  cases hh : s.hung with
  | false => rfl
  | true =>
    obtain ⟨-, hl, hf⟩ := hw hh
    simp [State.tickDue, hl, hf] at h

/-- A step keeps what the parts of every host command keep, ticks while the main path is not held, and
the taking of ticks and commands from their lists. -/
theorem step_keeps {P : State → Prop} (hparts : ∀ i, KeptByParts i P)
    (htick : ∀ u, u.hung = false → P u → P (tickBody u))
    (hsched : ∀ l u, (u.hung = true → l = []) → P u → P (setSched l u))
    (hcmds : ∀ l u, P u → P (setCmds l u))
    {s t : State} (hw : HeldWaits s) (h : P s) (he : step s = .next t) : P t := by
  rcases step_cases s with ⟨hd, -, e⟩ | ⟨-, -, e⟩ | ⟨w, rest, -, hh, -, e⟩
  · have hh := not_hung_of_tickDue hw hd
    obtain ⟨l, hl⟩ := takeTick_eq s
    rw [e, hl] at he
    cases he
    exact htick _ hh (hsched l s (by simp [hh]) h)
  · rw [e] at he
    cases he
    exact hsched _ s (fun hh => by simp [(hw hh).2.1]) h
  · have hp : P (passPlace (setCmds rest s)) :=
      hsched _ _ (by simp [hh]) (hcmds rest s h)
    rcases e with ⟨i, hd, e⟩ | ⟨op, -, e⟩ <;> rw [e] at he
    · exact (hparts i).exec (isHost_of_decode hd) hp he
    · cases he
      exact (hparts .render).answer _ _ hp

/-! #### The invariants -/

/-- The write of an enable flag keeps the shape. -/
theorem Shaped.setEnable {u : State} (h : Shaped u) (n : Nat) (v : Bool) :
    Shaped (setEn (u.en.set n v) u) :=
  { h with enCount := by simpa using h.enCount }

/-- The write of an enable flag keeps the invariants. -/
theorem Inv.setEnable {u : State} (h : Inv u) (n : Nat) (v : Bool) :
    Inv (setEn (u.en.set n v) u) :=
  h.congr (h.toShaped.setEnable n v) (h.toTransportInv.congr rfl rfl rfl rfl) h.hungWaits
    rfl rfl rfl rfl rfl rfl

/-- The write of a pixel inside the image keeps the invariants (R118). -/
theorem Inv.setPixel {u : State} (h : Inv u) {x y : Nat} (hx : x < u.cfg.imgW)
    (hy : y < u.cfg.imgH) (px : Pixel) : Inv (setImg (imageWrite u.img x y px) u) :=
  { h with
    toShaped := h.toShaped.congr rfl rfl rfl rfl rfl
    toTransportInv := h.toTransportInv.congr rfl rfl rfl rfl
    imgCanonical := imageWrite_wf h.imgCanonical x y px
    imgInBounds := fun cell hc => by
      rcases mem_imageWrite hc with rfl | hc
      · exact ⟨hx, hy⟩
      · exact h.imgInBounds cell hc }

/-- The parts of every host command keep the invariants. -/
theorem inv_parts (i : Instr) : KeptByParts i Inv where
  answer a _ h := h.answer a
  pixel _ _ px _ hx hy h := h.setPixel hx hy px
  enable n v _ h := h.setEnable n v
  row _ _ hn h := h.setRow hn
  leave _ h := h.leaveRow
  compose row _ h := h.compose row
  broadcast v _ h := h.composeBroadcast v
  single a pin r g b v _ _ h := h.composeSingle a pin r g b v
  submit _ h := h.submit

/-- Settles O51: the invariants are kept by a tick, which comes only while the main path is not held,
and by every part of a host command. -/
theorem invKeptByStep : Obligations.InvKeptByStep := fun _ _ h he =>
  step_keeps inv_parts (fun _ hh hu => hu.tickBody hh) (fun _ _ hl hu => hu.setSched hl)
    (fun l _ hu => hu.setCmds l) h.hungWaits h he

/-! #### The latches follow the transport -/

/-- The invariants under which every latch is at the level the transport has brought it to. -/
structure Wired (u : State) : Prop where
  inv    : Inv u
  framed : Framed u
  wire   : WireInv u

/-- A change of nothing the transport reads or drives. -/
theorem Wired.congr {u v : State} (h : Wired u) (hi : Inv v) (hd : v.drv = u.drv)
    (hb : v.buf = u.buf) (hp : v.port = u.port) (ha : v.act = u.act) (hs : v.send = u.send)
    (hc : v.cur = u.cur) : Wired v where
  inv := hi
  framed := h.framed.congr hd hb
  wire := h.wire.congr hp ha hs hc (fun _ p => by rw [State.drvWord, hd]; rfl)
    fun _ p t => by rw [State.bufWord, hb]; rfl


/-- The shape and the frames of a wired state, under its own configuration. -/
theorem Wired.sound {u : State} (h : Wired u) : Sound u.cfg u := ⟨rfl, h.inv.toShaped, h.framed⟩

/-- A broadcast composes the buffer that is not on the wire. -/
theorem WireInv.composeBroadcast {u : State} (h : WireInv u) (hi : TransportInv u) (v : Byte) :
    WireInv (composeBroadcast v u).state :=
  have hg : WireInv (setGi v u) := h.congr rfl rfl rfl rfl (fun _ _ => rfl) fun _ _ _ => rfl
  hg.composeSame (hi.congr rfl rfl rfl rfl) (composeBroadcast_cases v u).2

/-- The parts of every host command keep the latches at the transport's level: a composition writes the
buffer that is not on the wire, a hand-over leaves every frame's pins low. -/
theorem wired_parts (i : Instr) : KeptByParts i Wired where
  answer a _ h := h.congr (h.inv.answer a) rfl rfl rfl rfl rfl rfl
  pixel _ _ px _ hx hy h := h.congr (h.inv.setPixel hx hy px) rfl rfl rfl rfl rfl rfl
  enable n v _ h := h.congr (h.inv.setEnable n v) rfl rfl rfl rfl rfl rfl
  row _ _ hn h := h.congr (h.inv.setRow hn) rfl rfl rfl rfl rfl rfl
  leave _ h := h.congr h.inv.leaveRow rfl rfl rfl rfl rfl rfl
  compose row u h := ⟨h.inv.compose row, (h.sound.compose row).framed,
    h.wire.composeSame h.inv.toTransportInv (compose_cases row u).2⟩
  broadcast v _ h := ⟨h.inv.composeBroadcast v, (h.sound.composeBroadcast v).framed,
    h.wire.composeBroadcast h.inv.toTransportInv v⟩
  single a pin r g b v u _ h := ⟨h.inv.composeSingle a pin r g b v,
    (h.sound.composeSingle a pin r g b v).framed,
    h.wire.composeSame h.inv.toTransportInv (composeSingle_cases a pin r g b v u).2⟩
  submit _ h := ⟨h.inv.submit, h.sound.submit.framed,
    h.wire.submit h.inv.toShaped h.framed h.inv.toTransportInv⟩

/-- While the main path is not held a tick keeps the latches at the transport's level. -/
theorem Wired.tickBody {u : State} (h : Wired u) (hh : u.hung = false) : Wired (tickBody u) where
  inv := h.inv.tickBody hh
  framed := h.framed.congr (tickBody_drv u) (tickBody_buf u)
  wire := h.wire.tickBody h.inv.toShaped h.framed h.inv.toTransportInv

/-- An idle transport has every pin low (R40 (c)). -/
theorem WireInv.low_of_isIdle {u : State} (h : WireInv u) (hi : u.isIdle = true) (p b : Nat) :
    lane (u.portWord p) b = false := by
  have hsend : u.send = false := by simpa [State.isIdle] using hi
  rw [h p b]
  simp [wireLevel, hsend]

/-- Settles O53: the latches stay at the transport's level through ticks and through every part of a
host command, and that level is low while the transport is idle. -/
theorem wireFollowsTransport : Obligations.WireFollowsTransport := by
  intro s t hi hf hw he
  have h : Wired t := step_keeps wired_parts (fun _ hh hu => hu.tickBody hh)
    (fun _ _ hl hu => hu.congr (hu.inv.setSched hl) rfl rfl rfl rfl rfl rfl)
    (fun l _ hu => hu.congr (hu.inv.setCmds l) rfl rfl rfl rfl rfl rfl) hi.hungWaits ⟨hi, hf, hw⟩ he
  exact ⟨h.wire, h.wire.low_of_isIdle⟩

/-! #### The sticky fault -/

/-- The configuration is that of `s`, and so is the fault if `s` has one. -/
structure Settled (s u : State) : Prop where
  cfg   : u.cfg = s.cfg
  fault : s.fault ≠ .none → u.fault = s.fault

/-- No elementary action writes the configuration, and taking a fault keeps the one recorded (R150). -/
theorem settled_kept (s : State) : KeptByActions (Settled s) where
  answer _ _ h := ⟨h.cfg, h.fault⟩
  gi _ _ h := ⟨h.cfg, h.fault⟩
  en _ _ h := ⟨h.cfg, h.fault⟩
  img _ _ h := ⟨h.cfg, h.fault⟩
  lf _ _ h := ⟨h.cfg, h.fault⟩
  row _ _ h := ⟨h.cfg, h.fault⟩
  sidx _ _ h := ⟨h.cfg, h.fault⟩
  draw _ h := ⟨h.cfg, h.fault⟩
  fault f u h := ⟨h.cfg, fun hn => by
    have hu := h.fault hn
    rw [setFault_fault, if_neg (by rwa [hu]), hu]⟩
  clear _ _ h := ⟨h.cfg, h.fault⟩
  drive _ _ _ _ _ h := ⟨h.cfg, h.fault⟩
  write _ _ _ _ h := ⟨h.cfg, h.fault⟩
  idle _ h := ⟨h.cfg, h.fault⟩
  quiet _ h := ⟨h.cfg, h.fault⟩
  act _ _ h := ⟨h.cfg, h.fault⟩
  send _ _ h := ⟨h.cfg, h.fault⟩
  cur _ _ h := ⟨h.cfg, h.fault⟩
  sched _ _ h := ⟨h.cfg, h.fault⟩
  hung _ _ h := ⟨h.cfg, h.fault⟩

/-- Settles O55: every elementary action keeps the configuration and a recorded fault. -/
theorem faultIsSticky : Obligations.FaultIsSticky := by
  intro i s t he
  have h : Settled s t := (settled_kept s).exec ⟨rfl, fun _ => rfl⟩ he
  exact ⟨h.cfg, h.fault⟩

/-! #### What the transmitting commands leave alone -/

theorem InputsKept.refl (s : State) : InputsKept s s := ⟨rfl, rfl, rfl, rfl, rfl⟩

/-- A composition leaves the inputs alone. -/
theorem InputsKept.composeSame {s u v : State} {k : Nat} (h : InputsKept s u)
    (hc : ComposeSame k u v) : InputsKept s v := by
  obtain ⟨h1, h2, h3, h4, h5⟩ := h
  exact ⟨hc.cfg.trans h1, hc.img.trans h2, hc.en.trans h3, hc.cmds.trans h4, hc.tickFires.trans h5⟩

/-- A hand-over leaves the inputs alone. -/
theorem InputsKept.submit {s u : State} (h : InputsKept s u) : InputsKept s (submit u).state := by
  obtain ⟨h1, h2, h3, h4, h5⟩ := h
  have hs := submit_same u
  exact ⟨hs.cfg.trans h1, hs.img.trans h2, hs.en.trans h3, hs.cmds.trans h4, hs.tickFires.trans h5⟩

/-- A render leaves the inputs and the global intensity alone. -/
theorem render_inputs (s : State) :
    InputsKept s (render s).state ∧ (render s).state.gi = s.gi := by
  refine render_keeps (P := fun u => InputsKept s u ∧ u.gi = s.gi) (fun _ _ _ h => h) (fun _ h => h)
    (fun row u h => ?_) (fun u h => ?_) ⟨.refl s, rfl⟩
  · have hc := (compose_cases row u).2
    exact ⟨h.1.composeSame hc, hc.gi.trans h.2⟩
  · exact ⟨h.1.submit, (submit_same u).gi.trans h.2⟩

/-- What a command that composes and hands over once leaves alone: the inputs, the counters, every
buffer but the one it composes. -/
def SingleFrame (s t : State) : Prop :=
  InputsKept s t ∧ t.row = s.row ∧ t.sidx = s.sidx ∧ ∀ k, k ≠ s.composing → ∀ p τ,
    t.drvWord k p = s.drvWord k p ∧ t.bufWord k p τ = s.bufWord k p τ

theorem SingleFrame.refl (s : State) : SingleFrame s s :=
  ⟨.refl s, rfl, rfl, fun _ _ _ _ => ⟨rfl, rfl⟩⟩

/-- A composition that has no counter register leaves all of this alone. -/
theorem SingleFrame.of_composeSame {s u : State} (h : ComposeSame s.composing s u)
    (hx : u.sidx = s.sidx) : SingleFrame s u :=
  ⟨(InputsKept.refl s).composeSame h, h.row, hx,
    fun k hk p τ => ⟨h.otherDrv k hk p, h.otherBuf k hk p τ⟩⟩

/-- A hand-over leaves all of this alone. -/
theorem SingleFrame.submit {s u : State} (h : SingleFrame s u) : SingleFrame s (submit u).state := by
  obtain ⟨hi, hr, hx, ho⟩ := h
  have hs := submit_same u
  refine ⟨hi.submit, hs.row.trans hr, hs.sidx.trans hx, fun k hk p τ => ?_⟩
  simp only [State.drvWord, State.bufWord, hs.drv, hs.buf]
  exact ho k hk p τ

/-- A broadcast composition leaves `SIDX` alone (R26; entry 9). -/
theorem composeBroadcast_sidx (v : Byte) (s : State) :
    (composeBroadcast v s).state.sidx = s.sidx := by
  rw [composeBroadcast_eq, forStrands_sidx]
  rfl

/-- The composition of a single frame leaves `SIDX` alone (R116). -/
theorem composeSingle_sidx (a pin r g b v : Byte) (s : State) :
    (composeSingle a pin r g b v s).state.sidx = s.sidx := by
  rcases expand_cases s.composing pin (frameOf a.toNat r g b v)
    (encodeFrame a.toNat r g b v (clearDrv s.composing s)) with ⟨-, h⟩ | ⟨p, n, -, h⟩ <;>
    exact congrArg (fun r => r.state.sidx) h

/-- The body of `SETINT` leaves alone what its composition and its hand-over do. -/
theorem setIntensity_frame (v : Byte) (s : State) : SingleFrame s (setIntensity v s).state :=
  Res.andThen_keeps (P := SingleFrame s)
    (SingleFrame.of_composeSame (s := setGi v s) (composeBroadcast_cases v s).2
      (composeBroadcast_sidx v s))
    fun _ h => h.submit

/-- The body of `SEND1` leaves alone what its composition and its hand-over do, `GI` besides. -/
theorem sendSingle_frame (a pin r g b v : Byte) (s : State) :
    SingleFrame s (sendSingle a pin r g b v s).state ∧
      (sendSingle a pin r g b v s).state.gi = s.gi := by
  have hc := (composeSingle_cases a pin r g b v s).2
  refine Res.andThen_keeps (P := fun u => SingleFrame s u ∧ u.gi = s.gi)
    ⟨.of_composeSame hc (composeSingle_sidx a pin r g b v s), hc.gi⟩ fun u h => ?_
  exact ⟨h.1.submit, (submit_same u).gi.trans h.2⟩

/-- Settles O45: each command is refused or runs its body, and each composition and hand-over of the
body leaves these alone. -/
theorem transmitCommandFrames : Obligations.TransmitCommandFrames := by
  intro s
  refine ⟨⟨_, rfl, ?_⟩, fun v => ⟨_, rfl, ?_⟩, fun a p r g b v => ⟨_, rfl, ?_⟩⟩
  · exact runCommand_keeps (P := fun u => InputsKept s u ∧ u.gi = s.gi) (fun _ _ h => h)
      ⟨.refl s, rfl⟩ fun _ => render_inputs s
  · exact runCommand_keeps (P := SingleFrame s) (fun _ _ h => h) (.refl s)
      fun _ => setIntensity_frame v s
  · obtain ⟨⟨hi, hr, hx, ho⟩, hg⟩ := runCommand_keeps
      (P := fun u => SingleFrame s u ∧ u.gi = s.gi) (fun _ _ h => h) ⟨.refl s, rfl⟩
      fun _ => sendSingle_frame a p r g b v s
    exact ⟨hi, hg, hr, hx, ho⟩

/-! #### Lanes of no strand -/

/-- Lane `b` of port `p` of buffer `k` holds what it holds in `s`. -/
structure LaneKept (s : State) (k p b : Nat) (u : State) : Prop where
  cfg    : u.cfg = s.cfg
  shaped : Shaped u
  same   : ∀ τ, τ < frameSize → lane (u.bufWord k p τ) b = lane (s.bufWord k p τ) b

section
variable {s : State} {k p b : Nat}

/-- A change of nothing that has a shape. -/
theorem LaneKept.congr {u v : State} (h : LaneKept s k p b u) (hc : v.cfg = u.cfg)
    (hb : v.buf = u.buf) (hd : v.drv = u.drv) (hp : v.port = u.port) (he : v.en = u.en) :
    LaneKept s k p b v where
  cfg := hc.trans h.cfg
  shaped := h.shaped.congr hc hb hd hp he
  same τ hτ := by rw [State.bufWord, hb]; exact h.same τ hτ

/-- Driving another lane keeps this one (R104). -/
theorem LaneKept.drive {u : State} (h : LaneKept s k p b u) {k' p' b' : Nat} {pin : Byte}
    (hk : k' < s.cfg.nbuf) (hpin : pinMap s.cfg pin = some (p', b'))
    (hne : k = k' → (p', b') ≠ (p, b)) (lf : LogicalFrame) :
    LaneKept s k p b (driveLane k' p' b' (levels lf) u) where
  cfg := h.cfg
  shaped := h.shaped.driveLane _ _ _ (levels_length lf)
  same τ hτ := by
    obtain ⟨hp, hb⟩ := pinMap_range hpin
    rw [← h.cfg] at hk hp hb
    rw [lane_bufWord_driveLane h.shaped hk hp hb (levels_length lf) _ _ _ hτ, if_neg, h.same τ hτ]
    rintro ⟨e, rfl, rfl⟩
    exact hne e rfl

/-- `EXP` to another lane, or to a pin that is not recognised. -/
theorem LaneKept.expand {u : State} (h : LaneKept s k p b u) {k' : Nat} {pin : Byte}
    (hk : k' < s.cfg.nbuf) (hne : k = k' → pinMap s.cfg pin ≠ some (p, b)) (lf : LogicalFrame) :
    LaneKept s k p b (expand k' pin lf u).state := by
  rcases expand_cases k' pin lf u with ⟨-, e⟩ | ⟨p', b', hpin, e⟩ <;> rw [e]
  · exact h.congr rfl rfl rfl rfl rfl
  · rw [h.cfg] at hpin
    exact h.drive hk hpin (fun hkk e => hne hkk (e ▸ hpin)) lf

/-- A hand-over writes no buffer. -/
theorem LaneKept.submit {u : State} (h : LaneKept s k p b u) : LaneKept s k p b (submit u).state where
  cfg := (submit_same u).cfg.trans h.cfg
  shaped := h.shaped.submit
  same τ hτ := by rw [State.bufWord, (submit_same u).buf]; exact h.same τ hτ

theorem LaneKept.clearDrv {u : State} (h : LaneKept s k p b u) (k' : Nat) :
    LaneKept s k p b (clearDrv k' u) :=
  { h with shaped := h.shaped.clearDrv k' }

/-- A composition keeps a lane that belongs to no strand (R104, R107). -/
theorem laneKept_kept (hno : NoStrandAt s p b) {k' : Nat} (hk : k' < s.cfg.nbuf) :
    KeptByLanes s.cfg k' (LaneKept s k p b) where
  lf _ _ h := h.congr rfl rfl rfl rfl rfl
  sidx _ _ _ h := h.congr rfl rfl rfl rfl rfl
  leave _ h := h.congr rfl rfl rfl rfl rfl
  fault _ _ h := h.congr rfl rfl rfl rfl rfl
  clear _ h := h.clearDrv k'
  drive i st _ _ lf _ hi hpin h := h.drive hk hpin (fun _ e => hno i st ⟨hi, e ▸ hpin⟩) lf

theorem LaneKept.compose {u : State} (h : LaneKept s k p b u) (hno : NoStrandAt s p b) (row : Nat) :
    LaneKept s k p b (compose row u).state := by
  have hk := composing_lt u
  have hkept := laneKept_kept (k := k) hno (h.cfg ▸ hk)
  exact KeptByLanes.compose (by rwa [h.cfg]) row h

/-- A broadcast composition keeps a lane that belongs to no strand (R107, R114). -/
theorem LaneKept.composeBroadcast {u : State} (h : LaneKept s k p b u) (hno : NoStrandAt s p b)
    (v : Byte) : LaneKept s k p b (composeBroadcast v u).state := by
  have hk := composing_lt u
  have hkept := laneKept_kept (k := k) hno (h.cfg ▸ hk)
  exact KeptByLanes.composeBroadcast (by rwa [h.cfg]) v (h.congr rfl rfl rfl rfl rfl)

/-- `COMPOSE`, `RENDER` and `SETINT` keep a lane that belongs to no strand. -/
theorem laneKept_of_noStrand {t : State} {i : Instr} (hs : Shaped s) (he : exec i s = .next t)
    (hi : i = .render ∨ (∃ row, i = .compose row) ∨ ∃ v, i = .setint v)
    (hno : NoStrandAt s p b) : LaneKept s k p b t := by
  have h0 : LaneKept s k p b s := ⟨rfl, hs, fun _ _ => rfl⟩
  have hanswer : ∀ a u, LaneKept s k p b u → LaneKept s k p b (giveAnswer a u) :=
    fun _ _ h => h.congr rfl rfl rfl rfl rfl
  rcases hi with rfl | ⟨row, rfl⟩ | ⟨v, rfl⟩ <;> cases he
  · exact runCommand_keeps (P := LaneKept s k p b) hanswer h0 fun _ =>
      render_keeps (P := LaneKept s k p b) (fun _ _ _ h => h.congr rfl rfl rfl rfl rfl)
        (fun _ h => h.congr rfl rfl rfl rfl rfl) (fun row _ h => h.compose hno row) (fun _ h => h.submit) h0
  · exact h0.compose hno row
  · exact runCommand_keeps (P := LaneKept s k p b) hanswer h0 fun _ =>
      Res.andThen_keeps (P := LaneKept s k p b) (h0.composeBroadcast hno v) fun _ h => h.submit

/-- `SEND1` keeps every lane but its pin's in the composing buffer (R104, R116). -/
theorem laneKept_send1 {t : State} {a pin r g n v : Byte} (hs : Shaped s)
    (he : exec (.send1 a pin r g n v) s = .next t)
    (hne : k = s.composing → pinMap s.cfg pin ≠ some (p, b)) : LaneKept s k p b t := by
  have h0 : LaneKept s k p b s := ⟨rfl, hs, fun _ _ => rfl⟩
  have h1 : LaneKept s k p b (encodeFrame a.toNat r g n v (clearDrv s.composing s)) :=
    (h0.clearDrv _).congr rfl rfl rfl rfl rfl
  cases he
  exact runCommand_keeps (P := LaneKept s k p b) (fun _ _ h => h.congr rfl rfl rfl rfl rfl) h0
    fun _ => Res.andThen_keeps (P := LaneKept s k p b) (h1.expand (composing_lt s) hne _)
      fun _ h => h.submit

/-! #### A pin that no mask has -/

/-- Pin `(p, b)` is in no mask, and neither its latch nor what it has been driven to has changed since
`s`. -/
structure Undriven (s : State) (p b : Nat) (u : State) : Prop where
  cfg    : u.cfg = s.cfg
  shaped : Shaped u
  masks  : ∀ k, lane (u.drvWord k p) b = false
  driven : drivenLevels p b u.history = drivenLevels p b s.history
  latch  : lane (u.portWord p) b = lane (s.portWord p) b

/-- A change of nothing that has a shape, and of no event. -/
theorem Undriven.congr {u v : State} (h : Undriven s p b u) (hc : v.cfg = u.cfg)
    (hb : v.buf = u.buf) (hd : v.drv = u.drv) (hp : v.port = u.port) (he : v.en = u.en)
    (hh : v.history = u.history) : Undriven s p b v where
  cfg := hc.trans h.cfg
  shaped := h.shaped.congr hc hb hd hp he
  masks k := by rw [State.drvWord, hd]; exact h.masks k
  driven := by rw [hh]; exact h.driven
  latch := by rw [State.portWord, hp]; exact h.latch

theorem Undriven.clearDrv {u : State} (h : Undriven s p b u) (k : Nat) :
    Undriven s p b (clearDrv k u) :=
  { h with
    shaped := h.shaped.clearDrv k
    masks := fun k' => by
      rw [drvWord_clearDrv]
      split
      · exact lane_zero b
      · exact h.masks k' }

/-- Driving another pin sets another bit (R104, R105). -/
theorem Undriven.drive {u : State} (h : Undriven s p b u) {k p' b' : Nat} {pin : Byte}
    (hk : k < s.cfg.nbuf) (hpin : pinMap s.cfg pin = some (p', b')) (hne : (p', b') ≠ (p, b))
    (lf : LogicalFrame) : Undriven s p b (driveLane k p' b' (levels lf) u) :=
  { h with
    shaped := h.shaped.driveLane _ _ _ (levels_length lf)
    masks := fun k' => by
      obtain ⟨hp, hb⟩ := pinMap_range hpin
      rw [← h.cfg] at hk hp hb
      have hn : ¬ (k' = k ∧ p = p' ∧ b = b') := by rintro ⟨-, rfl, rfl⟩; exact hne rfl
      rw [lane_drvWord_driveLane h.shaped hk hp hb, decide_eq_false hn, h.masks k', Bool.or_false] }

/-- `EXP` to another pin, or to one that is not recognised. -/
theorem Undriven.expand {u : State} (h : Undriven s p b u) {k : Nat} {pin : Byte}
    (hk : k < s.cfg.nbuf) (hne : pinMap s.cfg pin ≠ some (p, b)) (lf : LogicalFrame) :
    Undriven s p b (expand k pin lf u).state := by
  rcases expand_cases k pin lf u with ⟨-, e⟩ | ⟨p', b', hpin, e⟩ <;> rw [e]
  · exact h.congr rfl rfl rfl rfl rfl rfl
  · rw [h.cfg] at hpin
    exact h.drive hk hpin (fun e => hne (e ▸ hpin)) lf

/-- A port write without the pin's bit in its mask (R130). -/
theorem Undriven.wmb {u : State} (h : Undriven s p b u) {q : Nat} {mask : PortWord}
    (hq : q < s.cfg.nPorts) (hm : mask < 2 ^ s.cfg.portWidth)
    (hne : q = p → lane mask b = false) (bits : PortWord) : Undriven s p b (wmb q mask bits u) := by
  rw [← h.cfg] at hq hm
  have hn : ¬ (q = p ∧ lane mask b = true) := fun e => by simp [hne e.1] at e
  refine { h with shaped := h.shaped.wmb q mask bits, driven := ?_, latch := ?_ }
  · rw [wmb_history, drivenLevels_append, h.driven]
    simp [drivenLevels, hn]
  · rw [lane_portWord_wmb h.shaped hq hm, if_neg (fun e => hn ⟨e.1.symm, e.2⟩), h.latch]

/-- A slice is masked by the driven pins (R131). -/
theorem Undriven.sliceout {u : State} (h : Undriven s p b u) (k t : Nat) :
    Undriven s p b (sliceout k t u) :=
  sliceout_keeps (P := Undriven s p b)
    (fun q v hq hv => hv.wmb (by rwa [← h.cfg]) (h.cfg ▸ h.shaped.drvWord_lt k q)
      (fun e => e ▸ h.masks k) _) h

theorem Undriven.txsync {u : State} (h : Undriven s p b u) : Undriven s p b (txsync u) := by
  unfold Machine.txsync
  generalize frameSize = n
  induction n with
  | zero => exact h
  | succ n ih => exact ih.sliceout 0 n

/-- A tick puts out a slice or nothing (R135). -/
theorem Undriven.tickBody {u : State} (h : Undriven s p b u) : Undriven s p b (tickBody u) where
  cfg := (tickBody_cfg u).trans h.cfg
  shaped := h.shaped.tickBody
  masks k := by rw [State.drvWord, tickBody_drv]; exact h.masks k
  driven := by
    rw [tickBody_history, drivenLevels_append, h.driven]
    split
    · split
      · simp [drivenLevels_sliceEvents h.shaped, h.masks]
      · exact List.append_nil _
    · exact List.append_nil _
  latch := by
    rw [lane_portWord_tickBody h.shaped, if_neg (by simp [h.masks]), h.latch]

theorem Undriven.ticks {u : State} (h : Undriven s p b u) (n : Nat) : Undriven s p b (ticks n u) :=
  ticks_keeps (P := Undriven s p b) (fun _ h => h.tickBody) n h

/-- The last two actions of a hand-off, with the ticks between them (R137 (c)). -/
theorem Undriven.arm {u : State} (h : Undriven s p b u) : Undriven s p b (arm u) := by
  have hswap : Undriven s p b (setSched u.sched.tail (setAct (1 - u.act) u)) :=
    h.congr rfl rfl rfl rfl rfl rfl
  exact (hswap.ticks (u.sched.headD 0)).congr rfl rfl rfl rfl rfl rfl

/-- A hand-over puts out slices and takes ticks. -/
theorem Undriven.submit {u : State} (h : Undriven s p b u) : Undriven s p b (submit u).state := by
  rcases submit_forms u with ⟨-, e⟩ | ⟨-, n, r, e, -⟩ | ⟨-, n, e, -⟩ <;> rw [e] <;>
    simp only [Res.state]
  · exact h.txsync
  · exact Undriven.arm ((h.ticks n).congr rfl rfl rfl rfl rfl rfl)
  · exact (h.ticks n).congr rfl rfl rfl rfl rfl rfl

/-- A composition drives the pins of strands only (R112, R114). -/
theorem undriven_kept (hno : NoStrandAt s p b) {k : Nat} (hk : k < s.cfg.nbuf) :
    KeptByLanes s.cfg k (Undriven s p b) where
  lf _ _ h := h.congr rfl rfl rfl rfl rfl rfl
  sidx _ _ _ h := h.congr rfl rfl rfl rfl rfl rfl
  leave _ h := h.congr rfl rfl rfl rfl rfl rfl
  fault _ _ h := h.congr rfl rfl rfl rfl rfl rfl
  clear _ h := h.clearDrv k
  drive i st _ _ lf _ hi hpin h := h.drive hk hpin (fun e => hno i st ⟨hi, e ▸ hpin⟩) lf

theorem Undriven.compose {u : State} (h : Undriven s p b u) (hno : NoStrandAt s p b) (row : Nat) :
    Undriven s p b (compose row u).state := by
  have hk := composing_lt u
  have hkept := undriven_kept hno (h.cfg ▸ hk)
  exact KeptByLanes.compose (by rwa [h.cfg]) row h

/-- The parts of a host command whose operands do not name the pin leave it undriven. -/
theorem undriven_parts {i : Instr} (hno : NoStrandAt s p b) (hn : ¬ NamesPin s i p b) :
    KeptByParts i (Undriven s p b) where
  answer _ _ h := h.congr rfl rfl rfl rfl rfl rfl
  pixel _ _ _ _ _ _ h := h.congr rfl rfl rfl rfl rfl rfl
  enable n v _ h := { h with shaped := h.shaped.setEnable n v }
  row _ _ _ h := h.congr rfl rfl rfl rfl rfl rfl
  leave _ h := h.congr rfl rfl rfl rfl rfl rfl
  compose row _ h := h.compose hno row
  broadcast v u h := by
    have hk := composing_lt u
    have hkept := undriven_kept hno (h.cfg ▸ hk)
    exact KeptByLanes.composeBroadcast (by rwa [h.cfg]) v (h.congr rfl rfl rfl rfl rfl rfl)
  single a pin r g c v u e h := by
    have h1 : Undriven s p b (encodeFrame a.toNat r g c v (clearDrv u.composing u)) :=
      (h.clearDrv u.composing).congr rfl rfl rfl rfl rfl rfl
    exact h1.expand (h.cfg ▸ composing_lt u) (fun hp => hn (.inl ⟨_, _, _, _, _, _, e, hp⟩)) _
  submit _ h := h.submit

/-- No operation drives a pin of no strand that no mask has and that its operands do not name. -/
theorem undriven_of_exec {t : State} {i : Instr} (hs : Shaped s) (he : exec i s = .next t)
    (hno : NoStrandAt s p b) (hn : ¬ NamesPin s i p b)
    (hm : ∀ k, lane (s.drvWord k p) b = false) : Undriven s p b t := by
  have h0 : Undriven s p b s := ⟨rfl, hs, hm, rfl, rfl⟩
  have hhost := (undriven_parts hno hn).exec (s := s) (t := t)
  cases i with
  | render | setint | send1 | wrpix | wren => exact hhost rfl h0 he
  | enc => cases he; exact h0.congr rfl rfl rfl rfl rfl rfl
  | exp k pin lf =>
    simp only [exec, execExp] at he
    split at he
    · next hk =>
      cases he
      exact h0.expand hk (fun hp => hn (.inr (.inl ⟨k, pin, lf, rfl, hp⟩))) lf
    · cases he
  | compose row => cases he; exact h0.compose hno row
  | wmb q mask bits =>
    simp only [exec, execWmb] at he
    split at he
    · next hq =>
      cases he
      refine h0.wmb hq (wordOf_lt ..) (fun e => ?_) _
      subst e
      have hmask : lane mask b = false :=
        Bool.eq_false_iff.2 fun hl => hn (.inr (.inr ⟨mask, bits, rfl, hl⟩))
      rw [wordOf, lane_toNat, getLsbD_ofNat_lane, hmask, Bool.and_false]
    · cases he
  | sliceout k τ =>
    simp only [exec, execSliceout] at he
    split at he
    · split at he
      · cases he; exact h0.sliceout k τ
      · cases he
    · cases he
  | txsync =>
    simp only [exec, execTxsync] at he
    split at he
    · rw [Host.Outcome.next.injEq] at he; rw [← he]; exact h0.txsync
    · cases he
  | handoff =>
    simp only [exec, execHandoff] at he
    split at he
    · next hm =>
      have h1 := h0.submit
      simp only [submit, hm] at h1
      cases he
      exact h1
    · cases he
  | tick =>
    simp only [exec, execTick] at he
    split at he
    · cases he; exact h0.tickBody
    · cases he
  | submit => cases he; exact h0.submit

end

/-- Settles O46: what each operation does to a lane that belongs to no strand (`LaneKept`) and to a pin
that no mask has (`Undriven`). -/
theorem otherLanesKeepTheirLevels : Obligations.OtherLanesKeepTheirLevels := by
  intro s t i hs he
  refine ⟨fun hi p b hno k => ?_, fun a pin r g n v hi k p b hne => ?_, fun p b hno hn hm => ?_⟩
  · exact (laneKept_of_noStrand hs he hi hno).same
  · subst hi
    exact (laneKept_send1 hs he hne).same
  · have h := undriven_of_exec hs he hno hn hm
    exact ⟨h.masks, h.driven, h.latch⟩

/-! #### The registers the host reads -/

/-- The bits of `STATUS`, from the low end: `SEND`, `ACT`, `FAULTED` (R38). -/
theorem status_bits (s : State) : s.status.getLsbD 0 = s.send ∧
    s.status.getLsbD 1 = s.act.getLsbD 0 ∧ s.status.getLsbD 2 = s.faulted := by
  unfold State.status
  simp only [BitVec.getLsbD_append, BitVec.getLsbD_ofBool]
  simp

/-- The high byte of `FAULT` is the code (R38). -/
theorem faultWord_code (s : State) : s.faultWord.extractLsb' 8 8 = faultCode s.fault :=
  BitVec.extractLsb'_append_eq_left

/-- The low byte of `FAULT` is the info (R38). -/
theorem faultWord_info (s : State) : s.faultWord.extractLsb' 0 8 = faultInfo s.fault :=
  BitVec.extractLsb'_append_eq_right

/-- `FAULT` reads 0 exactly while there is no fault: every fault has a code (R151). -/
theorem faultWord_eq_zero_iff (s : State) : s.faultWord = 0 ↔ s.fault = .none := by
  constructor
  · intro h
    have hc := faultWord_code s
    rw [h] at hc
    cases hf : s.fault with
    | none => rfl
    | invalidPin pin => rw [hf] at hc; exact absurd hc (show (0 : Byte) ≠ 1 by decide)
    | badCoord n => rw [hf] at hc; exact absurd hc (show (0 : Byte) ≠ 2 by decide)
  · intro h
    rw [State.faultWord, h]
    rfl

/-- Settles O47: the words are appended from their fields, and each record has its code and info. -/
theorem hostReadsRegisters : Obligations.HostReadsRegisters := by
  intro s
  obtain ⟨hsend, hact, hfaulted⟩ := status_bits s
  refine ⟨hsend, hact, hfaulted, by simp [State.faulted], fun pin h => ?_, fun n h => ?_,
    faultWord_eq_zero_iff s⟩
  · rw [faultWord_code, faultWord_info, h]; exact ⟨rfl, rfl⟩
  · rw [faultWord_code, faultWord_info, h]; exact ⟨rfl, rfl⟩

/-! #### Reset -/

theorem bufWord_launch (c : Config) (img : List ImageCell) (k p t : Nat) :
    (State.launch c img).bufWord k p t = 0 := by
  have key : ∀ ports ∈ (State.launch c img).buf, ∀ words ∈ ports, ∀ w ∈ words, w = 0 := by
    simp +contextual [State.launch]
  unfold State.bufWord
  rcases getD_mem_or (State.launch c img).buf k [] with hk | hk
  · rw [hk]; rfl
  · rcases getD_mem_or ((State.launch c img).buf.getD k []) p [] with hp | hp
    · rw [hp]; rfl
    · exact (getD_mem_or _ t 0).elim id fun h => key _ hk _ hp _ h

/-- Every strand is enabled after reset, and nothing else is (R41). -/
theorem enabled_launch (c : Config) (img : List ImageCell) (i : Nat) :
    (State.launch c img).enabled i = decide (i < c.strandCount) := by
  unfold State.enabled State.launch
  by_cases h : i < c.strandCount <;> simp [List.getD_eq_getElem?_getD, h]

/-- Settles O48: the spaces read 0 word by word, the registers hold what `State.launch` gives them. -/
theorem resetValues : Obligations.ResetValues := by
  rintro c img s rfl
  exact ⟨enabled_launch c img, rfl, rfl, rfl, rfl, bufWord_launch c img, drvWord_launch c img, rfl,
    rfl, rfl, portWord_launch c img, rfl, fun _ _ => rfl⟩

/-- Settles O49: in `ISR` mode the step is the tick, which is idle; in `SYNC` mode the main path waits. -/
theorem resetWaitsForCommand : Obligations.ResetWaitsForCommand := by
  intro c img
  cases hm : c.mode with
  | sync =>
    refine ⟨[], ?_, fun _ => rfl, nofun⟩
    have hd : (State.launch c img).tickDue = false := by simp [State.tickDue, State.launch, hm]
    rw [step, hd]
    rfl
  | isr =>
    refine ⟨[.idleTick], ?_, nofun, fun _ => rfl⟩
    have hd : (State.launch c img).tickDue = true := by
      simp [State.tickDue, State.mainWaits, State.launch, hm]
    rw [step, hd, if_pos rfl, exec, execTick]
    simp only [takeTick, State.launch, hm]
    rfl

/-- The transport is idle after reset, with its cursor at 0 (R41). -/
theorem transportInv_launch (c : Config) (img : List ImageCell) :
    TransportInv (State.launch c img) where
  idleCursor _ := rfl
  cursorRange := Nat.add_pos_left (by decide) _
  syncZero _ := ⟨rfl, rfl, rfl⟩

/-- The invariants after reset: no mask and no latch has a bit, the counters are 0 (R41, R42). -/
theorem inv_launch {c : Config} {img : List ImageCell} (hw : imageWf img)
    (hb : ImageInBounds (State.launch c img)) : Inv (State.launch c img) where
  toShaped := Shaped.launch c img
  toTransportInv := transportInv_launch c img
  imgCanonical := hw
  imgInBounds := hb
  drvRecognised k p b h := by simp [drvWord_launch] at h
  portRecognised p b h := by simp [portWord_launch] at h
  rowRange := Nat.zero_le _
  sidxRange := Nat.zero_le _
  hungWaits h := by cases h

/-- Settles O50: with the masks and the latches 0 no lane is driven and every pin is low. -/
theorem invAtReset : Obligations.InvAtReset := by
  refine ⟨inv_launch ⟨.nil, nofun⟩ nofun, fun c img hw hb => ⟨inv_launch hw hb, ?_, ?_⟩⟩
  · intro k p b h
    simp [drvWord_launch] at h
  · intro p b
    rw [portWord_launch, lane_zero]
    rfl

end Sys2Proof.Machine
end

/-! ### Proofs: the memory and its ordering (20_memory.md R50, R56, R57, R59) -/

section
namespace Sys2Proof.Machine

/-! #### Of two expansions on one pin the later wins -/

/-- `EXP` gives a next state on an existing instance only: the one `expand` leaves (R100). -/
theorem exp_gives_iff {k : Nat} {pin : Byte} {lf : LogicalFrame} {s t : State} :
    Gives (.exp k pin lf) s t ↔ k < s.cfg.nbuf ∧ (expand k pin lf s).state = t := by
  simp only [Gives, exec, execExp, outcomeOf]
  split <;> simp [*]

theorem expand_of_none {k : Nat} {pin : Byte} {lf : LogicalFrame} {s : State}
    (h : pinMap s.cfg pin = none) : expand k pin lf s = raise (.invalidPin pin) s := by
  simp [expand, h]

/-- The first fault stays, so raising one fault twice is raising it once (R150). -/
theorem raise_raise (f : FaultRecord) (s : State) : raise f (raise f s).state = raise f s := by
  by_cases h : s.fault = .none <;> simp [raise, Res.state, setFault, h]

/-- Of two expansions on one pin the later wins: on a recognised pin they drive one lane, on any other
they raise one fault (R104, R103). -/
theorem expand_expand (k : Nat) (pin : Byte) (lf₁ lf₂ : LogicalFrame) (s : State) :
    expand k pin lf₂ (expand k pin lf₁ s).state = expand k pin lf₂ s := by
  cases hp : pinMap s.cfg pin with
  | none =>
    have hp' : pinMap (raise (.invalidPin pin) s).state.cfg pin = none := hp
    rw [expand_of_none hp, expand_of_none hp, expand_of_none hp', raise_raise]
  | some l =>
    have hp' : pinMap (driveLane k l.1 l.2 (levels lf₁) s).cfg pin = some l := hp
    rw [expand_of_some hp, expand_of_some hp, Res.state, expand_of_some hp',
      driveLane_driveLane _ _ _ (by simp)]

/-- Settles O18, by `expand_expand`. -/
theorem expLaterWins : Obligations.ExpLaterWins := by
  intro s t u v k pin lf₁ lf₂ h₁ h₂ h
  obtain ⟨-, rfl⟩ := exp_gives_iff.1 h₁
  obtain ⟨-, rfl⟩ := exp_gives_iff.1 h₂
  obtain ⟨-, rfl⟩ := exp_gives_iff.1 h
  rw [expand_expand]

/-! #### A repeated port write -/

/-- `WMB` gives a next state on an existing port only: the masked write of the operands as words of `W`
bits (R130). -/
theorem wmb_gives_iff {p : Nat} {mask bits : PortWord} {s t : State} :
    Gives (.wmb p mask bits) s t ↔ p < s.cfg.nPorts ∧
      wmb p (wordOf s.cfg.portWidth mask) (wordOf s.cfg.portWidth bits) s = t := by
  simp only [Gives, exec, execWmb]
  split <;> simp [*]

/-- The same port write again leaves the latches (R59). -/
theorem wmb_wmb_port (p : Nat) (mask bits : PortWord) (s : State) :
    (wmb p mask bits (wmb p mask bits s)).port = (wmb p mask bits s).port := by
  simp only [wmb_port, wmb_cfg, List.modify_modify_eq]
  congr 1
  funext old
  exact mergeMasked_idem ..

/-- Settles O23: the masked merge is idempotent on the latch, and each write records its event. -/
theorem wmbRepeats : Obligations.WmbRepeats := by
  intro s t p mask bits h
  obtain ⟨hp, rfl⟩ := wmb_gives_iff.1 h
  exact ⟨_, _, wmb_gives_iff.2 ⟨hp, rfl⟩, wmb_wmb_port .., wmb_history .., wmb_history ..⟩

/-! #### The byte-serial carrier -/

/-- Fewer than seven bytes are no command yet (R82). -/
theorem decodeBytes_of_short {bs : List Byte} (h : bs.length < 7) : decodeBytes bs = .incomplete := by
  unfold decodeBytes
  split
  · simp only [List.length_cons] at h
    omega
  · rfl

/-- Settles O5: the seven bytes are the fields of the word, and the fields make up the word again. -/
theorem byteStreamReadsOneWord : Obligations.ByteStreamReadsOneWord := by
  refine ⟨fun w rest => ?_, fun _ => decodeBytes_of_short⟩
  simp only [wordBytes, List.cons_append, List.nil_append, decodeBytes, packWord_fields]

/-! #### What does not exist, and what the other MODE has -/

/-- Settles O57: each operation tests its operands and the MODE before it writes, an instance before a
slice. -/
theorem absentThingsStopByName : Obligations.AbsentThingsStopByName := by
  intro s
  refine ⟨fun k pin lf hk => ?_, fun k τ hk => ?_, fun k τ hk hτ => ?_, fun p m v hp => ?_,
    fun hm => ?_, fun hm => ⟨?_, ?_⟩⟩
  · exact if_neg (Nat.not_lt.2 hk)
  · exact if_neg (Nat.not_lt.2 hk)
  · exact (if_pos hk).trans (if_neg (Nat.not_lt.2 hτ))
  · exact if_neg (Nat.not_lt.2 hp)
  · simp only [exec, execTxsync, hm]
  · simp only [exec, execHandoff, hm]
  · simp only [exec, execTick, hm]

end Sys2Proof.Machine
end

/-! ### Proofs: the command word (30_encoding.md R75 to R79, R83) -/

section
namespace Sys2Proof.Machine

/-! #### The decoder, one equation a code -/

section
variable {w : CommandWord}

theorem decode_of_op_render (h : fieldOp w = 0x01) : decode w = .command .render := by
  simp [decode, h]

theorem decode_of_op_setint (h : fieldOp w = 0x02) : decode w = .command (.setint (fieldI w)) := by
  simp [decode, h]

theorem decode_of_op_send1 (h : fieldOp w = 0x03) :
    decode w = .command
      (.send1 (fieldA w) (fieldP w) (fieldR w) (fieldG w) (fieldB w) (fieldI w)) := by
  simp [decode, h]

theorem decode_of_op_wrpix (h : fieldOp w = 0x04) :
    decode w = .command (.wrpix (fieldA w) (fieldP w) (fieldR w) (fieldG w) (fieldB w)) := by
  simp [decode, h]

theorem decode_of_op_wren (h : fieldOp w = 0x05) :
    decode w = .command (.wren (fieldA w) ((fieldI w).getLsbD 0)) := by
  simp [decode, h]

/-- Every code but the five of the operation map is refused by name (R79). -/
theorem decode_of_op_reserved
    (h : ∀ n ∈ [0x01, 0x02, 0x03, 0x04, 0x05], (fieldOp w).toNat ≠ n) :
    decode w = .unknownCommand (fieldOp w) := by
  have hne : ∀ op : Byte, op.toNat ∈ [0x01, 0x02, 0x03, 0x04, 0x05] → fieldOp w ≠ op :=
    fun op hop he => h op.toNat hop (congrArg BitVec.toNat he)
  unfold decode
  rw [if_neg (hne _ (by decide)), if_neg (hne _ (by decide)), if_neg (hne _ (by decide)),
    if_neg (hne _ (by decide)), if_neg (hne _ (by decide))]

end

/-- Settles O1: each word the spec writes out is decoded by evaluation. -/
theorem specWordsDecode : Obligations.SpecWordsDecode := by
  unfold Obligations.SpecWordsDecode
  decide

/-! #### The encoder -/

/-- Bit 0 of the byte made of a truth value is that value (R76 (e)). -/
@[simp] theorem boolByte_getLsbD_zero (v : Bool) : (boolByte v).getLsbD 0 = v := by
  cases v <;> rfl

/-- Host commands, and they alone, have a command word (R79). -/
theorem encode_isSome (i : Instr) : (encode i).isSome = i.isHost := by
  cases i <;> rfl

/-- The operation code of a command's word is the command's (R77). -/
theorem fieldOp_of_encode {i : Instr} {w : CommandWord} (h : encode i = some w) :
    fieldOp w = i.tag := by
  cases i <;> cases h <;> exact fieldOp_packWord ..

/-- The word of a command has the command's operands in the fields the decoder reads (R75 to R77). -/
theorem decode_of_encode {i : Instr} {w : CommandWord} (h : encode i = some w) :
    decode w = .command i := by
  have hop := fieldOp_of_encode h
  cases i with
  | render => exact decode_of_op_render hop
  | setint value =>
    rw [decode_of_op_setint hop]
    cases h
    rw [fieldI_packWord]
  | send1 address pin r g b intensity =>
    rw [decode_of_op_send1 hop]
    cases h
    rw [fieldA_packWord, fieldP_packWord, fieldR_packWord, fieldG_packWord, fieldB_packWord,
      fieldI_packWord]
  | wrpix x y r g b =>
    rw [decode_of_op_wrpix hop]
    cases h
    rw [fieldA_packWord, fieldP_packWord, fieldR_packWord, fieldG_packWord, fieldB_packWord]
  | wren n v =>
    rw [decode_of_op_wren hop]
    cases h
    rw [fieldA_packWord, fieldI_packWord, boolByte_getLsbD_zero]
  | enc | exp | compose | wmb | sliceout | txsync | handoff | tick | submit => cases h

/-- Settles O2: a host command has a word (`encode_isSome`), and the decoder reads the command back from
it (`decode_of_encode`). -/
theorem decodeOfEncode : Obligations.DecodeOfEncode := by
  intro i
  refine ⟨fun hi => ?_, fun hi => ?_⟩
  · obtain ⟨w, hw⟩ := Option.isSome_iff_exists.1 ((encode_isSome i).trans hi)
    exact ⟨w, hw, decode_of_encode hw, fieldOp_of_encode hw⟩
  · exact Option.isNone_iff_eq_none.1 (Option.isSome_eq_false_iff.1 ((encode_isSome i).trans hi))

/-! #### Unused fields -/

/-- Settles O3: the equation of each code names only the fields the command uses. -/
theorem unusedFieldsAreIgnored : Obligations.UnusedFieldsAreIgnored := by
  intro w w' hop
  refine ⟨fun h => ?_, fun h hI => ?_, fun h hA hP hR hG hB => ?_, fun h hA hv => ?_⟩
  · rw [decode_of_op_render h, decode_of_op_render (hop.trans h)]
  · rw [decode_of_op_setint h, decode_of_op_setint (hop.trans h), hI]
  · rw [decode_of_op_wrpix h, decode_of_op_wrpix (hop.trans h), hA, hP, hR, hG, hB]
  · rw [decode_of_op_wren h, decode_of_op_wren (hop.trans h), hA, hv]

/-! #### Reserved codes -/

/-- The main path's step with a command waiting takes the word at the head of the command stream, past
the place for ticks before it (R120, R137; entries 5, 14). -/
theorem step_takes_word {s : State} {w : CommandWord} {rest : List CommandWord}
    (hc : s.cmds = w :: rest) (hh : s.hung = false) (ht : s.tickDue = false) :
    step s = runWord w (passPlace (setCmds rest s)) := by
  simp [step, mainMove, hc, hh, ht]

/-- A word the decoder refuses is refused to the host, in any state (R79, R120). -/
theorem runWord_of_unknownCommand {w : CommandWord} {op : Byte} (h : decode w = .unknownCommand op)
    (s : State) : runWord w s = .next (refuse .unknownCommand s) := by
  simp only [runWord, h]

/-- Settles O4: the step takes the word, the decoder refuses its code, and a refusal writes only the
answer, with no look at `FAULT`. -/
theorem reservedCodesAreRefused : Obligations.ReservedCodesAreRefused := by
  intro w s rest hres hc hh ht
  have hd := decode_of_op_reserved hres
  refine ⟨hd, ?_⟩
  rw [step_takes_word hc hh ht, runWord_of_unknownCommand hd]
  rfl

end Sys2Proof.Machine
end

/-! ### Proofs: the Protocol Encoder (40_protocol_encoder.md R90 to R92, R95) -/

section
namespace Sys2Proof.Machine

/-! #### What `ENC` writes -/

/-- `ENC` writes the frame of its operands, under any name `lf` of it, and nothing else (R90). -/
theorem enc_gives {index : Nat} {r g b v : Byte} {lf : LogicalFrame}
    (h : frameOf index r g b v = lf) (s : State) :
    Gives (.enc index r g b v) s { s with lf := lf } :=
  h ▸ rfl

/-- `ENC` sees its operands only through their frame. -/
theorem exec_enc_congr {index index' : Nat} {r g b v r' g' b' v' : Byte}
    (h : frameOf index r g b v = frameOf index' r' g' b' v') (s : State) :
    exec (.enc index r g b v) s = exec (.enc index' r' g' b' v') s :=
  (enc_gives h s).trans (enc_gives rfl s).symm

/-- Settles O8: what `ENC` writes is `enc_gives`, and the value of the frame `toNat_frameOf`. -/
theorem encWritesFrame : Obligations.EncWritesFrame := fun s index r g b v =>
  ⟨frameOf index r g b v, enc_gives rfl s, toNat_frameOf index r g b v, rfl⟩

/-! #### The fields of a frame -/

/-- Bits that stand above the low part of an appended word are bits of its high part. -/
theorem extractLsb'_append_above {m n len : Nat} (start : Nat) (x : BitVec m) (y : BitVec n) :
    (x ++ y).extractLsb' (start + n) len = x.extractLsb' start len := by
  rw [BitVec.extractLsb'_append_eq_of_le (Nat.le_add_left n start), Nat.add_sub_cancel]

section
variable (index : Nat) (r g b v : Byte)

@[simp] theorem frameRed_frameOf : frameRed (frameOf index r g b v) = topNibble r :=
  BitVec.extractLsb'_append_eq_right

@[simp] theorem frameGreen_frameOf : frameGreen (frameOf index r g b v) = topNibble g :=
  (extractLsb'_append_above 0 _ (topNibble r)).trans BitVec.extractLsb'_append_eq_right

@[simp] theorem frameBlue_frameOf : frameBlue (frameOf index r g b v) = topNibble b :=
  (extractLsb'_append_above 4 _ (topNibble r)).trans <|
  (extractLsb'_append_above 0 _ (topNibble g)).trans BitVec.extractLsb'_append_eq_right

@[simp] theorem frameInten_frameOf : frameInten (frameOf index r g b v) = v :=
  (extractLsb'_append_above 8 _ (topNibble r)).trans <|
  (extractLsb'_append_above 4 _ (topNibble g)).trans <|
  (extractLsb'_append_above 0 _ (topNibble b)).trans BitVec.extractLsb'_append_eq_right

@[simp] theorem frameAddr_frameOf :
    frameAddr (frameOf index r g b v) = BitVec.ofNat 6 (index % 64) :=
  (extractLsb'_append_above 16 _ (topNibble r)).trans <|
  (extractLsb'_append_above 12 _ (topNibble g)).trans <|
  (extractLsb'_append_above 8 _ (topNibble b)).trans BitVec.extractLsb'_append_eq_left

theorem toNat_frameAddr_frameOf : (frameAddr (frameOf index r g b v)).toNat = index % 64 := by
  rw [frameAddr_frameOf, BitVec.toNat_ofNat, Nat.mod_mod]

end

/-! #### Operands with the same frame -/

/-- An index counts only mod 64 (R91). -/
@[simp] theorem frameOf_mod (index : Nat) (r g b v : Byte) :
    frameOf (index % 64) r g b v = frameOf index r g b v := by
  rw [frameOf, frameOf, Nat.mod_mod]

/-- The low nibble of a channel does not count (R92). -/
theorem topNibble_eq {c c' : Byte} (h : c.toNat / 16 = c'.toNat / 16) :
    topNibble c = topNibble c' :=
  BitVec.eq_of_toNat_eq (by rw [toNat_topNibble, toNat_topNibble, h])

/-- Settles O10: the frame does not see more of the index than its value mod 64. -/
theorem encWrapsIndex : Obligations.EncWrapsIndex := by
  intro s index r g b v
  refine ⟨exec_enc_congr (frameOf_mod ..).symm s, enc_gives (frameOf_mod ..).symm s,
    frameAddr_frameOf .., fun k hk => ?_⟩
  rw [frameAddr_frameOf]
  revert k
  decide

/-- Settles O11: of a channel the frame has only the top nibble. -/
theorem encDropsLowNibbles : Obligations.EncDropsLowNibbles := by
  intro s index r g b r' g' b' v hr hg hb
  have hframe : frameOf index r g b v = frameOf index r' g' b' v := by
    rw [frameOf, frameOf, topNibble_eq hr, topNibble_eq hg, topNibble_eq hb]
  exact ⟨exec_enc_congr hframe s, frameRed_frameOf .., frameRed_frameOf .., frameRed_frameOf ..,
    frameInten_frameOf ..⟩

/-! #### Every frame is the frame of some operands -/

/-- The channel with the given top nibble and a low nibble of 0. -/
def channelOf (n : BitVec 4) : Byte := n ++ 0#4

@[simp] theorem topNibble_channelOf (n : BitVec 4) : topNibble (channelOf n) = n :=
  BitVec.extractLsb'_append_eq_left

/-- The five fields follow one another and make up the frame (R95). -/
theorem append_frameFields (lf : LogicalFrame) :
    frameAddr lf ++ frameInten lf ++ frameBlue lf ++ frameGreen lf ++ frameRed lf = lf := by
  unfold frameAddr frameInten frameBlue frameGreen frameRed
  rw [BitVec.extractLsb'_append_extractLsb'_eq_extractLsb' (show 20 = 12 + 8 from rfl),
    BitVec.extractLsb'_append_extractLsb'_eq_extractLsb' (show 12 = 8 + 4 from rfl),
    BitVec.extractLsb'_append_extractLsb'_eq_extractLsb' (show 8 = 4 + 4 from rfl),
    BitVec.extractLsb'_append_extractLsb'_eq_extractLsb' (show 4 = 0 + 4 from rfl)]
  exact BitVec.extractLsb'_eq_self

/-- A frame is the frame of its own fields, so that encoding is onto the frames (R95). -/
theorem frameOf_fields (lf : LogicalFrame) :
    frameOf (frameAddr lf).toNat (channelOf (frameRed lf)) (channelOf (frameGreen lf))
      (channelOf (frameBlue lf)) (frameInten lf) = lf := by
  have haddr : BitVec.ofNat 6 ((frameAddr lf).toNat % 64) = frameAddr lf := by
    rw [Nat.mod_eq_of_lt (frameAddr lf).isLt, BitVec.ofNat_toNat, BitVec.setWidth_eq]
  rw [frameOf, haddr, topNibble_channelOf, topNibble_channelOf, topNibble_channelOf,
    append_frameFields]

/-- Settles O9: the fields of a frame are those of its operands, every frame is the frame of its own
fields (`frameOf_fields`), and 0 and 64 are two indices with the same frames. -/
theorem encFieldsRecovered : Obligations.EncFieldsRecovered := by
  refine ⟨fun index r g b v => ⟨frameOf index r g b v, enc_gives rfl, toNat_frameAddr_frameOf ..,
      frameInten_frameOf .., ?_, ?_, ?_⟩,
    fun lf => ⟨_, _, _, _, _, enc_gives (frameOf_fields lf)⟩,
    0, 64, by decide, fun r g b v => exec_enc_congr (frameOf_mod 64 r g b v)⟩
  · exact (congrArg BitVec.toNat (frameBlue_frameOf ..)).trans (toNat_topNibble b)
  · exact (congrArg BitVec.toNat (frameGreen_frameOf ..)).trans (toNat_topNibble g)
  · exact (congrArg BitVec.toNat (frameRed_frameOf ..)).trans (toNat_topNibble r)

end Sys2Proof.Machine
end

/-! ### Proofs: the Bit Expander (41_bit_expander.md R100 to R107) -/

section
namespace Sys2Proof.Machine

/-! #### The level function, cell by cell -/

/-- Settles O15: the three slices of a cell are the three phases of `lev_cell`. -/
theorem levelsByCell : Obligations.LevelsByCell := by
  refine fun lf => ⟨lev_start lf, lev_idle lf, fun j hj => ⟨lev_cell lf hj 0 (by decide), ?_, ?_⟩⟩
  · rw [show 2 + 3 * j = 1 + 3 * j + 1 by omega, lev_cell lf hj 1 (by decide)]
    rfl
  · rw [show 3 + 3 * j = 1 + 3 * j + 2 by omega, lev_cell lf hj 2 (by decide)]
    rfl

/-- Slice `t` of the Physical Frame (R101). -/
theorem levels_getElem? (lf : LogicalFrame) {t : Nat} (ht : t < frameSize) :
    (levels lf)[t]? = some (lev lf t) := by
  simp [levels, ht]

/-- The slices of a Physical Frame, cell by cell (R101). -/
theorem levels_by_cell (lf : LogicalFrame) :
    (levels lf)[0]? = some true ∧ (levels lf)[79]? = some false ∧
    ∀ j, j < 26 → (levels lf)[1 + 3 * j]? = some false ∧
      (levels lf)[2 + 3 * j]? = some (!lf.getLsbD (25 - j)) ∧
      (levels lf)[3 + 3 * j]? = some true := by
  have hfs : frameSize = 80 := rfl
  obtain ⟨-, -, hcell⟩ := levelsByCell lf
  refine ⟨rfl, rfl, fun j hj => ?_⟩
  obtain ⟨h1, h2, h3⟩ := hcell j hj
  rw [levels_getElem? lf (by omega), levels_getElem? lf (by omega), levels_getElem? lf (by omega),
    h1, h2, h3]
  exact ⟨rfl, rfl, rfl⟩

/-! #### A Physical Frame as a list of cells -/

/-- The slices after the start slice: the cells of the bits in order, then the idle slice (R101). -/
def cellSlices (bits : List Bool) : List Level :=
  bits.flatMap (fun bit => (List.range 3).map (cellLevel bit)) ++ [false]

@[simp] theorem cellSlices_nil : cellSlices [] = [false] := rfl

@[simp] theorem cellSlices_cons (bit : Bool) (bits : List Bool) :
    cellSlices (bit :: bits) = false :: (!bit) :: true :: cellSlices bits := rfl

@[simp] theorem length_cellSlices (bits : List Bool) :
    (cellSlices bits).length = 3 * bits.length + 1 := by
  induction bits with
  | nil => rfl
  | cons bit bits ih => simp [ih]; omega

/-- Slices that end low, and of which every third from the first is low and every third from the
third is high, are cells. -/
theorem exists_cellSlices {n : Nat} {ls : List Level} (hlen : ls.length = 3 * n + 1)
    (hidle : ls[3 * n]? = some false)
    (hcell : ∀ j, j < n → ls[3 * j]? = some false ∧ ls[3 * j + 2]? = some true) :
    ∃ bits, bits.length = n ∧ cellSlices bits = ls := by
  induction n generalizing ls with
  | zero =>
    obtain ⟨a, rfl⟩ := List.length_eq_one_iff.1 hlen
    exact ⟨[], rfl, by simpa using hidle.symm⟩
  | succ n ih =>
    match ls, hlen with
    | a :: b :: c :: rest, hlen =>
      obtain ⟨ha, hc⟩ := hcell 0 n.succ_pos
      obtain rfl : a = false := by simpa using ha
      obtain rfl : c = true := by simpa using hc
      obtain ⟨bits, rfl, rfl⟩ := ih (ls := rest) (by simpa [Nat.mul_succ] using hlen) hidle
        fun j hj => hcell (j + 1) (Nat.succ_lt_succ hj)
      exact ⟨(!b) :: bits, rfl, by simp⟩

/-- The bits of a frame in wire order, `bitseq(LF, 26)` (R71). -/
def wireBits (lf : LogicalFrame) : List Bool := (List.range lbits).map (wireBit lf)

@[simp] theorem length_wireBits (lf : LogicalFrame) : (wireBits lf).length = lbits := by
  simp [wireBits]

/-- A frame is known from its bits on the wire. -/
theorem wireBits_injective : Function.Injective wireBits := by
  intro lf lf' h
  refine BitVec.eq_of_getLsbD_eq fun i hi => ?_
  have hbit := List.map_inj_left.1 h (25 - i) (List.mem_range.2 (by unfold lbits; omega))
  rwa [wireBit, wireBit, Nat.sub_sub_self (by omega)] at hbit

/-- The Physical Frame of a frame: the start slice, then the cells of its bits in wire order
(R101); both sides evaluate to the same 80 slices. -/
theorem levels_eq (lf : LogicalFrame) : levels lf = true :: cellSlices (wireBits lf) := rfl

/-! #### `DEC` (R106) -/

/-- The number read from bits, the last bit going to the right of those before it. -/
def readBits (acc : Nat) (bits : List Bool) : Nat := bits.foldl (fun n bit => Nat.bit bit n) acc

/-- Bits read later move those read before to the left. -/
theorem testBit_readBits_add (acc : Nat) (bits : List Bool) (i : Nat) :
    (readBits acc bits).testBit (bits.length + i) = acc.testBit i := by
  induction bits generalizing acc i with
  | nil => rw [List.length_nil, Nat.zero_add]; rfl
  | cons bit bits ih =>
    rw [List.length_cons, Nat.add_assoc, Nat.add_comm 1 i]
    exact (ih _ _).trans (Nat.testBit_bit_succ ..)

/-- The `j`-th bit read stands `j` places below the leftmost. -/
theorem testBit_readBits (acc : Nat) (bits : List Bool) (j : Nat) (hj : j < bits.length) :
    (readBits acc bits).testBit (bits.length - 1 - j) = bits[j] := by
  induction bits generalizing acc j with
  | nil => cases hj
  | cons bit bits ih =>
    cases j with
    | zero => exact (testBit_readBits_add _ bits 0).trans (Nat.testBit_bit_zero ..)
    | succ j =>
      have hplace : (bit :: bits).length - 1 - (j + 1) = bits.length - 1 - j := by
        rw [List.length_cons]; omega
      rw [hplace]
      exact ih (Nat.bit bit acc) j (Nat.lt_of_succ_lt_succ hj)

/-- The frame whose bits in wire order are given. -/
def wireFrame (bits : List Bool) : LogicalFrame := BitVec.ofNat 26 (readBits 0 bits)

/-- Any 26 bits are the bits of their frame on the wire. -/
theorem wireBits_wireFrame {bits : List Bool} (h : bits.length = lbits) :
    wireBits (wireFrame bits) = bits := by
  refine List.ext_getElem (by simp [h]) fun j hj hj' => ?_
  have hj26 : j < 26 := hj'.trans_eq h
  have hbit := testBit_readBits 0 bits j hj'
  rw [h] at hbit
  simp only [wireBits, List.getElem_map, List.getElem_range, wireBit, wireFrame,
    BitVec.getLsbD_ofNat, ← hbit]
  rw [decide_eq_true (by omega), Bool.true_and]
  rfl

/-- A frame is that of its own bits on the wire. -/
theorem wireFrame_wireBits (lf : LogicalFrame) : wireFrame (wireBits lf) = lf :=
  wireBits_injective (wireBits_wireFrame (length_wireBits lf))

/-- `DEC` reads cells to the number of their bits. -/
theorem decCells_cellSlices (bits : List Bool) (acc : Nat) :
    decCells (cellSlices bits) acc = some (readBits acc bits) := by
  induction bits generalizing acc with
  | nil => rfl
  | cons bit bits ih =>
    have hacc : 2 * acc + (if !bit then 0 else 1) = Nat.bit bit acc := by cases bit <;> rfl
    rw [cellSlices_cons, decCells, if_pos ⟨rfl, rfl⟩, hacc]
    exact ih _

/-- `DEC` reads nothing but cells. -/
theorem exists_cellSlices_of_decCells {ls : List Level} {acc n : Nat}
    (h : decCells ls acc = some n) : ∃ bits, cellSlices bits = ls := by
  fun_induction decCells ls acc with
  | case1 => exact ⟨[], rfl⟩
  | case2 a b c rest acc hcell ih =>
    obtain ⟨rfl, rfl⟩ := hcell
    obtain ⟨bits, rfl⟩ := ih h
    exact ⟨(!b) :: bits, by simp⟩
  | case3 => cases h
  | case4 => cases h

/-- `DEC` gives a frame exactly on its Physical Frame (R106). -/
theorem dec_eq_some_iff {ls : List Level} {lf : LogicalFrame} :
    dec ls = some lf ↔ ls = levels lf := by
  constructor
  · intro h
    unfold dec at h
    split at h
    · next rest =>
      split at h
      · next hlen =>
        obtain ⟨n, hn, rfl⟩ := Option.map_eq_some_iff.1 h
        obtain ⟨bits, rfl⟩ := exists_cellSlices_of_decCells hn
        rw [decCells_cellSlices] at hn
        cases hn
        have hbits : bits.length = lbits := by simp [frameSize] at hlen; omega
        rw [levels_eq, ← wireFrame, wireBits_wireFrame hbits]
      · cases h
    · cases h
  · rintro rfl
    have hlen : (true :: cellSlices (wireBits lf)).length = frameSize := by simp [frameSize]; omega
    rw [levels_eq, dec, if_pos hlen, decCells_cellSlices]
    exact congrArg some (wireFrame_wireBits lf)

/-- Settles O12: `DEC` gives a frame on its Physical Frame alone (`dec_eq_some_iff`), whose slices
are those of `levels_by_cell`; and 80 slices of that shape are the cells of some 26 bits
(`exists_cellSlices`). -/
theorem decInvertsLevels : Obligations.DecInvertsLevels := by
  refine ⟨fun ls hlen => ⟨fun h => ?_, fun ⟨hstart, hidle, hcell⟩ => ?_⟩, fun ls lf h => ?_,
    fun lf => dec_eq_some_iff.2 rfl⟩
  · obtain ⟨lf, hlf⟩ := Option.isSome_iff_exists.1 h
    obtain rfl := dec_eq_some_iff.1 hlf
    obtain ⟨hstart, hidle, hcell⟩ := levels_by_cell lf
    exact ⟨hstart, hidle, fun j hj => ⟨(hcell j hj).1, (hcell j hj).2.2⟩⟩
  · match ls, hlen with
    | a :: rest, hlen =>
      obtain rfl : a = true := by simpa using hstart
      obtain ⟨bits, hbits, rfl⟩ :=
        exists_cellSlices (n := lbits) (Nat.succ.inj hlen) hidle fun j hj => by
          have hj' := hcell j hj
          rwa [Nat.add_comm 1, show 3 + 3 * j = 3 * j + 2 + 1 by omega] at hj'
      have hframe : true :: cellSlices bits = levels (wireFrame bits) := by
        rw [levels_eq, wireBits_wireFrame hbits]
      rw [dec_eq_some_iff.2 hframe, Option.isSome_some]
  · obtain rfl := dec_eq_some_iff.1 h
    obtain ⟨-, -, hcell⟩ := levels_by_cell lf
    exact ⟨levels_length lf, rfl, fun j hj => (hcell j hj).2.1⟩

/-! #### The shape of a Physical Frame (R102) -/

/-- A cell has one high slice, and one more for a bit that is 0. -/
theorem countP_cellSlices (bits : List Bool) :
    (cellSlices bits).countP (fun l => l) + bits.countP (fun bit => bit) = 2 * bits.length := by
  induction bits with
  | nil => rfl
  | cons bit bits ih => cases bit <;> simp <;> omega

/-- The ones of a frame, counted in wire order, from the other end. -/
theorem countP_wireBits (lf : LogicalFrame) :
    (wireBits lf).countP (fun bit => bit) = onesOf lf := by
  have hrev : wireBits lf = ((List.range lbits).map fun j => lf.getLsbD j).reverse := rfl
  rw [hrev, List.countP_reverse, List.countP_map]
  rfl

/-- Settles O13: the start slice and the cells are counted, and `DEC` tells frames apart. -/
theorem physicalFrameShape : Obligations.PhysicalFrameShape := by
  intro lf
  obtain ⟨hstart, hidle, -⟩ := levels_by_cell lf
  refine ⟨levels_length lf, hstart, hidle, ?_, fun lf' hne heq => hne ?_⟩
  · have hcount := countP_cellSlices (wireBits lf)
    rw [countP_wireBits, length_wireBits] at hcount
    rw [levels_eq, List.countP_cons_of_pos rfl]
    unfold lbits at hcount
    omega
  · exact Option.some.inj ((dec_eq_some_iff.2 heq.symm).symm.trans (dec_eq_some_iff.2 rfl))

/-! #### `EXP` (R100, R103, R104) -/

/-- Settles O16: an unrecognised pin raises its fault, which a recorded one keeps out. -/
theorem expRaisesInvalidPin : Obligations.ExpRaisesInvalidPin := by
  intro s k pin lf hk hp
  have hraise : ∀ f, (if s.fault = .none then .invalidPin pin else s.fault) = f →
      Gives (.exp k pin lf) s { s with fault := f } := fun f hf =>
    exp_gives_iff.2 ⟨hk, by rw [expand_of_none hp, raise, hf]; rfl⟩
  exact ⟨fun h => hraise _ (if_pos h), fun h => hraise _ (if_neg h)⟩

/-- `EXP` on a recognised pin drives its lane with the Physical Frame (R100). -/
theorem exp_gives_driveLane {s : State} {k : Nat} {pin : Byte} {p b : Nat} (hk : k < s.cfg.nbuf)
    (hp : pinMap s.cfg pin = some (p, b)) (lf : LogicalFrame) :
    Gives (.exp k pin lf) s (driveLane k p b (levels lf) s) :=
  exp_gives_iff.2 ⟨hk, by rw [expand_of_some hp]; rfl⟩

/-- Settles O14: what driving one lane does to every mask and every lane. -/
theorem expDrivesOneLane : Obligations.ExpDrivesOneLane := by
  intro s k pin lf p b hs hk hpin
  obtain ⟨hp, hb⟩ := pinMap_range hpin
  refine ⟨_, exp_gives_driveLane hk hpin lf, rfl, fun k' p' b' =>
    ⟨lane_drvWord_driveLane hs hk hp hb .., fun τ hτ => ?_⟩⟩
  rw [lane_bufWord_driveLane hs hk hp hb (levels_length lf) _ _ _ hτ, levels_getD lf hτ]

/-- Settles O17, by `driveLane_comm`. -/
theorem expOrderIndependent : Obligations.ExpOrderIndependent := by
  intro s k pin₁ pin₂ lf₁ lf₂ ⟨p₁, b₁⟩ ⟨p₂, b₂⟩ hk h₁ h₂ hne
  refine ⟨_, _, _, exp_gives_driveLane hk h₁ lf₁, exp_gives_driveLane hk h₂ lf₂,
    exp_gives_driveLane (s := driveLane k p₁ b₁ (levels lf₁) s) hk h₂ lf₂, ?_⟩
  rw [driveLane_comm k hne.symm]
  exact exp_gives_driveLane (s := driveLane k p₂ b₂ (levels lf₂) s) hk h₁ lf₁

/-! #### The row of a well-formed configuration (R105, R107) -/

/-- Settles O20: the row `compose_wf` describes. -/
theorem composeBuildsRow : Obligations.ComposeBuildsRow := by
  intro s row hs hp hc
  obtain ⟨t, he, -, hf, -, hrow⟩ := compose_wf hs hp hc row
  refine ⟨t, congrArg outcomeOf he, hf, fun p b => ⟨?_, ?_, hrow.others p b⟩⟩
  · simp only [hrow.driven, StrandAt, and_assoc]
  · rintro i st ⟨hi, hpb⟩ ha
    exact hrow.frames i st p b hi hpb ha

/-! #### The slices on the wire (R102 (b)) -/

/-- Slices write the latches and the history only (R131). -/
theorem slicesOut_same (k n : Nat) (s : State) : SamePort s (slicesOut k n s) := by
  apply State.ext <;> simp

/-- `TXSYNC` gives a next state in `SYNC` mode only (R132). -/
theorem txsync_gives_iff {s t : State} :
    Gives .txsync s t ↔ s.cfg.mode = .sync ∧ txsync s = t := by
  simp only [Gives, exec, execTxsync]
  split <;> simp [*]

/-- Settles O25: after 80 slices every driven pin has the level of slice 79, the idle slice of a
Physical Frame. -/
theorem txsyncClocksOut : Obligations.TxsyncClocksOut := by
  intro s hs hm
  have hlast : ∀ p b, lane ((txsync s).portWord p) b
      = if lane (s.drvWord 0 p) b = true then lane (s.bufWord 0 p 79) b
        else lane (s.portWord p) b := lane_portWord_slicesOut hs 0 79
  refine ⟨txsync s, txsync_gives_iff.2 ⟨hm, rfl⟩, ?_, hlast, fun hf p b hd => ?_⟩
  · have hsame := slicesOut_same 0 frameSize s
    rwa [SamePort, slicesOut_history] at hsame
  · obtain ⟨lf, hlf⟩ := hf 0 p b hd
    rw [hlast, if_pos hd, hlf 79 (by decide)]
    exact lev_idle lf

/-! #### Driven lanes hold Physical Frames (R105, R107) -/

/-- The parts of every host command keep the shape and the frames. -/
theorem sound_parts (c : Config) (i : Instr) : KeptByParts i (Sound c) where
  answer _ _ h := h.congr rfl rfl rfl rfl rfl
  pixel _ _ _ _ _ _ h := h.congr rfl rfl rfl rfl rfl
  enable n v _ h := { h with shaped := h.shaped.setEnable n v }
  row _ _ _ h := h.congr rfl rfl rfl rfl rfl
  leave _ h := h.congr rfl rfl rfl rfl rfl
  compose row _ h := h.compose row
  broadcast v _ h := h.composeBroadcast v
  single a pin r g b v _ _ h := h.composeSingle a pin r g b v
  submit _ h := h.submit

/-- `EXP` keeps the lanes driven before it, and leaves a frame in the lane it drives (R105). -/
theorem Framed.expand {u : State} (h : Framed u) (hs : Shaped u) {k : Nat} (hk : k < u.cfg.nbuf)
    (pin : Byte) (lf : LogicalFrame) : Framed (expand k pin lf u).state := by
  rcases expand_cases k pin lf u with ⟨-, e⟩ | ⟨p, b, hpin, e⟩ <;> rw [e]
  · exact h.congr rfl rfl
  · obtain ⟨hp, hb⟩ := pinMap_range hpin
    exact h.driveLane hs hk hp hb lf

/-- `SLICEOUT` gives a next state for a buffer and a slice that exist only (R131). -/
theorem sliceout_gives_iff {k τ : Nat} {s t : State} :
    Gives (.sliceout k τ) s t ↔ k < s.cfg.nbuf ∧ τ < frameSize ∧ sliceout k τ s = t := by
  simp only [Gives, exec, execSliceout]
  split
  · split <;> simp [*]
  · simp [*]

/-- `TICK` gives a next state in `ISR` mode only (R135). -/
theorem tick_gives_iff {s t : State} : Gives .tick s t ↔ s.cfg.mode = .isr ∧ tickBody s = t := by
  simp only [Gives, exec, execTick]
  split <;> simp [*]

/-- `HANDOFF` gives a next state in `ISR` mode only, where it is what `SUBMIT` does (R117, R134). -/
theorem handoff_gives_iff {s t : State} :
    Gives .handoff s t ↔ s.cfg.mode = .isr ∧ (submit s).state = t := by
  simp only [Gives, exec, execHandoff, outcomeOf]
  split <;> simp [submit, *]

/-- Settles O52: a host command keeps the frames by its parts; of the internal operations `COMPOSE`
and `EXP` alone write masks and lanes. -/
theorem drivenLanesStayFrames : Obligations.DrivenLanesStayFrames := by
  intro i s t hs hf he
  have h0 : Sound s.cfg s := ⟨rfl, hs, hf⟩
  have hhost := fun hi => ((sound_parts s.cfg i).exec hi h0 he).framed
  cases i with
  | render | setint | send1 | wrpix | wren => exact hhost rfl
  | enc => cases he; exact hf.congr rfl rfl
  | exp k pin lf =>
    obtain ⟨hk, rfl⟩ := exp_gives_iff.1 he
    exact hf.expand hs hk pin lf
  | compose row => cases he; exact (h0.compose row).framed
  | wmb => obtain ⟨-, rfl⟩ := wmb_gives_iff.1 he; exact hf.congr rfl rfl
  | sliceout =>
    obtain ⟨-, -, rfl⟩ := sliceout_gives_iff.1 he
    exact hf.congr (sliceout_drv ..) (sliceout_buf ..)
  | txsync =>
    obtain ⟨-, rfl⟩ := txsync_gives_iff.1 he
    exact hf.congr (slicesOut_drv ..) (slicesOut_buf ..)
  | handoff => obtain ⟨-, rfl⟩ := handoff_gives_iff.1 he; exact h0.submit.framed
  | tick =>
    obtain ⟨-, rfl⟩ := tick_gives_iff.1 he
    exact hf.congr (tickBody_drv s) (tickBody_buf s)
  | submit => cases he; exact h0.submit.framed

end Sys2Proof.Machine
end

/-! ### Proofs: the Frame Scheduler and the host commands (42_frame_scheduler.md) -/

section
namespace Sys2Proof.Machine

/-! #### The taking of a command (R120, R137) -/

/-- A word the decoder knows runs as its command (R120). -/
theorem runWord_of_command {w : CommandWord} {i : Instr} (h : decode w = .command i) (s : State) :
    runWord w s = exec i s := by
  simp only [runWord, h]

/-- Settles O6: `step` asks first whether the tick is due; if not, the main path takes its word. -/
theorem stepRunsDecodedCommand : Obligations.StepRunsDecodedCommand := by
  intro s w rest i
  refine ⟨fun ht hh hc hd => ?_, fun ht => if_pos ht⟩
  rw [step_takes_word hc hh ht, runWord_of_command hd]
  rfl

/-! #### How a host command ends (R120, R122, R123) -/

section
variable {body : State → Res} {s t : State}

theorem runCommand_of_fault (h : s.fault ≠ .none) : runCommand body s = refuse .faulted s := by
  simp [runCommand, State.faulted, h]

theorem runCommand_of_ok (hf : s.fault = .none) (h : body s = .ok t) :
    runCommand body s = giveAnswer .ok t := by
  simp [runCommand, State.faulted, hf, h, finishCommand]

theorem runCommand_of_raised (hf : s.fault = .none) (h : body s = .raised t) :
    runCommand body s = giveAnswer (.fault t.fault) t := by
  simp [runCommand, State.faulted, hf, h, finishCommand]

end

/-- Settles O44: every host command looks at `FAULT` before it does anything else. -/
theorem faultedRefusesCommands : Obligations.FaultedRefusesCommands := by
  intro s i hf hi
  have hfaulted : s.faulted = true := decide_eq_true hf
  cases i with
  | render => exact congrArg _ (runCommand_of_fault hf)
  | setint => exact congrArg _ (runCommand_of_fault hf)
  | send1 => exact congrArg _ (runCommand_of_fault hf)
  | wrpix => exact congrArg _ (if_pos hfaulted)
  | wren => exact congrArg _ (if_pos hfaulted)
  | enc | exp | compose | wmb | sliceout | txsync | handoff | tick | submit => cases hi

/-! #### The writes of the inputs (R118, R119) -/

section
variable {s : State} (hf : s.fault = .none)
include hf

theorem wrpix_gives (x y r g b : Byte) :
    Gives (.wrpix x y r g b) s (writePixel x.toNat y.toNat { r := r, g := g, b := b } s) :=
  congrArg _ (if_neg (by simpa [State.faulted] using hf))

theorem wren_gives (n : Byte) (v : Bool) : Gives (.wren n v) s (writeEnable n.toNat v s) :=
  congrArg _ (if_neg (by simpa [State.faulted] using hf))

end

/-- Settles O42: an image written is read back as written (`imageRead_imageWrite`) and stays
canonical (`imageWrite_wf`). -/
theorem wrpixWritesOnePixel : Obligations.WrpixWritesOnePixel := by
  intro s x y r g b i hf hwf
  refine ⟨?_, fun hx hy => ⟨_, wrpix_gives hf .., ?_⟩, fun hout => ?_⟩
  · rw [decode_of_op_wrpix (fieldOp_packWord ..), fieldA_packWord, fieldP_packWord, fieldR_packWord,
      fieldG_packWord, fieldB_packWord]
  · rw [writePixel, if_pos ⟨hx, hy⟩]
    refine ⟨rfl, imageWrite_wf hwf .., fun x' y' => ?_⟩
    simpa only [State.pixel, giveAnswer_img, setImg_img, Prod.mk.injEq] using
      imageRead_imageWrite hwf x.toNat y.toNat x' y' ⟨r, g, b⟩
  · have hw := wrpix_gives hf x y r g b
    rwa [writePixel, if_neg (by omega)] at hw

/-- One flag of the list is written (10_state.md R23). -/
theorem getD_set_flag {l : List Bool} {n : Nat} (hn : n < l.length) (v : Bool) (j : Nat) :
    (l.set n v).getD j false = if j = n then v else l.getD j false := by
  by_cases hj : j = n
  · subst hj; simp [hn]
  · simp [List.getElem?_set_ne (Ne.symm hj), hj]

/-- Settles O43: the flag of a strand in the table is one of the list's. -/
theorem wrenSetsOneFlag : Obligations.WrenSetsOneFlag := by
  intro s n p r g b i hf hlen
  refine ⟨?_, fun v => ⟨fun hn => ⟨_, wren_gives hf .., ?_⟩, fun hn => ?_⟩⟩
  · rw [decode_of_op_wren (fieldOp_packWord ..), fieldA_packWord, fieldI_packWord]
  · rw [writeEnable, if_pos hn]
    exact ⟨rfl, getD_set_flag (by rwa [hlen]) v⟩
  · have hw := wren_gives hf n v
    rwa [writeEnable, if_neg (Nat.not_lt.2 hn)] at hw

/-! #### The frame of a composition (R112) -/

/-- What a composition may write, whichever buffer it composes. -/
theorem ComposeSame.eq {k : Nat} {s t : State} (h : ComposeSame k s t) :
    t = { s with lf := t.lf, sidx := t.sidx, draws := t.draws, fault := t.fault,
                 buf := t.buf, drv := t.drv } := by
  ext1
  case cfg => exact h.cfg
  case img => exact h.img
  case en => exact h.en
  case gi => exact h.gi
  case row => exact h.row
  case act => exact h.act
  case send => exact h.send
  case cur => exact h.cur
  case port => exact h.port
  case cmds => exact h.cmds
  case answers => exact h.answers
  case history => exact h.history
  case sched => exact h.sched
  case tickFires => exact h.tickFires
  case hung => exact h.hung
  all_goals rfl

/-- The composed buffer stays the same while it is composed. -/
theorem ComposeSame.composing {k : Nat} {s t : State} (h : ComposeSame k s t) :
    t.composing = s.composing := by
  unfold State.composing
  rw [h.cfg, h.act]

theorem TransportInv.composeSame {k : Nat} {s t : State} (h : TransportInv s)
    (hs : ComposeSame k s t) : TransportInv t :=
  h.congr hs.cfg hs.act hs.send hs.cur

theorem compose_same {row : Nat} {s t : State} (h : (compose row s).state = t) :
    ComposeSame s.composing s t :=
  h ▸ (compose_cases row s).2

theorem compose_gives_inj {row : Nat} {s t u : State} (h : compose row s = .ok t)
    (hg : Gives (.compose row) s u) : t = u :=
  Host.Outcome.next.inj ((congrArg outcomeOf h).symm.trans hg)

/-- Settles O19: `COMPOSE` ends ok or with a fault, and leaves the rest alone (`compose_cases`). -/
theorem composeFrame : Obligations.ComposeFrame := by
  intro s row
  have h := compose_same (row := row) (s := s) rfl
  exact ⟨_, rfl, h.eq, fun k hk p τ => ⟨h.otherDrv k hk p, h.otherBuf k hk p τ⟩⟩

/-! #### The loop over the strands, to its end or to the first that fails (R112, R114, R122) -/

theorem forStrands_append (body : Nat → Strand → State → Res) (i : Nat) (l m : List Strand)
    (u : State) : forStrands body i (l ++ m) u
      = (forStrands body i l u).andThen (forStrands body (i + l.length) m) := by
  induction l generalizing i u with
  | nil => rfl
  | cons st l ih =>
    have hlen : i + (st :: l).length = i + 1 + l.length := by simp only [List.length_cons]; omega
    rw [List.cons_append, forStrands, forStrands, Res.andThen_assoc, hlen]
    exact congrArg _ (funext fun v => ih (i + 1) v)

/-- A list around one of its elements. -/
theorem split_at_getElem? {α : Type} {l : List α} {i : Nat} {x : α} (h : l[i]? = some x) :
    l = l.take i ++ x :: l.drop (i + 1) ∧ (l.take i).length = i := by
  obtain ⟨hi, rfl⟩ := List.getElem?_eq_some_iff.1 h
  exact ⟨by simp, by simp; omega⟩

/-- An element before the `i`-th. -/
theorem getElem?_take_eq_some {α : Type} {l : List α} {i j : Nat} {x : α} :
    (l.take i)[j]? = some x ↔ j < i ∧ l[j]? = some x := by
  rw [List.getElem?_take]
  split <;> simp [*]

section
variable {cn : Counter} {k : Nat} {plan : Nat → Strand → LogicalFrame → StrandPlan}

/-- A loop none of whose plans fails runs to its end. -/
theorem forStrands_runs (i : Nat) (l : List Strand)
    (hok : ∀ j st, l[j]? = some st → ∀ lf f lf', plan (i + j) st lf ≠ .fail f lf') (u : State) :
    ∃ t, forStrands (planBody cn k plan) i l u = .ok t ∧ t.fault = u.fault := by
  induction l generalizing i u with
  | nil => exact ⟨u, rfl, rfl⟩
  | cons st l ih =>
    have hok' : ∀ j st', l[j]? = some st' → ∀ lf f lf', plan (i + 1 + j) st' lf ≠ .fail f lf' := by
      intro j st' hj
      rw [show i + 1 + j = i + (j + 1) by omega]
      exact hok (j + 1) st' (by simpa using hj)
    obtain ⟨n, hn⟩ := cn.mark_eq i u
    rw [forStrands, planBody, hn]
    cases hp : plan i st u.lf with
    | skip => exact ih (i + 1) hok' _
    | drive p b lf => exact ih (i + 1) hok' _
    | fail f lf => exact absurd hp (hok 0 st rfl _ _ _)

/-- A loop stops with the fault of the first strand whose plan fails. -/
theorem forStrands_stops {l : List Strand} {i : Nat} {st : Strand} {f : FaultRecord}
    (hi : l[i]? = some st)
    (hok : ∀ j st', j < i → l[j]? = some st' → ∀ lf f lf', plan j st' lf ≠ .fail f lf')
    (hf : ∀ lf, ∃ lf', plan i st lf = .fail f lf') (u : State) :
    ∃ t, forStrands (planBody cn k plan) 0 l u = .raised t ∧
      t.fault = if u.fault = .none then f else u.fault := by
  obtain ⟨hl, hlen⟩ := split_at_getElem? hi
  obtain ⟨v, hv, hvf⟩ := forStrands_runs (cn := cn) (k := k) (plan := plan) 0 (l.take i)
    (fun j st' hj => by
      obtain ⟨hj, hst⟩ := getElem?_take_eq_some.1 hj
      rw [Nat.zero_add]
      exact hok j st' hj hst) u
  obtain ⟨lf', hlf'⟩ := hf v.lf
  refine ⟨(raise f (setLf lf' (cn.mark i v))).state, ?_, ?_⟩
  · rw [hl, forStrands_append, hv, hlen, Nat.zero_add]
    simp only [Res.andThen]
    rw [forStrands, planBody, hlf']
    rfl
  · obtain ⟨n, hn⟩ := cn.mark_eq i v
    rw [hn, ← hvf]
    rfl

/-- The pins that a loop drives. -/
theorem planFrame_isSome_iff {p b : Nat} {lf0 : LogicalFrame} {l : List Strand} :
    (planFrame plan p b lf0 0 l).isSome = true ↔
      ∃ j st lf, l[j]? = some st ∧ plan j st lf0 = .drive p b lf := by
  constructor
  · intro h
    obtain ⟨lf, hlf⟩ := Option.isSome_iff_exists.1 h
    obtain ⟨j, st, hj, hp⟩ := planFrame_some hlf
    rw [Nat.zero_add] at hp
    exact ⟨j, st, lf, hj, hp⟩
  · rintro ⟨j, st, lf, hj, hp⟩
    by_contra h
    have := planFrame_none (Option.not_isSome_iff_eq_none.1 h) hj lf
    rw [Nat.zero_add] at this
    exact this hp

end

/-! #### Rows that meet a configuration fault (R112, R151 to R153) -/

/-- No strand meets a configuration fault in row `row`. -/
abbrev RowSound (s : State) (row : Nat) : Prop :=
  ∀ i st, s.cfg.strands[i]? = some st → StrandSound s row i st

/-- The fault of a strand that is not sound: its coordinates are checked before its pin (R112). -/
def strandFault (s : State) (row i : Nat) (st : Strand) : FaultRecord :=
  if (coordOf st row).1 < s.cfg.imgW ∧ (coordOf st row).2 < s.cfg.imgH then .invalidPin st.pin
  else .badCoord (strandInfo i)

theorem strandFault_ne_none (s : State) (row i : Nat) (st : Strand) :
    strandFault s row i st ≠ .none := by
  unfold strandFault
  split <;> nofun

section
variable {s : State} {row i : Nat} {st : Strand}

/-- A strand that is not sound takes part in the row. -/
theorem active_of_not_sound (h : ¬ StrandSound s row i st) : s.active row i st = true :=
  (Classical.not_imp.1 h).1

theorem composePlan_not_sound (h : ¬ StrandSound s row i st) (lf : LogicalFrame) :
    ∃ lf', composePlan s row i st lf = .fail (strandFault s row i st) lf' := by
  obtain ⟨ha, hn⟩ := Classical.not_imp.1 h
  unfold composePlan strandFault
  rw [if_pos ha]
  by_cases hc : (coordOf st row).1 < s.cfg.imgW ∧ (coordOf st row).2 < s.cfg.imgH
  · rw [if_pos hc, if_pos hc]
    rcases pinPlan_cases s.cfg st (rowFrame s row st) with ⟨p, b, hp, -⟩ | ⟨-, e⟩
    · exact absurd ⟨hc.1, hc.2, by simp [hp]⟩ hn
    · exact ⟨_, e⟩
  · rw [if_neg hc, if_neg hc]
    exact ⟨lf, rfl⟩

/-- A sound strand is driven if it takes part, and skipped if it does not. -/
theorem composePlan_sound (h : StrandSound s row i st) (lf : LogicalFrame) :
    (s.active row i st = true ∧ ∃ p b, pinMap s.cfg st.pin = some (p, b) ∧
      composePlan s row i st lf = .drive p b (rowFrame s row st)) ∨
    (s.active row i st = false ∧ composePlan s row i st lf = .skip) := by
  unfold composePlan
  cases ha : s.active row i st with
  | false => exact .inr ⟨rfl, rfl⟩
  | true =>
    obtain ⟨hx, hy, hp⟩ := h ha
    obtain ⟨⟨p, b⟩, hpb⟩ := Option.isSome_iff_exists.1 hp
    exact .inl ⟨rfl, p, b, hpb, by simp [hx, hy, pinPlan_of_some hpb]⟩

theorem composePlan_ne_fail (h : StrandSound s row i st) (lf : LogicalFrame) (f : FaultRecord)
    (lf' : LogicalFrame) : composePlan s row i st lf ≠ .fail f lf' := by
  rcases composePlan_sound h lf with ⟨-, p, b, -, e⟩ | ⟨-, e⟩ <;> rw [e] <;> nofun

/-- The pin a sound strand drives is its own, while it takes part. -/
theorem composePlan_eq_drive_iff (h : StrandSound s row i st) (lf : LogicalFrame) (p b : Nat) :
    (∃ lf', composePlan s row i st lf = .drive p b lf') ↔
      pinMap s.cfg st.pin = some (p, b) ∧ s.active row i st = true := by
  constructor
  · rintro ⟨lf', e⟩
    refine ⟨composePlan_drive e, ?_⟩
    rcases composePlan_sound h lf with ⟨ha, -⟩ | ⟨-, e'⟩
    · exact ha
    · rw [e'] at e; cases e
  · rintro ⟨hpb, ha⟩
    rcases composePlan_sound h lf with ⟨-, p', b', hpb', e⟩ | ⟨ha', -⟩
    · rw [hpb] at hpb'
      cases hpb'
      exact ⟨_, e⟩
    · rw [ha] at ha'; cases ha'

/-- `COMPOSE` of a row without faults ends ok (R112). -/
theorem compose_of_sound (h : RowSound s row) : ∃ t, compose row s = .ok t ∧ t.fault = s.fault := by
  obtain ⟨t, ht, hf⟩ := forStrands_runs (cn := .sidx) (k := s.composing) (plan := composePlan s row)
    0 s.cfg.strands (fun j st hj lf f lf' => by
      rw [Nat.zero_add]; exact composePlan_ne_fail (h j st hj) lf f lf')
    (clearDrv s.composing s)
  exact ⟨leaveSidx t, by rw [compose_eq, ht]; rfl, hf⟩

/-- `COMPOSE` stops with the fault of the first strand that is not sound (R112, R157). -/
theorem compose_stops (hi : s.cfg.strands[i]? = some st)
    (hbefore : ∀ j st', j < i → s.cfg.strands[j]? = some st' → StrandSound s row j st')
    (hn : ¬ StrandSound s row i st) : ∃ t, compose row s = .raised t ∧
      t.fault = if s.fault = .none then strandFault s row i st else s.fault := by
  obtain ⟨t, ht, hf⟩ := forStrands_stops (cn := .sidx) (k := s.composing) hi
    (fun j st' hj hst => composePlan_ne_fail (hbefore j st' hj hst)) (composePlan_not_sound hn)
    (clearDrv s.composing s)
  exact ⟨t, by rw [compose_eq, ht]; rfl, hf⟩

/-- `COMPOSE` of a row with a strand that is not sound raises a fault, the first such strand's. -/
theorem compose_raises (hf : s.fault = .none) (hi : s.cfg.strands[i]? = some st)
    (hn : ¬ StrandSound s row i st) : ∃ t, compose row s = .raised t ∧ t.fault ≠ .none := by
  induction i using Nat.strong_induction_on generalizing st with
  | _ i ih =>
    by_cases hb : ∀ j st', j < i → s.cfg.strands[j]? = some st' → StrandSound s row j st'
    · obtain ⟨t, ht, htf⟩ := compose_stops hi hb hn
      refine ⟨t, ht, ?_⟩
      rw [htf, if_pos hf]
      exact strandFault_ne_none s row i st
    · push Not at hb
      obtain ⟨j, st', hj, hst, hn'⟩ := hb
      exact ih j hj hst hn'

/-- What the strands before the first one that is not sound have driven (R112, R122). -/
theorem compose_stops_lanes (hs : Shaped s) (hi : s.cfg.strands[i]? = some st)
    (hbefore : ∀ j st', j < i → s.cfg.strands[j]? = some st' → StrandSound s row j st')
    (hn : ¬ StrandSound s row i st) : ∃ t, compose row s = .raised t ∧ t.sidx = i ∧
      t.fault = (if s.fault = .none then strandFault s row i st else s.fault) ∧
      ∀ p b, lane (t.drvWord s.composing p) b = true ↔
        ∃ j st', j < i ∧ StrandAt s j st' p b ∧ s.active row j st' = true := by
  obtain ⟨hl, hlen⟩ := split_at_getElem? hi
  have hsound : ∀ {j st'}, (s.cfg.strands.take i)[j]? = some st' → StrandSound s row j st' :=
    fun hj => hbefore _ _ (getElem?_take_eq_some.1 hj).1 (getElem?_take_eq_some.1 hj).2
  obtain ⟨t, ht, -, hf, hx, hlanes⟩ := forStrands_fail (cn := .sidx) (composePlan_well s row 0)
    (s.cfg.strands.take i) st (s.cfg.strands.drop (i + 1)) (hs.clearDrv s.composing)
    (clearDrv_cfg ..) trivial (composing_lt s)
    (fun j st' hj => composePlan_ne_fail (hsound hj) 0)
    (fun lf _ => by rw [hlen]; exact composePlan_not_sound hn lf)
  refine ⟨t, by rw [compose_eq, hl, ht]; rfl, (hx rfl).trans hlen, hf, fun p b => ?_⟩
  rw [(hlanes p b).1, drvWord_clearDrv, if_pos rfl, lane_zero, Bool.or_false, planFrame_isSome_iff]
  constructor
  · rintro ⟨j, st', lf, hj, e⟩
    obtain ⟨hpb, ha⟩ := (composePlan_eq_drive_iff (hsound hj) 0 p b).1 ⟨lf, e⟩
    obtain ⟨hji, hst⟩ := getElem?_take_eq_some.1 hj
    exact ⟨j, st', hji, ⟨hst, hpb⟩, ha⟩
  · rintro ⟨j, st', hji, ⟨hst, hpb⟩, ha⟩
    have hj := getElem?_take_eq_some.2 ⟨hji, hst⟩
    obtain ⟨lf, e⟩ := (composePlan_eq_drive_iff (hsound hj) 0 p b).2 ⟨hpb, ha⟩
    exact ⟨j, st', lf, hj, e⟩

end

/-- Settles O21: the loop stops at the first strand whose plan fails, and has driven those before
it. -/
theorem composeStopsAtFirstFault : Obligations.ComposeStopsAtFirstFault := by
  intro s row i st hs hf hi _ _ hbefore hn
  obtain ⟨t, ht, hx, htf, hlanes⟩ := compose_stops_lanes hs hi hbefore hn
  refine ⟨t, congrArg outcomeOf ht, hx, ?_, hlanes⟩
  rw [htf, if_pos hf, strandFault]
  split <;> rfl

/-! #### `SETINT` to a pin that is not recognised (R114, R152) -/

theorem broadcastPlan_enabled {s : State} {i : Nat} (h : s.enabled i = true) (st : Strand)
    (lf : LogicalFrame) : broadcastPlan s i st lf = pinPlan s.cfg st lf := if_pos h

theorem broadcastPlan_ne_fail {s : State} {i : Nat} {st : Strand}
    (h : s.enabled i = true → (pinMap s.cfg st.pin).isSome = true) (lf : LogicalFrame)
    (f : FaultRecord) (lf' : LogicalFrame) : broadcastPlan s i st lf ≠ .fail f lf' := by
  cases he : s.enabled i with
  | false => simp [broadcastPlan, he]
  | true =>
    obtain ⟨⟨p, b⟩, hpb⟩ := Option.isSome_iff_exists.1 (h he)
    rw [broadcastPlan_enabled he, pinPlan_of_some hpb]
    nofun

/-- Settles O39: the loop of the broadcast stops there, after `GI` has been written. -/
theorem setintInvalidPin : Obligations.SetintInvalidPin := by
  intro s value i st hf hi he hp hbefore
  have hfail : ∀ lf, ∃ lf', broadcastPlan s i st lf = .fail (.invalidPin st.pin) lf' := by
    intro lf
    rw [broadcastPlan_enabled he, pinPlan, hp]
    exact ⟨lf, rfl⟩
  obtain ⟨t, ht, htf⟩ := forStrands_stops (cn := .unseen) (k := s.composing) hi
    (fun j st' hj hst => broadcastPlan_ne_fail (hbefore j st' hj hst)) hfail
    (setLf (broadcastFrame s.cfg value) (clearDrv s.composing (setGi value s)))
  rw [← composeBroadcast_eq] at ht
  have htf : t.fault = .invalidPin st.pin := htf.trans (if_pos hf)
  have hsame : ComposeSame s.composing (setGi value s) t := by
    have := (composeBroadcast_cases value s).2
    rwa [ht] at this
  have hbody : setIntensity value s = .raised t := by rw [setIntensity, ht]; rfl
  refine ⟨_, congrArg Host.Outcome.next (runCommand_of_raised hf hbody), hsame.gi, htf, ?_,
    hsame.history, hsame.port, hsame.act, hsame.send, hsame.cur⟩
  rw [giveAnswer_answers, htf, hsame.answers]
  rfl

/-! #### The hand-over (R117, R132, R134) -/

/-- A hand-over in `SYNC` mode is `TXSYNC` (R117). -/
theorem submit_sync {s : State} (hm : s.cfg.mode = .sync) : submit s = .ok (txsync s) := by
  simp only [submit, hm]

/-- A hand-over in `ISR` mode that ends has armed the composed buffer, after ticks that left the
transport idle (R134, R136). -/
theorem submit_isr {s t : State} (hm : s.cfg.mode = .isr) (h : submit s = .ok t) :
    ∃ n rest, t = arm (setSched rest (ticks n s)) ∧ (ticks n s).send = false := by
  rcases submit_forms s with ⟨hm', -⟩ | ⟨-, n, rest, e, hd⟩ | ⟨-, n, e, -⟩
  · rw [hm] at hm'; cases hm'
  · rw [h] at e; cases e; exact ⟨n, rest, rfl, hd⟩
  · rw [h] at e; cases e

/-- What a hand-over that ends may write. -/
theorem submit_writes {s t : State} (h : submit s = .ok t) :
    t = { s with port := t.port, history := t.history, act := t.act, send := t.send, cur := t.cur,
                 sched := t.sched } := by
  cases hm : s.cfg.mode with
  | sync =>
    rw [submit_sync hm, Res.ok.injEq] at h
    rw [← h, txsync, slicesOut_same 0 frameSize s]
  | isr =>
    obtain ⟨n, rest, rfl, -⟩ := submit_isr hm h
    apply State.ext <;> simp

theorem submit_same_of_ok {s t : State} (h : submit s = .ok t) : SubmitSame s t := by
  have := submit_same s
  rwa [h] at this

theorem submit_gives_inj {s t u : State} (h : submit s = .ok t) (hg : Gives .submit s u) : t = u :=
  Host.Outcome.next.inj ((congrArg outcomeOf h).symm.trans hg)

/-- The buffer that has been armed starts at slice 0. -/
theorem arm_cur_of_idle {s : State} (hi : TransportInv s) {n : Nat} (hd : (ticks n s).send = false)
    (rest : List Nat) : (arm (setSched rest (ticks n s))).cur = 0 := by
  rw [arm_eq (by exact hd)]
  exact (hi.ticks n).idleCursor hd

/-- Settles O32: a hand-over ends as long as the tick fires (`submit_ends`), and ends as its MODE
says. -/
theorem submitHandsOver : Obligations.SubmitHandsOver := by
  intro s hi hl
  obtain ⟨t, ht⟩ := submit_ends hl hi.cursorRange
  have hg : (submit s).state = t := congrArg Res.state ht
  refine ⟨t, congrArg outcomeOf ht, submit_writes ht, fun hm => ?_, fun hm => ?_⟩
  · rw [submit_sync hm, Res.ok.injEq] at ht
    refine ⟨txsync_gives_iff.2 ⟨hm, ht⟩, ?_⟩
    rw [← ht]
    exact ⟨slicesOut_history .., slicesOut_send .., slicesOut_act ..⟩
  · refine ⟨handoff_gives_iff.2 ⟨hm, hg⟩, ?_⟩
    obtain ⟨n, rest, rfl, hd⟩ := submit_isr hm ht
    exact ⟨by simp, arm_send _, arm_cur_of_idle hi hd rest⟩

/-! #### The rows of a render, one after another (R111, R115) -/

/-- A hand-over will end: it waits for no tick, or ticks bring the frame in flight to its end. -/
def SubmitEnds (s : State) : Prop :=
  s.cfg.mode = .sync ∨ s.tickFires = true ∧ s.cur < frameSize + s.cfg.quietTicks

theorem SubmitEnds.of_live {s : State} (hi : TransportInv s) (hl : Live s) : SubmitEnds s :=
  hl.imp_right fun h => ⟨h, hi.cursorRange⟩

/-- A composition changes nothing the next hand-over waits for. -/
theorem SubmitEnds.composeSame {k : Nat} {s t : State} (h : SubmitEnds s) (hs : ComposeSame k s t) :
    SubmitEnds t := by
  unfold SubmitEnds
  rwa [hs.cfg, hs.tickFires, hs.cur]

/-- It ends, and so will the next one (60_exceptions.md R165). -/
theorem SubmitEnds.submit {s : State} (h : SubmitEnds s) :
    ∃ t, submit s = .ok t ∧ SubmitEnds t := by
  cases hm : s.cfg.mode with
  | sync => exact ⟨_, submit_sync hm, .inl (by simpa [txsync] using hm)⟩
  | isr =>
    obtain ⟨hf, hc⟩ := h.resolve_left (by rw [hm]; nofun)
    obtain ⟨t, ht⟩ := submit_ends (.inr hf) hc
    obtain ⟨n, rest, rfl, hd⟩ := submit_isr hm ht
    refine ⟨_, ht, .inr ⟨by simpa using hf, ?_⟩⟩
    rw [arm_eq (by exact hd)]
    simpa using cur_ticks_lt n hc

/-- Between two rows of a render that started in `s`. -/
structure BetweenRows (s u : State) : Prop extends SameInputs s u where
  ends    : SubmitEnds u
  fault   : u.fault = .none
  answers : u.answers = s.answers

theorem BetweenRows.refl {s : State} (h : SubmitEnds s) (hf : s.fault = .none) : BetweenRows s s :=
  ⟨⟨rfl, rfl, rfl, rfl⟩, h, hf, rfl⟩

theorem SameInputs.setRow {s u : State} (h : SameInputs s u) (row : Nat) :
    SameInputs s (setRow row u) := ⟨h.cfg, h.en, h.img, h.gi⟩

theorem SameInputs.trans {s t u : State} (h : SameInputs s t) (h' : SameInputs t u) :
    SameInputs s u :=
  ⟨h'.cfg.trans h.cfg, h'.en.trans h.en, h'.img.trans h.img, h'.gi.trans h.gi⟩

theorem SubmitSame.sameInputs {s t : State} (h : SubmitSame s t) : SameInputs s t :=
  ⟨h.cfg, h.en, h.img, h.gi⟩

/-- Which strands are sound depends on the configuration and the enable flags only. -/
theorem SameInputs.strandSound_iff {s u : State} (h : SameInputs s u) (row i : Nat) (st : Strand) :
    StrandSound u row i st ↔ StrandSound s row i st := by
  simp only [StrandSound, State.active, State.enabled, h.cfg, h.en]

/-- A row without faults is composed and handed over (R111, R112, R117). -/
theorem BetweenRows.row {s u : State} (h : BetweenRows s u) {row : Nat} (hrow : RowSound s row) :
    ∃ w v, compose row (setRow row u) = .ok w ∧ w.fault = .none ∧ submit w = .ok v ∧
      BetweenRows s v := by
  have hset := h.toSameInputs.setRow row
  obtain ⟨w, hw, hwf⟩ := compose_of_sound (s := setRow row u) (row := row) fun i st hi =>
    (hset.strandSound_iff row i st).2 (hrow i st (h.cfg ▸ hi))
  have hwf : w.fault = .none := hwf.trans h.fault
  have hsame := compose_same (congrArg Res.state hw)
  obtain ⟨v, hv, hends⟩ := (SubmitEnds.composeSame (s := setRow row u) h.ends hsame).submit
  have hsub := submit_same_of_ok hv
  exact ⟨w, v, hw, hwf, hv, (hset.trans hsame.toSameInputs).trans hsub.sameInputs, hends,
    hsub.fault.trans hwf, (hsub.answers.trans hsame.answers).trans h.answers⟩

/-- As long as no row faults the rows are handed over, and the render goes on after them (R111). -/
theorem rows_handed_over {s : State} (h : BetweenRows s s) {r : Nat}
    (hrows : ∀ row, row < r → RowSound s row) :
    ∃ u, RowsHandedOver r s u ∧ BetweenRows s u ∧
      ∀ n, renderRows (n + r) 0 s = renderRows n r u := by
  induction r with
  | zero => exact ⟨s, rfl, h, fun _ => rfl⟩
  | succ r ih =>
    obtain ⟨u, hu, hb, hrun⟩ := ih fun row hlt => hrows row (by omega)
    obtain ⟨w, v, hw, hwf, hv, hbv⟩ := hb.row (hrows r (by omega))
    refine ⟨v, ⟨u, w, hu, congrArg outcomeOf hw, hwf, congrArg outcomeOf hv⟩, hbv, fun n => ?_⟩
    rw [show n + (r + 1) = n + 1 + r by omega, hrun, renderRows, renderRow, hw]
    simp only [Res.andThen, hv]

/-- A render that has handed over its last row leaves the loop and ends ok (R111, R123). -/
theorem render_ends {s u : State} (hs : s.fault = .none)
    (hrun : ∀ n, renderRows (n + maxlen s.cfg) 0 s = renderRows n (maxlen s.cfg) u) :
    Gives .render s (giveAnswer .ok (leaveRow u)) := by
  have hr : render s = .ok (leaveRow u) := by
    have := hrun 0
    rwa [Nat.zero_add] at this
  exact congrArg Host.Outcome.next (runCommand_of_ok hs hr)

/-- A render none of whose rows faults ends ok, every row handed over (R111, R115). -/
theorem render_of_sound {s : State} (h : BetweenRows s s)
    (hrows : ∀ row, row < maxlen s.cfg → RowSound s row) :
    ∃ u, RowsHandedOver (maxlen s.cfg) s u ∧ BetweenRows s u ∧
      Gives .render s (giveAnswer .ok (leaveRow u)) := by
  obtain ⟨u, hu, hb, hrun⟩ := rows_handed_over h hrows
  exact ⟨u, hu, hb, render_ends h.fault hrun⟩

/-- A render that comes to a row with a fault composes it up to the fault and ends there (R111,
R122). -/
theorem render_stops {s u : State} {r i : Nat} {st : Strand} (hs : s.fault = .none)
    (hrun : ∀ n, renderRows (n + r) 0 s = renderRows n r u) (hsame : SameInputs s u)
    (hu : u.fault = .none) (hi : s.cfg.strands[i]? = some st) (hn : ¬ StrandSound s r i st) :
    ∃ w, compose r (setRow r u) = .raised w ∧ w.fault ≠ .none ∧
      ComposeSame (setRow r u).composing (setRow r u) w ∧
      Gives .render s (giveAnswer (.fault w.fault) w) := by
  have hset := hsame.setRow r
  obtain ⟨w, hw, hwf⟩ := compose_raises (s := setRow r u) (row := r) hu
    (hsame.cfg.symm ▸ hi : u.cfg.strands[i]? = some st)
    (fun h => hn ((hset.strandSound_iff r i st).1 h))
  have hlt : r < maxlen s.cfg := by
    have ha := active_of_not_sound hn
    simp only [State.active, Bool.and_eq_true, decide_eq_true_eq] at ha
    exact lt_of_lt_of_le ha.2 (length_le_maxlen hi)
  have hr : render s = .raised w := by
    obtain ⟨n, hlen⟩ := Nat.exists_eq_add_of_lt hlt
    rw [render, show maxlen s.cfg = n + 1 + r by omega, hrun, renderRows, renderRow, hw]
    rfl
  exact ⟨w, hw, hwf, compose_same (congrArg Res.state hw),
    congrArg Host.Outcome.next (runCommand_of_raised hs hr)⟩

/-- Settles O58: the rows are handed over (`rows_handed_over`) until the render leaves the loop
(`render_ends`) or comes to a row that faults (`render_stops`). -/
theorem renderHandsOverRowByRow : Obligations.RenderHandsOverRowByRow := by
  intro s r hi hl hf _ hrows
  obtain ⟨u, hu, hb, hrun⟩ := rows_handed_over (.refl (.of_live hi hl) hf) hrows
  refine ⟨u, hu, fun hr => ?_, fun i st hst hn => ?_⟩
  · subst hr
    refine ⟨_, render_ends hf hrun, ?_⟩
    rw [← hb.answers]
    rfl
  · obtain ⟨w, hw, hwf, hs, hg⟩ := render_stops hf hrun hb.toSameInputs hb.fault hst hn
    refine ⟨w, _, congrArg outcomeOf hw, hwf, hg, ?_, hs.history, hs.port, hs.act, hs.send, hs.cur⟩
    rw [← hb.answers, ← show w.answers = u.answers from hs.answers]
    rfl

/-- Settles O40: the render comes to row 0 before it hands anything over. -/
theorem renderFaultTransmitsNothing : Obligations.RenderFaultTransmitsNothing := by
  intro s i st hf hi _ hn
  obtain ⟨w, -, hwf, hs, hg⟩ := render_stops hf (fun _ => rfl) ⟨rfl, rfl, rfl, rfl⟩ hf hi hn
  refine ⟨_, hg, hwf, ?_, hs.history, hs.port, hs.act, hs.send, hs.cur⟩
  rw [giveAnswer_answers, hs.answers]
  rfl

/-! #### `SEND1` (R116) -/

/-- The composition of a single frame is an expansion into cleared masks (R116). -/
theorem composeSingle_eq (a pin r g b v : Byte) (s : State) :
    composeSingle a pin r g b v s = expand s.composing pin (frameOf a.toNat r g b v)
      (setLf (frameOf a.toNat r g b v) (clearDrv s.composing s)) := rfl

/-- Settles O38: `EXP` raises its fault after the masks have been cleared and `LF` written. -/
theorem sendOneInvalidPin : Obligations.SendOneInvalidPin := by
  intro s a pin r g b v hf hp
  have hbody : sendSingle a pin r g b v s = .raised (setFault (.invalidPin pin)
      (setLf (frameOf a.toNat r g b v) (clearDrv s.composing s))) := by
    rw [sendSingle, composeSingle_eq, expand_of_none (by exact hp), raise, if_pos (by exact hf)]
    rfl
  refine ⟨_, congrArg Host.Outcome.next (runCommand_of_raised hf hbody), rfl, fun k p => ?_⟩
  exact (drvWord_clearDrv s s.composing k p).trans (if_congr eq_comm rfl rfl)

/-- `v` holds a composition with the one lane `(p, n)` driven, by the frame `lf` (R116). -/
structure OneLane (s v : State) (p n : Nat) (lf : LogicalFrame) : Prop where
  shaped : Shaped v
  same   : ComposeSame s.composing s v
  mask   : ∀ q m, lane (v.drvWord s.composing q) m = decide (q = p ∧ m = n)
  frame  : ∀ τ, τ < frameSize → lane (v.bufWord s.composing p τ) n = lev lf τ

/-- The composition of a single frame on a recognised pin drives that pin alone (R116). -/
theorem composeSingle_oneLane {s : State} (hs : Shaped s) {pin : Byte} {p n : Nat}
    (hp : pinMap s.cfg pin = some (p, n)) (a r g b v : Byte) :
    ∃ u, composeSingle a pin r g b v s = .ok u ∧ OneLane s u p n (frameOf a.toNat r g b v) ∧
      u.lf = frameOf a.toNat r g b v ∧ u.sidx = s.sidx ∧ u.fault = s.fault := by
  have hc := (composeSingle_eq a pin r g b v s).trans (expand_of_some hp)
  have hsame := (composeSingle_cases a pin r g b v s).2
  rw [hc] at hsame
  obtain ⟨hrp, hrn⟩ := pinMap_range hp
  have hk := composing_lt s
  have hlf : Shaped (setLf (frameOf a.toNat r g b v) (clearDrv s.composing s)) :=
    (hs.clearDrv _).setLf _
  refine ⟨_, hc, ⟨hlf.driveLane _ p n (levels_length _), hsame, fun q m => ?_, fun τ hτ => ?_⟩,
    rfl, rfl, rfl⟩
  · have hz : (setLf (frameOf a.toNat r g b v) (clearDrv s.composing s)).drvWord s.composing q
        = 0 := (drvWord_clearDrv ..).trans (if_pos rfl)
    rw [lane_drvWord_driveLane hlf hk hrp hrn, hz, lane_zero, Bool.or_false]
    simp only [true_and]
  · rw [lane_bufWord_driveLane hlf hk hrp hrn (levels_length _) _ _ _ hτ, if_pos ⟨rfl, rfl, rfl⟩,
      levels_getD _ hτ]

/-! #### What reaches the pins -/

/-- A change of nothing the transport reads. -/
theorem wireLevels_same {s u : State} (hi : TransportInv s) (hcfg : u.cfg = s.cfg)
    (hact : u.act = s.act) (hsend : u.send = s.send) (hcur : u.cur = s.cur)
    (hh : u.history = s.history) (hd : u.drv = s.drv) (hb : u.buf = s.buf) (p b : Nat) :
    wireLevels u p b = wireLevels s p b :=
  wireLevels_congr hi.cursorRange hcfg hact hsend hcur hh
    (fun _ p => by rw [State.drvWord, hd]; rfl) (fun _ p t => by rw [State.bufWord, hb]; rfl) p b

/-- The end of a host command puts nothing on a pin. -/
theorem wireLevels_giveAnswer {s : State} (hi : TransportInv s) (a : Answer) (p b : Nat) :
    wireLevels (giveAnswer a s) p b = wireLevels s p b :=
  wireLevels_same (u := giveAnswer a s) hi rfl rfl rfl rfl rfl rfl rfl p b

/-- A composition with one lane driven, handed over (R116, R117). -/
theorem OneLane.submit {s v : State} {p n : Nat} {lf : LogicalFrame} (h : OneLane s v p n lf)
    (hi : TransportInv s) (hl : Live s) :
    ∃ w, submit v = .ok w ∧ SubmitSame v w ∧ TransportInv w ∧ ∀ q m,
      wireLevels w q m = wireLevels s q m ++ if q = p ∧ m = n then levels lf else [] := by
  have hsame := h.same
  have htv := hi.composeSame hsame
  obtain ⟨w, hw, -⟩ := ((SubmitEnds.of_live hi hl).composeSame hsame).submit
  have htw := htv.submit
  rw [hw] at htw
  refine ⟨w, hw, submit_same_of_ok hw, htw, fun q m => ?_⟩
  rw [submit_wire h.shaped htv hw, wireLevels_composeSame hi hsame, hsame.composing, h.mask]
  by_cases hqm : q = p ∧ m = n
  · obtain ⟨rfl, rfl⟩ := hqm
    simp only [and_self, decide_true, if_true]
    exact congrArg _ (List.map_congr_left fun τ hτ => h.frame τ (List.mem_range.1 hτ))
  · simp [hqm]

/-- Settles O37: the named pin's lane is the one lane of the composition, and it holds the frame. -/
theorem sendOneDrivesOnePin : Obligations.SendOneDrivesOnePin := by
  intro s a pin r g b v p n hinv hl hf hp
  obtain ⟨u, hu, hone, hlf, hx, huf⟩ := composeSingle_oneLane hinv.toShaped hp a r g b v
  obtain ⟨w, hw, hsub, htw, hwire⟩ := hone.submit hinv.toTransportInv hl
  have hbody : sendSingle a pin r g b v s = .ok w := by rw [sendSingle, hu]; exact hw
  refine ⟨_, congrArg Host.Outcome.next (runCommand_of_ok hf hbody), ?_,
    hsub.fault.trans (huf.trans hf), hsub.lf.trans hlf, hsub.gi.trans hone.same.gi,
    hsub.row.trans hone.same.row, hsub.sidx.trans hx, fun q m => ?_⟩
  · rw [giveAnswer_answers, hsub.answers, hone.same.answers]
  · exact (wireLevels_giveAnswer htw .ok q m).trans (hwire q m)

/-- Settles O36: the broadcast is composed on the pins of the enabled strands and handed over. -/
theorem setintBroadcasts : Obligations.SetintBroadcasts := by
  intro s value hinv hl hf hpins
  obtain ⟨v, hv, hvs, hvf, hsame, hcomp⟩ := composeBroadcast_sound hinv.toShaped hpins value
  have hset : TransportInv (setGi value s) := hinv.toTransportInv.congr rfl rfl rfl rfl
  obtain ⟨w, hw, -, htw, hsub, hon, hoff⟩ :=
    submit_composed (u := setGi value s) hsame hvs hset
      ⟨hcomp.driven, hcomp.frames, hcomp.others⟩ hl
  have hbody : setIntensity value s = .ok w := by rw [setIntensity, hv]; exact hw
  have hgi : ∀ p b, wireLevels (setGi value s) p b = wireLevels s p b :=
    wireLevels_same hinv.toTransportInv rfl rfl rfl rfl rfl rfl rfl
  refine ⟨_, broadcastFrame s.cfg value, congrArg Host.Outcome.next (runCommand_of_ok hf hbody),
    hsub.gi.trans hsame.gi, ?_, hsub.fault.trans (hvf.trans hf), frameAddr_frameOf ..,
    frameInten_frameOf .., fun p b => ⟨?_, fun hno => ?_⟩⟩
  · rw [giveAnswer_answers, hsub.answers, hsame.answers]
    rfl
  · rintro ⟨i, st, ⟨hi, hpb⟩, he⟩
    have := hon i st p b hi hpb he
    rw [hgi] at this
    exact (wireLevels_giveAnswer htw .ok p b).trans this
  · have := hoff p b fun i st hi hpb => hno i st ⟨hi, hpb⟩
    rw [hgi] at this
    exact (wireLevels_giveAnswer htw .ok p b).trans this

/-! #### The waveform of a render (R111 to R113, R133, R140) -/

/-- After `n` rows of a render that started in `s`: each strand's pin has had a frame for each row
in which the strand takes part, no other pin has had any. -/
structure RowsSent (s : State) (n : Nat) (u : State) : Prop extends SameInputs s u where
  shaped    : Shaped u
  transport : TransportInv u
  fires     : u.tickFires = s.tickFires
  sent      : ∀ i st p b, StrandAt s i st p b → wireLevels u p b = wireLevels s p b ++
    (List.range n).flatMap fun row =>
      if s.active row i st = true then levels (pixelFrame s row st) else []
  others    : ∀ p b, NoStrandAt s p b → wireLevels u p b = wireLevels s p b

/-- Who takes part, and with which frame, depends on the inputs only. -/
theorem SameInputs.active {s u : State} (h : SameInputs s u) (row i : Nat) (st : Strand) :
    u.active row i st = s.active row i st := by
  simp only [State.active, State.enabled, h.en]

theorem SameInputs.rowFrame {s u : State} (h : SameInputs s u) (row : Nat) (st : Strand) :
    rowFrame u row st = pixelFrame s row st := by
  simp only [Machine.rowFrame, pixelFrame, State.pixel, h.img, h.gi]

/-- One row more. -/
theorem RowsSent.row {s v w u : State} {n : Nat} (h : RowsSent s n v) (hl : Live s)
    (hp : portsWellFormed s.cfg = true) (hc : configWellFormed s.cfg = true)
    (hw : Gives (.compose n) { v with row := n } w) (hu : Gives .submit w u) :
    RowsSent s (n + 1) u := by
  have hin := h.toSameInputs.setRow n
  have hset : TransportInv (setRow n v) := h.transport.congr rfl rfl rfl rfl
  have hrow : ∀ p b, wireLevels (setRow n v) p b = wireLevels v p b :=
    wireLevels_same h.transport rfl rfl rfl rfl rfl rfl rfl
  have hlive : Live (setRow n v) := by
    unfold Live at *
    rwa [hin.cfg, setRow_tickFires, h.fires]
  obtain ⟨w', hw', hsh, -, hsame, hcomp⟩ := compose_wf (s := setRow n v)
    (h.shaped.congr rfl rfl rfl rfl rfl) (hin.cfg.symm ▸ hp) (hin.cfg.symm ▸ hc) n
  obtain ⟨u', hu', hsu, htu, hsub, hon, hoff⟩ := submit_composed hsame hsh hset hcomp hlive
  obtain rfl : w' = w := compose_gives_inj hw' hw
  obtain rfl : u' = u := submit_gives_inj hu' hu
  refine ⟨(hin.trans hsame.toSameInputs).trans hsub.sameInputs, hsu, htu,
    (hsub.tickFires.trans hsame.tickFires).trans h.fires, fun i st p b hst => ?_, fun p b hno => ?_⟩
  · have hi : (setRow n v).cfg.strands[i]? = some st := hin.cfg.symm ▸ hst.1
    have hpb : pinMap (setRow n v).cfg st.pin = some (p, b) := hin.cfg.symm ▸ hst.2
    rw [List.range_succ, List.flatMap_append, ← List.append_assoc, ← h.sent i st p b hst, ← hrow,
      List.flatMap_singleton, ← hin.active, ← hin.rowFrame]
    cases ha : (setRow n v).active n i st with
    | true => exact hon i st p b hi hpb ha
    | false =>
      refine (hoff p b fun j st' hj hpb' => ?_).trans (List.append_nil _).symm
      obtain rfl := strand_unique (hin.cfg.symm ▸ hp) (hin.cfg.symm ▸ hc) hi hj hpb hpb'
      rw [hi] at hj
      cases hj
      exact ha
  · rw [hoff p b fun j st' hj hpb => (hno j st' ⟨hin.cfg ▸ hj, hin.cfg ▸ hpb⟩).elim, hrow]
    exact h.others p b hno

/-- What rows that have been handed over have sent. -/
theorem rowsSent_of_handedOver {s : State} (hs : Shaped s) (hi : TransportInv s) (hl : Live s)
    (hp : portsWellFormed s.cfg = true) (hc : configWellFormed s.cfg = true) {n : Nat} {u : State}
    (h : RowsHandedOver n s u) : RowsSent s n u := by
  induction n generalizing u with
  | zero =>
    obtain rfl : u = s := h
    exact ⟨⟨rfl, rfl, rfl, rfl⟩, hs, hi, rfl, fun _ _ _ _ _ => (List.append_nil _).symm,
      fun _ _ _ => rfl⟩
  | succ n ih =>
    obtain ⟨v, w, hv, hw, -, hu⟩ := h
    exact (ih hv).row hl hp hc hw hu

/-- The rows in which a strand takes part: those it is long enough for, if it is enabled (R113). -/
theorem flatMap_active {α : Type} (s : State) (i : Nat) {st : Strand} {n : Nat} (hn : st.length ≤ n)
    (f : Nat → List α) :
    ((List.range n).flatMap fun row => if s.active row i st = true then f row else [])
      = if s.enabled i = true then (List.range st.length).flatMap f else [] := by
  cases he : s.enabled i with
  | false => simp [State.active, he]
  | true =>
    obtain ⟨m, rfl⟩ := Nat.exists_eq_add_of_le hn
    have hin : ((List.range st.length).flatMap fun row =>
        if s.active row i st = true then f row else []) = (List.range st.length).flatMap f := by
      apply List.flatMap_congr
      intro row hrow
      simp [State.active, he, List.mem_range.1 hrow]
    have hout : ((List.range m).map (st.length + ·)).flatMap (fun row =>
        if s.active row i st = true then f row else []) = [] := by
      simp [State.active, he]
    rw [List.range_add, List.flatMap_append, hin, hout, List.append_nil, if_pos rfl]

/-- No row faults under a well-formed configuration (R10, R152, R153). -/
theorem rowSound_of_wf {s : State} (hc : configWellFormed s.cfg = true) (row : Nat) :
    RowSound s row := by
  intro i st hi ha
  obtain ⟨⟨p, b, hpb⟩, hcoord⟩ := strand_sound hc hi
  simp only [State.active, Bool.and_eq_true, decide_eq_true_eq] at ha
  exact ⟨(hcoord row ha.2).1, (hcoord row ha.2).2, by simp [hpb]⟩

/-- Settles O35: every row is handed over (`render_of_sound`), and the rows have sent their frames
(`rowsSent_of_handedOver`). -/
theorem renderWaveform : Obligations.RenderWaveform := by
  intro s hinv hl hp hc hf
  have hi := hinv.toTransportInv
  obtain ⟨u, hu, hb, hg⟩ := render_of_sound (.refl (.of_live hi hl) hf)
    fun row _ => rowSound_of_wf hc row
  have hsent := rowsSent_of_handedOver hinv.toShaped hi hl hp hc hu
  have hend : ∀ p b, wireLevels (giveAnswer .ok (leaveRow u)) p b = wireLevels u p b :=
    wireLevels_same hsent.transport rfl rfl rfl rfl rfl rfl rfl
  refine ⟨_, hg, ?_, hb.fault, fun i st p b hst => ?_, fun p b hno => ?_⟩
  · rw [← hb.answers]
    rfl
  · refine (hend p b).trans ((hsent.sent i st p b hst).trans (congrArg _ ?_))
    exact flatMap_active s i (length_le_maxlen hst.1) _
  · exact (hend p b).trans (hsent.others p b hno)

/-! #### The events of a hand-over (R131 to R136, R140) -/

/-- What ticks that leave the transport idle have recorded: the rest of the frame in flight, then
idle ticks (R135, R136). -/
theorem ticks_history_of_idle {s : State} (hi : TransportInv s) {n : Nat}
    (hd : (ticks n s).send = false) :
    ∃ m, (ticks n s).history = (clockedOut s).history ++ List.replicate m .idleTick := by
  unfold clockedOut
  cases hs : s.send with
  | false => exact ⟨n, by rw [ticks_idle n hs]; rfl⟩
  | true =>
    refine ⟨n - ticksLeft s, ?_⟩
    rw [ticks_past hs hi.cursorRange (ticksLeft_le_of_send hs hi.cursorRange hd)]
    rfl

/-- A buffer that has been armed puts out its 80 slices, then the quiet ticks (R135). -/
theorem clockedOut_armed_history {s : State} (hs : s.send = true) (hc : s.cur = 0) :
    (clockedOut s).history = s.history ++ slicesEvents s s.act.toNat 0 frameSize
      ++ List.replicate s.cfg.quietTicks .quietTick := by
  have hleft : ticksLeft s = frameSize + s.cfg.quietTicks := by rw [ticksLeft, hc, Nat.sub_zero]
  rw [clockedOut_history (by rw [hc]; simp [frameSize]), hs, if_pos rfl, flightEvents_eq, hc, hleft,
    Nat.sub_zero, Nat.min_eq_right (Nat.le_add_right ..), Nat.add_sub_cancel_left,
    List.append_assoc]

/-- The quiet ticks after a frame: `QUIET_TICKS` in `ISR` mode, none in `SYNC` mode (R132, R135). -/
def quietAfter (c : Config) : Nat :=
  match c.mode with
  | .sync => 0
  | .isr => c.quietTicks

/-- A hand-over puts the 80 slices of the composed buffer after what was in flight, idle ticks
before them, quiet ticks after them (R132 to R135). -/
theorem submit_history {s t : State} (hi : TransportInv s) (h : submit s = .ok t) :
    ∃ n, (clockedOut t).history = (clockedOut s).history ++ List.replicate n .idleTick
        ++ slicesEvents s s.composing 0 frameSize ++ List.replicate (quietAfter s.cfg) .quietTick ∧
      (s.cfg.mode = .sync → n = 0) := by
  cases hm : s.cfg.mode with
  | sync =>
    have hs := (hi.syncZero hm).2.1
    rw [submit_sync hm, Res.ok.injEq] at h
    refine ⟨0, ?_, fun _ => rfl⟩
    rw [← h]
    simp [clockedOut, txsync, hs, State.composing, quietAfter, hm]
  | isr =>
    obtain ⟨n, rest, rfl, hd⟩ := submit_isr hm h
    obtain ⟨m, hticks⟩ := ticks_history_of_idle hi hd
    have hk : s.composing = (1 - s.act).toNat := by simp [State.composing, hm]
    refine ⟨m + rest.headD 0, ?_, nofun⟩
    rw [clockedOut_armed_history (arm_send _) (arm_cur_of_idle hi hd rest)]
    have hslices : ∀ k, slicesEvents (arm (setSched rest (ticks n s))) k 0 frameSize
        = slicesEvents s k 0 frameSize := fun k =>
      slicesEvents_congr (by simp) (fun p => by simp [State.drvWord])
        (fun p τ => by simp [State.bufWord]) _ _
    have harm : (arm (setSched rest (ticks n s))).history
        = (ticks n s).history ++ List.replicate (rest.headD 0) .idleTick := by
      rw [arm_eq (by exact hd)]
      rfl
    rw [hslices, harm, hticks, List.replicate_add, ← List.append_assoc]
    simp [hk, quietAfter, hm]

/-- A composition records nothing, and what is in flight does not depend on it (R42 (c)). -/
theorem clockedOut_history_composeSame {s t : State} (hi : TransportInv s)
    (h : ComposeSame s.composing s t) : (clockedOut t).history = (clockedOut s).history := by
  rw [clockedOut_history hi.cursorRange, clockedOut_history (hi.composeSame h).cursorRange,
    h.history, h.send]
  cases hs : s.send with
  | false => rfl
  | true =>
    have hne := act_ne_composing hi hs
    rw [flightEvents_eq, flightEvents_eq, h.act, h.cur,
      slicesEvents_congr h.cfg (h.otherDrv _ hne) (h.otherBuf _ hne), ticksLeft, ticksLeft, h.cur,
      h.cfg]

/-! #### Events that change no latch (R130) -/

/-- The latches have changed since `s` as the events recorded since `s` say. -/
def LatchesFrom (s u : State) : Prop :=
  u.cfg = s.cfg ∧ ∃ new, u.history = s.history ++ new ∧
    u.port = new.foldl (applyEvent s.cfg.portWidth) s.port

theorem LatchesFrom.refl (s : State) : LatchesFrom s s := ⟨rfl, [], (List.append_nil _).symm, rfl⟩

/-- A change of the latches that is recorded as the event that makes it. -/
theorem LatchesFrom.event {s u v : State} (h : LatchesFrom s u) (e : Event) (hc : v.cfg = u.cfg)
    (hh : v.history = u.history ++ [e]) (hp : v.port = applyEvent u.cfg.portWidth u.port e) :
    LatchesFrom s v := by
  obtain ⟨hcfg, new, hnew, hport⟩ := h
  refine ⟨hc.trans hcfg, new ++ [e], ?_, ?_⟩
  · rw [hh, hnew, List.append_assoc]
  · rw [hp, hport, hcfg, List.foldl_append]
    rfl

/-- `WMB` and the ticks record an event; every other action writes neither latches nor history. -/
theorem latchesFrom_kept (s : State) : KeptByActions (LatchesFrom s) where
  answer _ _ h := h
  gi _ _ h := h
  en _ _ h := h
  img _ _ h := h
  lf _ _ h := h
  row _ _ h := h
  sidx _ _ h := h
  draw _ h := h
  fault _ _ h := h
  clear _ _ h := h
  drive _ _ _ _ _ h := h
  write p m v _ h := h.event (.wmb p m v) rfl rfl rfl
  idle _ h := h.event .idleTick rfl rfl rfl
  quiet _ h := h.event .quietTick rfl rfl rfl
  act _ _ h := h
  send _ _ h := h
  cur _ _ h := h
  sched _ _ h := h
  hung _ _ h := h

theorem LatchesFrom.clockedOut {s u : State} (h : LatchesFrom s u) :
    LatchesFrom s (clockedOut u) := by
  unfold Machine.clockedOut
  split
  · exact (latchesFrom_kept s).ticks _ h
  · exact h

theorem Shaped.clockedOut {s : State} (h : Shaped s) : Shaped (clockedOut s) := by
  unfold Machine.clockedOut
  split
  · exact h.ticks _
  · exact h

/-- An event that drives no pin: a port write with an empty mask, or a tick that writes nothing. -/
def DrivesNone : Event → Prop
  | .wmb _ mask _ => mask = 0
  | .idleTick => True
  | .quietTick => True

theorem applyEvent_drivesNone {w : Nat} {port : List PortWord} (hw : ∀ x ∈ port, x < 2 ^ w)
    {e : Event} (he : DrivesNone e) : applyEvent w port e = port := by
  cases e with
  | idleTick => rfl
  | quietTick => rfl
  | wmb p mask bits =>
    have hm : mask = 0 := he
    subst hm
    apply List.ext_getElem (by simp [applyEvent])
    intro i _ hi
    simp only [applyEvent, List.getElem_modify]
    split
    · exact mergeMasked_zero (hw _ (List.getElem_mem hi)) bits
    · rfl

theorem foldl_drivesNone {w : Nat} {port : List PortWord} (hw : ∀ x ∈ port, x < 2 ^ w)
    {es : List Event} (he : ∀ e ∈ es, DrivesNone e) : es.foldl (applyEvent w) port = port := by
  induction es with
  | nil => rfl
  | cons e es ih =>
    rw [List.foldl_cons, applyEvent_drivesNone hw (he e (by simp))]
    exact ih fun e' h => he e' (by simp [h])

/-- Where only such events lie between two moments the latches are the same. -/
theorem port_of_drivesNone {s u v : State} (hu : LatchesFrom s u) (hv : LatchesFrom s v)
    (hs : Shaped u) {es : List Event} (hh : v.history = u.history ++ es)
    (he : ∀ e ∈ es, DrivesNone e) : v.port = u.port := by
  obtain ⟨hcfg, new, hnew, hport⟩ := hu
  obtain ⟨-, new', hnew', hport'⟩ := hv
  have hsplit : new' = new ++ es := by
    rw [hnew', hnew, List.append_assoc] at hh
    exact List.append_cancel_left hh
  rw [hport', hsplit, List.foldl_append, ← hport]
  exact foldl_drivesNone (by rw [← hcfg]; exact hs.portWords) he

/-! #### Rows in which no strand takes part (R110, R115) -/

/-- `COMPOSE` of a row in which no strand takes part clears the masks and only counts (R112). -/
theorem compose_of_inactive {s : State} {row : Nat}
    (h : ∀ i st, s.cfg.strands[i]? = some st → s.active row i st = false) :
    ∃ n, compose row s = .ok (leaveSidx (setSidx n (clearDrv s.composing s))) := by
  have hplan : ∀ i st, s.cfg.strands[i]? = some st → ∀ lf, composePlan s row i st lf = .skip := by
    intro i st hi lf
    simp [composePlan, h i st hi]
  obtain ⟨t, ht, -⟩ := forStrands_runs (cn := .sidx) (k := s.composing) (plan := composePlan s row)
    0 s.cfg.strands (fun i st hi lf f lf' => by rw [Nat.zero_add, hplan i st hi]; nofun)
    (clearDrv s.composing s)
  have hstate := forStrands_keeps (body := planBody .sidx s.composing (composePlan s row))
    (P := fun u => ∃ n, u = setSidx n (clearDrv s.composing s)) 0 s.cfg.strands
    (fun i st u hi hu => by
      obtain ⟨n, rfl⟩ := hu
      rw [Nat.zero_add, planBody, hplan i st hi]
      exact ⟨i, rfl⟩) (u := clearDrv s.composing s) ⟨s.sidx, rfl⟩
  rw [ht] at hstate
  obtain ⟨n, hn⟩ := hstate
  exact ⟨n, by rw [compose_eq, ht, show t = _ from hn]; rfl⟩

/-- The events of the first `n` slices of a buffer whose masks are empty: one write a port, with
the word `BUF` holds. -/
def emptySlices (s : State) (k n : Nat) : List Event :=
  (List.range n).flatMap fun τ =>
    (List.range s.cfg.nPorts).map fun p => .wmb p 0 (s.bufWord k p τ)

theorem slicesEvents_emptyMask {s : State} {k : Nat} (hd : ∀ p, s.drvWord k p = 0) (n : Nat) :
    slicesEvents s k 0 n = emptySlices s k n := by
  simp only [slicesEvents, sliceEvents, emptySlices, hd, Nat.zero_add]

theorem emptySlices_congr {s u : State} (hc : u.cfg = s.cfg) (hb : u.buf = s.buf) (k n : Nat) :
    emptySlices u k n = emptySlices s k n := by
  simp only [emptySlices, State.bufWord, hc, hb]

theorem drivesNone_emptySlices (s : State) (k n : Nat) : ∀ e ∈ emptySlices s k n, DrivesNone e := by
  intro e he
  simp only [emptySlices, List.mem_flatMap, List.mem_map] at he
  obtain ⟨τ, -, p, -, rfl⟩ := he
  rfl

/-- A row of a `SYNC` render with every strand disabled: its slices go out with empty masks. -/
theorem emptyRow_history {v w u : State} {n : Nat} (hm : v.cfg.mode = .sync)
    (hoff : ∀ i, v.enabled i = false) (hw : Gives (.compose n) { v with row := n } w)
    (hu : Gives .submit w u) :
    u.cfg = v.cfg ∧ u.en = v.en ∧ u.buf = v.buf ∧
      u.history = v.history ++ emptySlices v 0 frameSize := by
  obtain ⟨m, hc⟩ := compose_of_inactive (s := setRow n v) (row := n) fun i st _ => by
    have hi : (setRow n v).enabled i = false := hoff i
    simp [State.active, hi]
  have hwe := compose_gives_inj hc hw
  have hwcfg : w.cfg = v.cfg := by rw [← hwe]; rfl
  have hwbuf : w.buf = v.buf := by rw [← hwe]; rfl
  have hwd : ∀ p, w.drvWord 0 p = 0 := fun p => by
    have hk : (setRow n v).composing = 0 := by rw [State.composing, setRow_cfg, hm]
    rw [← hwe, hk]
    exact (drvWord_clearDrv ..).trans (if_pos rfl)
  rw [← submit_gives_inj (submit_sync (by rw [hwcfg, hm])) hu]
  refine ⟨(slicesOut_cfg ..).trans hwcfg, ?_, (slicesOut_buf ..).trans hwbuf, ?_⟩
  · rw [txsync, slicesOut_en, ← hwe]
    rfl
  · rw [txsync, slicesOut_history, slicesEvents_emptyMask hwd, emptySlices_congr hwcfg hwbuf, ← hwe]
    rfl

/-- Every row of a `SYNC` render with every strand disabled records the same events. -/
theorem emptyRows_history {s : State} (hm : s.cfg.mode = .sync) (hoff : ∀ i, s.enabled i = false)
    {n : Nat} {u : State} (h : RowsHandedOver n s u) :
    u.cfg = s.cfg ∧ u.en = s.en ∧ u.buf = s.buf ∧
      u.history = s.history ++ (List.range n).flatMap fun _ => emptySlices s 0 frameSize := by
  induction n generalizing u with
  | zero =>
    obtain rfl : u = s := h
    exact ⟨rfl, rfl, rfl, (List.append_nil _).symm⟩
  | succ n ih =>
    obtain ⟨v, w, hv, hw, -, hu⟩ := h
    obtain ⟨hcfg, hen, hbuf, hhist⟩ := ih hv
    obtain ⟨hcfg', hen', hbuf', hhist'⟩ := emptyRow_history (by rw [hcfg, hm])
      (fun i => by rw [State.enabled, hen]; exact hoff i) hw hu
    refine ⟨hcfg'.trans hcfg, hen'.trans hen, hbuf'.trans hbuf, ?_⟩
    rw [hhist', hhist, emptySlices_congr hcfg hbuf, List.append_assoc, List.range_succ,
      List.flatMap_append, List.flatMap_singleton]

/-- The hand-over of a buffer whose masks are empty changes no latch (R110, R130). -/
theorem port_of_emptyRow {s u t : State} {row k n q : Nat} (hs : Shaped s)
    (hu : Gives (.compose row) s u) (ht : Gives .submit u t) (hd : ∀ p, u.drvWord k p = 0)
    (hh : (clockedOut t).history = (clockedOut s).history ++ List.replicate n .idleTick
      ++ slicesEvents u k 0 frameSize ++ List.replicate q .quietTick) :
    (clockedOut t).port = (clockedOut s).port := by
  have hkept := latchesFrom_kept s
  have hst : LatchesFrom s t := hkept.exec (hkept.exec (.refl s) hu) ht
  rw [slicesEvents_emptyMask hd, List.append_assoc, List.append_assoc] at hh
  refine port_of_drivesNone (LatchesFrom.refl s).clockedOut hst.clockedOut hs.clockedOut hh
    fun e he => ?_
  rcases List.mem_append.1 he with he | he
  · rw [List.eq_of_mem_replicate he]; trivial
  rcases List.mem_append.1 he with he | he
  · exact drivesNone_emptySlices u k frameSize e he
  · rw [List.eq_of_mem_replicate he]; trivial

/-- Settles O41: the hand-over of an empty row puts out its slices (`submit_history`), whose empty
masks change no latch (`port_of_emptyRow`); a `SYNC` render with every strand disabled is such rows
alone (`emptyRows_history`). -/
theorem emptyRowsAreTransmitted : Obligations.EmptyRowsAreTransmitted := by
  refine ⟨fun s row hs hi hl hoff => ?_, fun s hs hm hf hoff => ?_⟩
  · obtain ⟨m, hc⟩ := compose_of_inactive hoff
    generalize hu : leaveSidx (setSidx m (clearDrv s.composing s)) = u at hc
    have hsame : ComposeSame s.composing s u := compose_same (congrArg Res.state hc)
    have hiu := hi.composeSame hsame
    have hfault : u.fault = s.fault := by rw [← hu]; rfl
    have hd : ∀ p, u.drvWord s.composing p = 0 := fun p => by
      rw [← hu]
      exact (drvWord_clearDrv ..).trans (if_pos rfl)
    obtain ⟨t, ht, -⟩ := ((SubmitEnds.of_live hi hl).composeSame hsame).submit
    obtain ⟨n, hh, hn⟩ := submit_history hiu ht
    rw [clockedOut_history_composeSame hi hsame, hsame.composing, hsame.cfg] at hh
    rw [hsame.cfg] at hn
    have hgc : Gives (.compose row) s u := congrArg outcomeOf hc
    have hgs : Gives .submit u t := congrArg outcomeOf ht
    refine ⟨u, t, n, quietAfter s.cfg, hgc, hfault, hd, hgs, hh, port_of_emptyRow hs hgc hgs hd hh,
      fun hm => ⟨hn hm, ?_⟩, fun hm => ?_⟩
    · simp only [quietAfter, hm]
    · obtain ⟨k, rest, rfl, hidle⟩ := submit_isr (by rw [hsame.cfg, hm]) ht
      refine ⟨by simp only [quietAfter, hm], ?_, arm_send _, arm_cur_of_idle hiu hidle rest⟩
      rw [arm_act, setSched_act, ticks_act, hsame.act]
  · obtain ⟨u, hu, -, hg⟩ := render_of_sound (.refl (.inl hm) hf) fun row _ i st _ ha => by
      simp [State.active, hoff i] at ha
    obtain ⟨-, -, -, hh⟩ := emptyRows_history hm hoff hu
    refine ⟨_, hg, ?_, hh⟩
    refine port_of_drivesNone (.refl s) ((latchesFrom_kept s).exec (.refl s) hg) hs hh
      fun e he => ?_
    obtain ⟨-, -, he⟩ := List.mem_flatMap.1 he
    exact drivesNone_emptySlices s 0 frameSize e he

end Sys2Proof.Machine
end

/-! ### Proofs: the Transport Driver (43_transport_driver.md) -/

section
namespace Sys2Proof.Machine

/-! #### Port writes and slices (R130, R131) -/

/-- A port write changes the latches and the history only (R130). -/
theorem wmb_same (p : Nat) (mask bits : PortWord) (s : State) : SamePort s (wmb p mask bits s) := rfl

/-- Settles O22: operands of `W` bits are taken as they are; the merge is `lane_portWord_wmb`. -/
theorem wmbMergesLatch : Obligations.WmbMergesLatch := by
  intro s p mask bits hs hp hm hb
  refine ⟨rfl, wmb p mask bits s, wmb_gives_iff.2 ⟨hp, ?_⟩, wmb_same ..,
    lane_portWord_wmb hs hp hm bits⟩
  rw [wordOf_of_lt hm, wordOf_of_lt hb]

/-- Settles O24: one write a port (`sliceout_history`), which the masks of the instance carry to the
pins (`lane_portWord_sliceout`). -/
theorem sliceoutWritesDrivenPins : Obligations.SliceoutWritesDrivenPins := by
  intro s k τ hs hk hτ
  refine ⟨rfl, sliceout k τ s, sliceout_gives_iff.2 ⟨hk, hτ, rfl⟩, ?_,
    lane_portWord_sliceout hs k τ⟩
  have hsame := sliceout_same k τ s
  rwa [SamePort, sliceout_history] at hsame

/-! #### One tick (R135, R138) -/

/-- A tick of a frame in flight: its slice or a quiet tick goes out, and the last tick of the frame
resets `CUR` and clears `SEND` (R135, R138). -/
theorem tickBody_of_send {s : State} (hs : s.send = true) :
    tickBody s = { s with
      port := (tickBody s).port
      history := s.history ++
        (if s.cur < frameSize then sliceEvents s s.act.toNat s.cur else [.quietTick])
      send := if s.cur + 1 = frameSize + s.cfg.quietTicks then false else true
      cur := if s.cur + 1 = frameSize + s.cfg.quietTicks then 0 else s.cur + 1 } := by
  rw [tickBody_eq s, tickBody_history, tickBody_send, tickBody_cur, hs]
  by_cases h : s.cur + 1 = frameSize + s.cfg.quietTicks <;> simp [h]

/-- Settles O26: an idle tick is recorded, a tick of a frame in flight is `tickBody_of_send`. -/
theorem tickTransitions : Obligations.TickTransitions := by
  intro s hs hm
  have hcur : s.cur ≤ 79 ↔ s.cur < frameSize := Nat.lt_succ_iff.symm
  refine ⟨fun h => tick_gives_iff.2 ⟨hm, tickBody_idle h⟩, fun h => ?_⟩
  refine ⟨tickBody s, tick_gives_iff.2 ⟨hm, rfl⟩, ?_, fun p b => ?_⟩
  · simp only [hcur]
    exact tickBody_of_send h
  · simp only [hcur, lane_portWord_tickBody hs, h, true_and]

/-- Settles O28: a tick does the same to states that look the same to it (`tickBody_of_same`). -/
theorem tickIgnoresComposingInstance : Obligations.TickIgnoresComposingInstance := by
  intro s s' t t' hcfg hact hsend hcur hport hhist hactive ht ht'
  obtain ⟨-, rfl⟩ := tick_gives_iff.1 ht
  obtain ⟨-, rfl⟩ := tick_gives_iff.1 ht'
  have hsame : TickSame s s' := ⟨hcfg, hact, hsend, hcur, hport, hhist,
    fun p => (hactive p 0).1, fun p τ => (hactive p τ).2⟩
  rw [tickBody_of_same hsame]
  exact ⟨rfl, rfl, rfl, rfl, rfl, rfl, rfl, rfl, rfl, rfl⟩

/-! #### An armed frame left to itself (R135, R165) -/

/-- Nothing but the tick moves: the timer fires, and no command and no listed tick is left (R137,
entries 5, 6). -/
structure LeftToItself (s : State) : Prop where
  mode      : s.cfg.mode = .isr
  sched     : s.sched = []
  tickFires : s.tickFires = true
  cmds      : s.cmds = []

theorem LeftToItself.tickBody {s : State} (h : LeftToItself s) : LeftToItself (tickBody s) := by
  obtain ⟨hm, hl, hf, hc⟩ := h
  constructor <;> simpa

/-- A block left to itself takes a tick. -/
theorem LeftToItself.step {s : State} (h : LeftToItself s) :
    step s = .next (Machine.tickBody s) := by
  obtain ⟨hm, hl, hf, hc⟩ := h
  have hdue : s.tickDue = true := by simp [State.tickDue, State.mainWaits, hm, hl, hf, hc]
  have htake : takeTick s = s := by simp only [takeTick, hl]
  rw [Machine.step, if_pos hdue, htake]
  exact tick_gives_iff.2 ⟨hm, rfl⟩

/-- Every step of a block left to itself is a tick. -/
theorem LeftToItself.run {s : State} (h : LeftToItself s) (n : Nat) :
    core.run n s = .next (ticks n s) := by
  induction n generalizing s with
  | zero => rfl
  | succ n ih => exact (run_succ core n h.step).trans (ih h.tickBody)

/-- Settles O27: the steps are ticks, those short of the end keep the frame in flight
(`ticks_flight`), and the last one ends it (`ticks_ticksLeft`). -/
theorem armedFrameTakesItsTicks : Obligations.ArmedFrameTakesItsTicks := by
  intro s hm hs hc hl hf hcmds
  have hrun := LeftToItself.run ⟨hm, hl, hf, hcmds⟩
  have hrange : s.cur < frameSize + s.cfg.quietTicks := by rw [hc]; simp [frameSize]
  have hleft : ticksLeft s = 80 + s.cfg.quietTicks := by rw [ticksLeft, hc]; rfl
  refine ⟨fun n hn => ?_, ?_⟩
  · obtain ⟨hsend, hcur, -⟩ := ticks_flight hs n (by rw [hc, Nat.zero_add]; exact hn)
    exact ⟨_, hrun n, hsend, by rw [hcur, hc, Nat.zero_add]⟩
  · obtain ⟨hsend, hcur, -⟩ := ticks_ticksLeft hs hrange
    have hhist := clockedOut_armed_history hs hc
    rw [clockedOut, if_pos hs] at hhist
    rw [← hleft]
    exact ⟨_, hrun _, hsend, hcur, hhist⟩

/-! #### `HANDOFF` (R134, R136) -/

/-- The spin of an idle transport ends at its first read of `SEND`, after the ticks listed before
it. -/
theorem spin_idle {s : State} (h : s.send = false) (l : List Nat) :
    spin l s = .ok (setSched l.tail (ticks (l.headD 0) s)) := by
  cases l with
  | nil =>
    have hs : (setSched [] s).send = false := h
    rw [spin, spinFree, hs]
    rfl
  | cons n rest =>
    have hs : (ticks n s).send = false := by rw [ticks_idle n h]; exact h
    rw [spin, hs]
    rfl

/-- Settles O29: the spin ends at once (`spin_idle`), and the idle ticks before it and between the
two writes (`arm_eq`) are only recorded. -/
theorem handoffWhenIdle : Obligations.HandoffWhenIdle := by
  intro s hm hs
  refine handoff_gives_iff.2 ⟨hm, ?_⟩
  simp only [submit, hm, handoff, spin_idle hs, Res.andThen, Res.state]
  rw [ticks_idle _ hs, arm_eq (by exact hs)]
  simp [setSched, ← List.drop_one]

/-- A hand-over that ends arms the composed buffer (R134, R136). -/
theorem submit_armed {s t : State} (hi : TransportInv s) (hm : s.cfg.mode = .isr)
    (h : submit s = .ok t) : t.act = 1 - s.act ∧ t.send = true ∧ t.cur = 0 ∧
      ∃ n, t.history = (clockedOut s).history ++ List.replicate n .idleTick := by
  obtain ⟨m, rest, rfl, hd⟩ := submit_isr hm h
  obtain ⟨n, hn⟩ := ticks_history_of_idle hi hd
  refine ⟨by simp, arm_send _, arm_cur_of_idle hi hd rest, n + rest.headD 0, ?_⟩
  rw [arm_eq (by exact hd), List.replicate_add, ← List.append_assoc, ← hn]
  rfl

/-- A frame in flight has its rest of the 80 slices and of the quiet ticks still to come (R135). -/
theorem clockedOut_history_of_send {s : State} (hs : s.send = true)
    (hc : s.cur < frameSize + s.cfg.quietTicks) :
    (clockedOut s).history = s.history ++ slicesEvents s s.act.toNat s.cur (frameSize - s.cur)
      ++ List.replicate (min s.cfg.quietTicks (frameSize + s.cfg.quietTicks - s.cur)) .quietTick := by
  have hslices : min (ticksLeft s) (frameSize - s.cur) = frameSize - s.cur := by
    unfold ticksLeft; omega
  have hquiet : ticksLeft s - (frameSize - s.cur)
      = min s.cfg.quietTicks (frameSize + s.cfg.quietTicks - s.cur) := by
    unfold ticksLeft; omega
  rw [clockedOut_history hc, if_pos hs, flightEvents_eq, hslices, hquiet, List.append_assoc]

/-- The transport's invariants hold while a frame is in flight in `ISR` mode. -/
theorem TransportInv.of_flight {s : State} (hm : s.cfg.mode = .isr) (hs : s.send = true)
    (hc : s.cur < frameSize + s.cfg.quietTicks) : TransportInv s :=
  ⟨by simp [hs], hc, by simp [hm]⟩

/-- A hand-over ends when the ticks that the frame in flight needs come (R136, R165). -/
theorem submit_ends_of_ticks {s : State} (hm : s.cfg.mode = .isr) (hs : s.send = true)
    (hc : s.cur < frameSize + s.cfg.quietTicks)
    (h : s.tickFires = true ∨ ticksLeft s ≤ s.sched.sum) : ∃ t, submit s = .ok t := by
  obtain ⟨t, ht⟩ := h.elim (fun hf => spin_ends s.sched hf hc) (spin_ends_of_listed s.sched hs hc)
  exact ⟨arm t, by simp only [submit, hm, handoff, ht, Res.andThen]⟩

/-- Settles O30: the hand-over ends (`submit_ends_of_ticks`), which it does only once the frame in
flight is out (`submit_armed`). -/
theorem handoffWaitsForFrame : Obligations.HandoffWaitsForFrame := by
  intro s hm hs hc hticks
  obtain ⟨t, ht⟩ := submit_ends_of_ticks hm hs hc hticks
  obtain ⟨hact, hsend, hcur, n, hhist⟩ := submit_armed (.of_flight hm hs hc) hm ht
  rw [clockedOut_history_of_send hs hc] at hhist
  have hwrites := submit_writes ht
  rw [hact, hsend, hcur, hhist] at hwrites
  exact ⟨t, n, handoff_gives_iff.2 ⟨hm, congrArg Res.state ht⟩, hwrites⟩

/-- A spin whose listed ticks are too few for the frame in flight is held once they have fallen and
the timer has stopped (R136, R165; entry 7). -/
theorem spin_held (l : List Nat) {s : State} (hs : s.send = true) (hf : s.tickFires = false)
    (h : s.cur + l.sum < frameSize + s.cfg.quietTicks) :
    spin l s = .held (setHung true (setSched [] (ticks l.sum s))) := by
  induction l generalizing s with
  | nil =>
    rw [spin, spinFree, setSched_send, hs, setSched_tickFires, hf]
    rfl
  | cons n l ih =>
    rw [List.sum_cons] at h ⊢
    obtain ⟨hsend, hcur, -⟩ := ticks_flight hs n (by omega)
    rw [spin, if_pos hsend, ih hsend (by rw [ticks_tickFires, hf])
      (by rw [hcur, ticks_cfg]; omega), ticks_add]

/-- A main path held for ever with no tick to come leaves the state as it is (R136; entry 7). -/
theorem step_of_held {s : State} (hh : s.hung = true) (hl : s.sched = [])
    (hf : s.tickFires = false) : step s = .next s := by
  have hdue : s.tickDue = false := by simp [State.tickDue, hl, hf]
  have hpass : passPlace s = s := by rw [passPlace, hl, List.tail_nil, ← hl]; rfl
  rw [step, hdue, if_neg (by simp), mainMove, if_pos hh, hpass]

/-- Settles O31: the listed ticks bring the frame forward, short of its end (`ticks_flight`), and
the main path is held (`spin_held`, `step_of_held`). -/
theorem handoffHeldForEver : Obligations.HandoffHeldForEver := by
  intro s hm hs hc hf hsum
  have hshort : s.cur + s.sched.sum < frameSize + s.cfg.quietTicks := Nat.add_lt_of_lt_sub' hsum
  obtain ⟨hsend, hcur, -⟩ := ticks_flight hs s.sched.sum hshort
  refine ⟨setHung true (setSched [] (ticks s.sched.sum s)), handoff_gives_iff.2 ⟨hm, ?_⟩, rfl,
    ticks_act .., hsend, ticks_answers .., hcur, step_of_held rfl rfl ?_⟩
  · simp only [submit, hm, handoff, spin_held s.sched hs hf hshort]
    rfl
  · exact (ticks_tickFires ..).trans hf

/-! #### The source's state object (R141) -/

theorem tryBeginTransmit_idle {s : State} (h : s.send = false) (k : BitVec 1) :
    tryBeginTransmit k s = (setSend true (setAct k s), true) := by
  simp [tryBeginTransmit, h]

theorem tryBeginTransmit_busy {s : State} (h : s.send = true) (k : BitVec 1) :
    tryBeginTransmit k s = (s, false) := if_pos h

/-- Settles O33: with no tick listed `HANDOFF` records none (`handoffWhenIdle`), and `advanceSlice`
is the branch of `TICK` that `SEND = 1` takes. -/
theorem stateObjectIsTransport : Obligations.StateObjectIsTransport := by
  intro s hm
  have hidle : ∀ b, s.isIdle = b ↔ s.send = !b := fun _ => Bool.not_eq_eq_eq_not
  refine ⟨fun hi hl => ?_, fun hi => tryBeginTransmit_busy ((hidle _).1 hi), fun hi => ?_⟩
  · have hs : s.send = false := (hidle _).1 hi
    refine ⟨_, tryBeginTransmit_idle hs _, ?_⟩
    have hgives := handoffWhenIdle s hm hs
    simpa [hl, setSend, setAct] using hgives
  · have hs : s.send = true := (hidle _).1 hi
    have htick : advanceCursor (tickOutput s) = tickBody s := (if_pos hs).symm
    refine ⟨tickBody s, !(tickBody s).send, ?_, tick_gives_iff.2 ⟨hm, rfl⟩, Iff.rfl⟩
    rw [advanceSlice, htick, hs, Bool.true_and]

/-! #### A tick and a composition (R137) -/

/-- The state with what a tick writes at the given values (R135). -/
def withTransport (port : List PortWord) (history : List Event) (send : Bool) (cur : Nat)
    (s : State) : State :=
  { s with port := port, history := history, send := send, cur := cur }

/-- An operation that ends in the same way, in another state. -/
def Res.map (f : State → State) : Res → Res
  | .ok s => .ok (f s)
  | .raised s => .raised (f s)
  | .held s => .held (f s)

@[simp] theorem Res.state_map (f : State → State) (r : Res) : (r.map f).state = f r.state := by
  cases r <;> rfl

/-- Two operations in a row may be run in another state when each of them may. -/
theorem Res.map_andThen {f : State → State} {next : State → Res}
    (h : ∀ u, next (f u) = (next u).map f) (r : Res) :
    (r.map f).andThen next = (r.andThen next).map f := by
  cases r with
  | ok u => exact h u
  | raised u => rfl
  | held u => rfl

/-- A loop over strands may be run in another state when its body may. -/
theorem forStrands_map {f : State → State} {body : Nat → Strand → State → Res}
    (h : ∀ i st u, body i st (f u) = (body i st u).map f) (i : Nat) (l : List Strand) (u : State) :
    forStrands body i l (f u) = (forStrands body i l u).map f := by
  induction l generalizing i u with
  | nil => rfl
  | cons st l ih =>
    rw [forStrands, forStrands, h]
    exact Res.map_andThen (ih (i + 1)) _

section
variable (port : List PortWord) (history : List Event) (send : Bool) (cur : Nat)

/-- A strand of a composition neither reads nor writes what a tick writes (R112, R135). -/
theorem planBody_withTransport (cn : Counter) (k : Nat)
    (plan : Nat → Strand → LogicalFrame → StrandPlan) (i : Nat) (st : Strand) (u : State) :
    planBody cn k plan i st (withTransport port history send cur u)
      = (planBody cn k plan i st u).map (withTransport port history send cur) := by
  have hlf : (withTransport port history send cur u).lf = u.lf := rfl
  unfold planBody
  rw [hlf]
  cases cn <;> cases plan i st u.lf <;> rfl

/-- Nor does a whole composition. -/
theorem compose_withTransport (row : Nat) (s : State) :
    compose row (withTransport port history send cur s)
      = (compose row s).map (withTransport port history send cur) := by
  have hbody := planBody_withTransport port history send cur .sidx s.composing (composePlan s row)
  rw [compose_eq, compose_eq, ← Res.map_andThen (fun _ => rfl), ← forStrands_map hbody]
  rfl

end

/-- A tick does not see what a composition writes in `ISR` mode, where the composing buffer is not
the active one (10_state.md R29). -/
theorem ComposeSame.tickSame {s t : State} (h : ComposeSame s.composing s t)
    (hm : s.cfg.mode = .isr) : TickSame s t where
  cfg := h.cfg
  act := h.act
  send := h.send
  cur := h.cur
  port := h.port
  history := h.history
  drv := h.otherDrv _ (composing_ne_act hm).symm
  buf := h.otherBuf _ (composing_ne_act hm).symm

/-- A composition after a tick leaves what a tick after the composition leaves, however it ends. -/
theorem compose_tickBody {s : State} (hm : s.cfg.mode = .isr) (row : Nat) :
    (compose row (tickBody s)).state = tickBody (compose row s).state := by
  have hsame : TickSame s (compose row s).state := (compose_same rfl).tickSame hm
  calc (compose row (tickBody s)).state
      = (compose row (withTransport (tickBody s).port (tickBody s).history (tickBody s).send
          (tickBody s).cur s)).state := by rw [withTransport, ← tickBody_eq]
    _ = withTransport (tickBody s).port (tickBody s).history (tickBody s).send (tickBody s).cur
          (compose row s).state := by rw [compose_withTransport, Res.state_map]
    _ = tickBody (compose row s).state := (tickBody_of_same hsame).symm

/-- Settles O34, by `compose_tickBody`. -/
theorem tickCommutesWithCompose : Obligations.TickCommutesWithCompose := by
  intro s t u row hm ht hu
  obtain rfl : (compose row s).state = t := Host.Outcome.next.inj ht
  obtain ⟨-, rfl⟩ := tick_gives_iff.1 hu
  have hmt : (compose row s).state.cfg.mode = .isr := by rw [(compose_same rfl).cfg, hm]
  exact ⟨_, tick_gives_iff.2 ⟨hmt, rfl⟩, congrArg Host.Outcome.next (compose_tickBody hm row)⟩

end Sys2Proof.Machine
end
